-- ==== Sys2Proof/Word.lean ====
section
/-! DEFINITION. The widths of the block (spec/00_scope.md R10): the 8-bit data bus, the 32-bit host
operation word and the 24-bit page index, block index and byte count. -/

namespace Sys2Proof

/-- One byte on the data lanes, in a payload or in a result frame: `bits(8)` (R10, R11). -/
abbrev Byte := BitVec 8

/-- The host operation word, 32 bits (R10, R100). -/
abbrev OpWord := BitVec 32

/-- The 24-bit operand `X = w[31:8]` of format W: a count, nanoseconds, a page or a block (R10, R101). -/
abbrev Arg24 := BitVec 24

end Sys2Proof
end

