-- ==== Sys2Proof/Config.lean ====
section
/-! DEFINITION. What an implementation fixes (spec/00_scope.md R9, spec/10_state.md R39) and the free
values, which are opaque constants with no body: nothing can evaluate them. -/

namespace Sys2Proof

/-- `PAGE_SIZE`: bytes of a page, spare bytes included (R9). -/
def pageSize : Nat := 2112

/-- `PPB`: pages per block (R9). -/
def pagesPerBlock : Nat := 64

/-- `ID_LEN`: identity bytes (R9). -/
def idLen : Nat := 5

/-- `ADDR_PAGE_LEN`: address bytes of Read-Page and Write-Page, also the largest address cycle (R9, R110). -/
def addrPageLen : Nat := 5

/-- `ADDR_ROW_LEN`: address bytes of Erase-Block (R9). -/
def addrRowLen : Nat := 3

/-- `COL_LEN`: column bytes of a page address (R9). -/
def colLen : Nat := addrPageLen - addrRowLen

/-- `ROW_BITS`: the width of a row (R9). -/
def rowBits : Nat := 8 * addrRowLen

/-- `MAX_RETRIES`: retries of one unit by the host (R9, R268). -/
def maxRetries : Nat := 5

/-- `DATA_REGION`: the leading 512-byte-aligned region of a page, `floor(2112/512)·512 = 2048` (R9, R273). -/
def dataRegion : Nat := pageSize / 512 * 512

/-- The gate minimums `T_HOLD`, `T_WC`, `T_SETTLE` in nanoseconds. They are parameters; the nominal values
of R9 and R150 are their defaults. -/
structure GateTimes where
  hold   : Nat := 5
  wc     : Nat := 25
  settle : Nat := 100
  deriving DecidableEq, Repr

namespace Config

/-- `CAL`, the timing-counter cycles per nanosecond (R9, R151). OPEN: a constant of the implementation. -/
opaque cal : Rat

/-- `SHORT_PAUSE_COUNT`, the iterations of the short pause's loop (R9, R152), where no batch command was invoked that
gives it as its `<delay>`. OPEN: the operator sets it before the session. -/
opaque shortPauseCount : Nat

/-- The wiring: which physical line each signal uses. Indices 0..7 are `LANE_MAP[0..7]`, indices 8..14 are
`PIN_CE_N, PIN_WE_N, PIN_RE_N, PIN_CLE, PIN_ALE, PIN_WP_N, PIN_RB_N` (R9, R67). OPEN. A permutation of the
line numbers, so that no two signals share a line: every injective assignment is one of these. -/
opaque wiring : Equiv.Perm Nat

/-- FREE VALUE: the byte that the k-th unsupplied bus sample reads (R16, 93 I15). -/
opaque freeByte : Nat → Byte

/-- FREE VALUE: the level that the k-th unsupplied ready/busy sample reads, `true` = ready (R16, 93 I15). -/
opaque freeReady : Nat → Bool

/-- FREE VALUE: the wall time, in the host's own unit, that the host measures for its k-th operation (R278). -/
opaque freeElapsed : Nat → Nat

end Config
end Sys2Proof
end

