-- ==== Sys2Proof/Syntax.lean ====
section
/-! DEFINITION. The instructions: one constructor for each row of spec/opcode_table.json, the 19 host
operations of spec/30_encoding.md R103 and the 8 NAND command bytes of R107. -/

namespace Sys2Proof

/-- The operand of BUS_DIR: `D = 0` is `input`, `D = 1` is `output` (R101, R130). -/
inductive LaneDir where
  | input | output
  deriving DecidableEq, Repr

/-- The six control lines, in the order of their `LINE` codes 0..5 (R102). The codes 6 and 7 are reserved
and name no line. -/
inductive Line where
  | ceN | weN | reN | cle | ale | wpN
  deriving DecidableEq, Repr

/-- The instructions. A request payload is part of its operation (R104), so it is an operand here. -/
inductive Instr where
  -- session (44_session.md)
  | sessionInit
  | sessionEnd
  -- bus primitive (40_bus_primitive.md)
  | busDir (d : LaneDir)
  | busWrite (v : Byte)
  | busRead
  | ctlSet (line : Line) (high : Bool)
  | rbRead
  -- timing primitive (41_timing.md)
  | delayNs (x : Arg24)
  | shortPause
  -- control-line sequencer (42_sequencer.md)
  | cmdCycle (c : Byte)
  | addrCycle (a : List Byte)
  | dataOut (buf : List Byte)
  | dataIn (x : Arg24)
  | busyWait
  -- transaction engine (43_transactions.md)
  | readId
  | readPage (p : Arg24)
  | writePage (p : Arg24) (buf : List Byte)
  | eraseBlock (b : Arg24)
  | readStatus
  -- NAND command bytes: command cycles on the chip's bus (30_encoding.md R106, R107), not host words
  | nandReadId
  | nandReadSetup
  | nandReadConfirm
  | nandProgramSetup
  | nandProgramConfirm
  | nandEraseSetup
  | nandEraseConfirm
  | nandReadStatus
  deriving DecidableEq, Repr

end Sys2Proof
end

