-- ==== Sys2Proof/WellFormed.lean ====
section
/-! DEFINITION. Which instructions are well formed: the payload has the length its operation word gives
(spec/30_encoding.md R104) and the operand checks of R110 pass. -/

namespace Sys2Proof

/-- R104 and R341: the request payload of the operation has the length the operation word gives. ADDR_CYCLE
and DATA_OUT carry their count as the payload's own length, so the count's field must be able to hold it. -/
def Instr.framed : Instr → Bool
  | .addrCycle a => decide (a.length < 2 ^ 3)
  | .dataOut buf => decide (buf.length < 2 ^ 24)
  | .writePage _ buf => decide (buf.length = pageSize)
  | _ => true

/-- R110, clauses 3 to 5: the operand checks that a decoded operand can still fail. Clause 1 (reserved bits)
and clause 2 (LINE 6 and 7) are checked where the word is decoded; such a word has no instruction. -/
def Instr.operandsOk : Instr → Bool
  | .addrCycle a => decide (a.length ≤ addrPageLen)
  | .dataOut buf => decide (buf.length ≤ pageSize)
  | .dataIn x => decide (x.toNat ≤ pageSize)
  | .eraseBlock b => decide (b.toNat * pagesPerBlock < 2 ^ rowBits)
  | _ => true

/-- A well-formed instruction: framed, with legal operands. -/
def Instr.wellFormed (i : Instr) : Bool := i.framed && i.operandsOk

end Sys2Proof
end

