-- ==== Sys2Proof/Decode.lean ====
section
/-! DEFINITION. The decoder of the two ports, total on any bytes and rejecting by name, and the encoder
(spec/30_encoding.md R100 to R113). The host port carries operation words with their payloads, least
significant byte first; the bus port carries NAND command bytes (R106, R107), and no host word is ever matched
against them. -/

namespace Sys2Proof

/-! ### Fields of the operation word -/

/-- `OP = w[7:0]` (R101). -/
def opField (w : OpWord) : Byte := w.extractLsb' 0 8

/-- `ARG = w[31:8]`, the whole operand field, which is `X` in format W (R101). -/
def argField (w : OpWord) : Arg24 := w.extractLsb' 8 24

/-- The operation word made of its four bytes in stream order, the least significant (OP) first (R113). -/
def wordOfBytes (b0 b1 b2 b3 : Byte) : OpWord := b3 ++ (b2 ++ (b1 ++ b0))

/-- The four bytes of a word in stream order (R113). -/
def bytesOfWord (w : OpWord) : List Byte :=
  [w.extractLsb' 0 8, w.extractLsb' 8 8, w.extractLsb' 16 8, w.extractLsb' 24 8]

/-- The operation word of an operation code and its ARG field (R101). -/
def makeWord (op : Byte) (arg : Arg24) : OpWord := arg ++ op

/-- Format N, no operand: w[31:8] is reserved and must be 0 (R101). -/
def formatN (w : OpWord) : Bool := argField w == 0#24

/-- Format D, `D = w[8]`: 0 = IN, 1 = OUT; w[31:9] must be 0 (R101). -/
def formatD (w : OpWord) : Option LaneDir :=
  if (argField w).extractLsb' 1 23 = 0#23 then
    some (if (argField w).getLsbD 0 then .output else .input)
  else none

/-- Format B, `V = w[15:8]`; w[31:16] must be 0 (R101). -/
def formatB (w : OpWord) : Option Byte :=
  if (argField w).extractLsb' 8 16 = 0#16 then some ((argField w).extractLsb' 0 8) else none

/-- The control line of a `LINE` code; 6 and 7 are reserved (R102). -/
def lineOfCode (c : BitVec 3) : Option Line :=
  match c.toNat with
  | 0 => some .ceN
  | 1 => some .weN
  | 2 => some .reN
  | 3 => some .cle
  | 4 => some .ale
  | 5 => some .wpN
  | _ => none

/-- The `LINE` code of a control line (R102). -/
def lineCode : Line → BitVec 3
  | .ceN => 0#3
  | .weN => 1#3
  | .reN => 2#3
  | .cle => 3#3
  | .ale => 4#3
  | .wpN => 5#3

/-- Format L, `LINE = w[10:8]`, `LVL = w[11]`; w[31:12] must be 0, and LINE 6 and 7 are refused
(R101, R102, R110 clause 2). -/
def formatL (w : OpWord) : Option (Line × Bool) :=
  if (argField w).extractLsb' 4 20 = 0#20 then
    (lineOfCode ((argField w).extractLsb' 0 3)).map fun l => (l, (argField w).getLsbD 3)
  else none

/-- The field `N = w[10:8]` of format A (R101). -/
def countA (w : OpWord) : Nat := ((argField w).extractLsb' 0 3).toNat

/-- Format A: w[31:11] must be 0 (R101). -/
def formatA (w : OpWord) : Bool := (argField w).extractLsb' 3 21 == 0#21

/-- The request payload length that an operation word gives (R104, R113). It does not depend on whether the
word's operands are legal: N or X is taken as given, and it is 0 for a reserved OP. -/
def payloadLen (w : OpWord) : Nat :=
  match (opField w).toNat with
  | 0x21 => countA w
  | 0x22 => (argField w).toNat
  | 0x32 => pageSize
  | _ => 0

/-! ### Host operation words -/

/-- The two classes of word that are no legal operation (R113): a reserved OP (R109) and a failed operand
check (R110). -/
inductive WordReject where
  | illegalOp
  | badOperand
  deriving DecidableEq, Repr

/-- Keep an instruction whose operands are legal (R110). -/
def checked (i : Instr) : Except WordReject Instr :=
  if i.operandsOk then .ok i else .error .badOperand

/-- An instruction without an operand, if its reserved bits are 0. -/
def plain (w : OpWord) (i : Instr) : Except WordReject Instr :=
  if formatN w then .ok i else .error .badOperand

/-- An instruction whose operand field was read, or a refusal if it could not be. -/
def withField {α : Type} (f : Option α) (mk : α → Instr) : Except WordReject Instr :=
  match f with
  | some a => .ok (mk a)
  | none => .error .badOperand

/-- The operation map (R103): one operation word and its payload, decoded. -/
def decodeWord (w : OpWord) (payload : List Byte) : Except WordReject Instr :=
  match (opField w).toNat with
  | 0x01 => plain w .sessionInit
  | 0x02 => plain w .sessionEnd
  | 0x10 => withField (formatD w) .busDir
  | 0x11 => withField (formatB w) .busWrite
  | 0x12 => plain w .busRead
  | 0x13 => withField (formatL w) fun p => .ctlSet p.1 p.2
  | 0x14 => plain w .rbRead
  | 0x18 => .ok (.delayNs (argField w))
  | 0x19 => plain w .shortPause
  | 0x20 => withField (formatB w) .cmdCycle
  | 0x21 => if formatA w then checked (.addrCycle payload) else .error .badOperand
  | 0x22 => checked (.dataOut payload)
  | 0x23 => checked (.dataIn (argField w))
  | 0x24 => plain w .busyWait
  | 0x30 => plain w .readId
  | 0x31 => .ok (.readPage (argField w))
  | 0x32 => .ok (.writePage (argField w) payload)
  | 0x33 => checked (.eraseBlock (argField w))
  | 0x34 => plain w .readStatus
  | _ => .error .illegalOp

/-- Why a port's bytes give no instruction, with the bytes that follow the rejected item. -/
inductive Reject where
  /-- The stream ends inside an operation: the framing is the host's duty (R104, R341). -/
  | incomplete
  /-- A word that is no legal operation (R113); its payload is consumed all the same. -/
  | word (why : WordReject) (w : OpWord) (rest : List Byte)
  /-- A command byte the source does not name (R111). -/
  | unnamedCommand (c : Byte) (rest : List Byte)
  deriving DecidableEq, Repr

/-- The host port: 4 bytes of operation word, then the payload whose length the word gives (R113). -/
def decodeRequest (bytes : List Byte) : Except Reject (Instr × List Byte) :=
  match bytes with
  | b0 :: b1 :: b2 :: b3 :: tail =>
    let w := wordOfBytes b0 b1 b2 b3
    let n := payloadLen w
    if tail.length < n then .error .incomplete
    else
      match decodeWord w (tail.take n) with
      | .ok i => .ok (i, tail.drop n)
      | .error why => .error (.word why w (tail.drop n))
  | _ => .error .incomplete

/-! ### NAND command bytes -/

/-- The eight command bytes the source names (R107). -/
def decodeNandByte (c : Byte) : Option Instr :=
  match c.toNat with
  | 0x90 => some .nandReadId
  | 0x00 => some .nandReadSetup
  | 0x30 => some .nandReadConfirm
  | 0x80 => some .nandProgramSetup
  | 0x10 => some .nandProgramConfirm
  | 0x60 => some .nandEraseSetup
  | 0xD0 => some .nandEraseConfirm
  | 0x70 => some .nandReadStatus
  | _ => none

/-- The bus port: one command byte at a time (R106, R107). -/
def decodeBusCommand (bytes : List Byte) : Except Reject (Instr × List Byte) :=
  match bytes with
  | c :: rest =>
    match decodeNandByte c with
    | some i => .ok (i, rest)
    | none => .error (.unnamedCommand c rest)
  | [] => .error .incomplete

/-- The two ports an instruction can arrive at: the host's operation stream (R100), and the command bytes of
the chip's bus (R106). -/
inductive Port where
  | host | bus
  deriving DecidableEq, Repr

/-- The decoder: what the bytes of a port begin with. -/
def decode (port : Port) (bytes : List Byte) : Except Reject (Instr × List Byte) :=
  match port with
  | .host => decodeRequest bytes
  | .bus => decodeBusCommand bytes

/-! ### The encoder -/

/-- The port at which an instruction arrives. -/
def Instr.port : Instr → Port
  | .nandReadId | .nandReadSetup | .nandReadConfirm | .nandProgramSetup
  | .nandProgramConfirm | .nandEraseSetup | .nandEraseConfirm | .nandReadStatus => .bus
  | _ => .host

/-- The ARG field of format D. -/
def argD : LaneDir → Arg24
  | .input => 0#24
  | .output => 1#24

/-- The ARG field of format L: `ARG[3] = LVL`, `ARG[2:0] = LINE` (R101). -/
def argL (l : Line) (high : Bool) : Arg24 := 0#20 ++ (BitVec.ofBool high ++ lineCode l)

/-- The ARG field of format B: `ARG[7:0] = V` (R101). -/
def argB (v : Byte) : Arg24 := 0#16 ++ v

/-- The bytes of an instruction at its port, from the operation map (R103) and the command bytes (R107). -/
def encode : Instr → List Byte
  | .sessionInit => bytesOfWord (makeWord 0x01#8 0#24)
  | .sessionEnd => bytesOfWord (makeWord 0x02#8 0#24)
  | .busDir d => bytesOfWord (makeWord 0x10#8 (argD d))
  | .busWrite v => bytesOfWord (makeWord 0x11#8 (argB v))
  | .busRead => bytesOfWord (makeWord 0x12#8 0#24)
  | .ctlSet l high => bytesOfWord (makeWord 0x13#8 (argL l high))
  | .rbRead => bytesOfWord (makeWord 0x14#8 0#24)
  | .delayNs x => bytesOfWord (makeWord 0x18#8 x)
  | .shortPause => bytesOfWord (makeWord 0x19#8 0#24)
  | .cmdCycle c => bytesOfWord (makeWord 0x20#8 (argB c))
  | .addrCycle a => bytesOfWord (makeWord 0x21#8 (BitVec.ofNat 24 a.length)) ++ a
  | .dataOut buf => bytesOfWord (makeWord 0x22#8 (BitVec.ofNat 24 buf.length)) ++ buf
  | .dataIn x => bytesOfWord (makeWord 0x23#8 x)
  | .busyWait => bytesOfWord (makeWord 0x24#8 0#24)
  | .readId => bytesOfWord (makeWord 0x30#8 0#24)
  | .readPage p => bytesOfWord (makeWord 0x31#8 p)
  | .writePage p buf => bytesOfWord (makeWord 0x32#8 p) ++ buf
  | .eraseBlock b => bytesOfWord (makeWord 0x33#8 b)
  | .readStatus => bytesOfWord (makeWord 0x34#8 0#24)
  | .nandReadId => [0x90#8]
  | .nandReadSetup => [0x00#8]
  | .nandReadConfirm => [0x30#8]
  | .nandProgramSetup => [0x80#8]
  | .nandProgramConfirm => [0x10#8]
  | .nandEraseSetup => [0x60#8]
  | .nandEraseConfirm => [0xD0#8]
  | .nandReadStatus => [0x70#8]

/-! ### The opcode table's words -/

/-- The stream bytes of an operation whose bits, from bit 0 of the operation word upwards, are `w`: the
word's four bytes and then as many payload bytes as the word asks for. -/
def tableBytes (w : Nat) : List Byte :=
  (List.range (4 + payloadLen (BitVec.ofNat 32 w))).map fun k => BitVec.ofNat 8 (w >>> (8 * k))

/-- Whether a table word is a NAND command byte: the rows of format `nand_cmd` are one byte wide. -/
def isNandRow (nbits w : Nat) : Bool :=
  decide (nbits ≤ 8) && (decodeNandByte (BitVec.ofNat 8 w)).isSome

/-- What the decoder reads from an instruction whose bits are `w`, numbered as spec/opcode_table.json numbers
them. A one-byte row that is a NAND command byte goes to the bus port, every other word to the host port. -/
def decodeTableWord (nbits w : Nat) : Option Instr :=
  if isNandRow nbits w then decodeNandByte (BitVec.ofNat 8 w)
  else
    match decodeRequest (tableBytes w) with
    | .ok (i, _) => some i
    | .error _ => none

end Sys2Proof
end

