-- ==== Sys2Proof/Machine/State.lean ====
section
/-! DEFINITION. The machine's state as plain data: the block's own fields (spec/10_state.md R31 to R42), the
stream and frames between host and block (R100, R105), the chip's answers (R16) with the reference chip oracle
(R80), the host of spec/48_host_procedures.md (R261), and the reset input (R360). -/

namespace Sys2Proof.Machine

/-! ### Why a step stops -/

/-- The model faults of R320: points beyond which the spec does not describe the pins. All four are SAFE: the
model stops where real pins would go on. -/
inductive Fault where
  /-- BUS_WRITE with `DIR ≠ OUT`, or BUS_READ with `DIR ≠ IN` (R131, R132). Safe. -/
  | dirMisuse
  /-- A composite operation, or a command cycle of the bus port, starts without strobes idle (R173). Safe. -/
  | strobeNotIdle
  /-- `Dir(OUT)` while RE_N is 0, or `Ctl(RE_N, 0)` while `DIR = OUT` (R370). Safe. -/
  | busContention
  /-- WE_N and RE_N would both be 0, or CLE and ALE both 1 (R370). Safe. -/
  | strobeConflict
  deriving DecidableEq, Repr

/-- The runs the spec does not represent. All are SAFE: the model has no run there. -/
inductive Refusal where
  /-- Raised by `exec` for an instruction without a meaning; no arm raises it. Safe. -/
  | notModelled (mnemonic : String)
  /-- The request stream ends inside an operation, or a payload has the wrong length: the framing is the
  host's duty and such a stream "is not represented" (R104, R341, 93 I14). Raised by `step` and WRITE_PAGE. Safe. -/
  | misframedRequest
  /-- A batch range reaches beyond the 24-bit index an operation word can carry; range arguments are the
  command line's (R8, R272). Raised by the host's move. Safe. -/
  | hostRange
  deriving DecidableEq, Repr

/-! ### The block's registers -/

/-- The level of a control line's output latch, `S.LVL[L]` (R35): `undef` only before SESSION_INIT. -/
inductive Level where
  | undef | low | high
  deriving DecidableEq, Repr

/-- The data-lane output latch `S.DOUT`: `bits(8) ∪ {UNDEF}` (R34). -/
inductive DataLatch where
  | undef
  | byte (v : Byte)
  deriving DecidableEq, Repr

/-- The direction `S.DIR` of all 8 lanes (R33). -/
inductive Direction where
  | undef | input | output
  deriving DecidableEq, Repr

/-- The session state `S.SST` (R32). -/
inductive Session where
  | uninit | ready
  deriving DecidableEq, Repr

/-- The phase register `S.PH` (R31). -/
inductive Phase where
  | idle | command | address | dataOut | busyWait | dataIn | done
  deriving DecidableEq, Repr

/-- The six output latches `S.LVL[L]` (R35). -/
structure Levels where
  ceN : Level
  weN : Level
  reN : Level
  cle : Level
  ale : Level
  wpN : Level
  deriving DecidableEq, Repr

/-! ### Pin events and result frames -/

/-- The timing gates (R13, R150). -/
inductive Gate where
  | hold | wc | settle | short
  | ns (n : Nat)
  deriving DecidableEq, Repr

/-- The pin events (R13). A level or sample is `true` for 1. -/
inductive Event where
  | cfgPins
  | dir (d : LaneDir)
  | drive (v : Byte)
  | ctl (line : Line) (high : Bool)
  | gate (g : Gate)
  | sampBus (v : Byte)
  | sampRB (ready : Bool)
  deriving DecidableEq, Repr

/-- The result codes (R112). -/
inductive ResultCode where
  | ok | illegalOp | notInit | badOperand | statusError
  deriving DecidableEq, Repr

/-- A result frame: a result code, then a payload (R105). -/
structure Frame where
  rc : ResultCode
  payload : List Byte
  deriving DecidableEq, Repr

/-- An operation whose busy wait is in progress: what is left to do is fixed by which operation it is (R200). -/
inductive BusyOp where
  | busyWait | readPage | writePage | eraseBlock
  deriving DecidableEq, Repr

/-! ### The chip's side -/

/-- The array's contents: (address, byte) pairs with `addr = row · PAGE_SIZE + column` (R15), addresses
strictly rising, no entry equal to what an unlisted address reads as. -/
abbrev Memory := List Host.Cell

/-- `MODE` of the reference chip oracle (R80). -/
inductive ChipMode where
  | none | idAddr | id | status | readSetup | read | prog | eraseSetup
  deriving DecidableEq, Repr

/-- The reference chip oracle `CHIP` (R80): its parameters first, then its state. -/
structure Chip where
  /-- Whether the oracle answers the block. `false`: the chip is external, or nothing is known of it any more, and
  every answer is a draw (R16, R73, R362). -/
  attached : Bool
  /-- `NUM_PAGES` (R9, R61). -/
  numPages : Nat
  /-- `K_READ`, busy samples after a read confirm. -/
  kRead : Nat
  /-- `K_PROG`, busy samples after a program confirm. -/
  kProg : Nat
  /-- `K_ERASE`, busy samples after an erase confirm. -/
  kErase : Nat
  /-- The rows for which `FAIL(PROG, row)` holds. -/
  failProg : List Nat
  /-- The rows for which `FAIL(ERASE, row)` holds. -/
  failErase : List Nat
  /-- `ID[0..4]`, the identity bytes. -/
  id : List Byte
  /-- `ARR`. -/
  arr : Memory
  /-- `MODE`. -/
  mode : ChipMode
  /-- `ABUF`, the address bytes since the last command that clears it. -/
  abuf : List Byte
  /-- `PREG`, the page register. Empty when it was loaded from a row the chip does not have: every byte read
  from there is a draw (R73). -/
  preg : List Byte
  /-- `COL`, the column pointer. -/
  col : Nat
  /-- `IDX`, the identity byte index. -/
  idx : Nat
  /-- `BUSY`, the busy samples still to report. `none`: not known, after a read confirm of a row the chip does not have,
  and every ready/busy sample is a draw (R73, 93 I18). -/
  busy : Option Nat
  /-- `STAT`, the status byte. -/
  stat : Byte
  deriving DecidableEq, Repr

/-- Where the answers of the chip come from (R16): the oracle if it is attached and answers, else the supplied
draws in order, else a free value. -/
structure Env where
  chip : Chip
  /-- Supplied answers to bus samples, the next one first. -/
  busDraws : List Byte
  /-- Supplied answers to ready/busy samples, the next one first; `true` = ready. -/
  rbDraws : List Bool
  /-- Input: the chip holds R/B# low for good, so that every ready/busy sample reads busy (R180, R323). -/
  heldBusy : Bool
  /-- How many bus samples were answered by `Config.freeByte`. -/
  busFree : Nat
  /-- How many ready/busy samples were answered by `Config.freeReady`. -/
  rbFree : Nat
  deriving DecidableEq, Repr

/-! ### The host of spec/48_host_procedures.md -/

/-- The batch commands, with their half-open ranges (R272). -/
inductive BatchCmd where
  | readId
  | readFull (start stop : Nat)
  | readData (start stop : Nat)
  | writeFull (start stop : Nat)
  | eraseBlocks (start stop : Nat)
  deriving DecidableEq, Repr

/-- Which bytes are committed for a read unit that failed for good, `BAD_PAGE_DATA` (R270). -/
inductive BadPageData where
  | firstRead | secondRead | zeroFill
  deriving DecidableEq, Repr

/-- `FILE_BASE` (R275). -/
inductive FileBase where
  | absolute | relative
  deriving DecidableEq, Repr

/-- One line of the bad-unit log (R269). -/
inductive LogLine where
  | page (n : Nat)
  | block (n : Nat)
  deriving DecidableEq, Repr

/-- Why the host aborts (R276). -/
inductive FatalCause where
  | setup | identity | fileOpen | fileRead | fileWrite
  deriving DecidableEq, Repr

/-- What the host shows the operator. The texts are not in the source (R269, R271), so each is an event. -/
inductive Report where
  | identity (id : List Byte)
  | progress (unit total : Nat)
  | retry (unit : Nat)
  | badUnit (unit : Nat)
  | fatal (cause : FatalCause)
  | summary (elapsed : Nat)
  deriving DecidableEq, Repr

/-- Where the host stands in its procedures (R262 to R268). -/
inductive DriverCtl where
  /-- No command was invoked. -/
  | off
  /-- A command was invoked; HostStart comes next (R262). -/
  | invoked
  /-- HostStart waits for the result of SESSION_INIT. -/
  | awaitInit
  /-- HostStart waits for the session identity. -/
  | awaitId
  /-- IdCheck waits for an identity (R263). -/
  | awaitCheck
  /-- ReadAttempt waits for the first read (R265). -/
  | awaitFirst
  /-- ReadAttempt waits for the second read (R265). -/
  | awaitSecond
  /-- WriteAttempt waits (R266). -/
  | awaitWrite
  /-- EraseAttempt waits (R267). -/
  | awaitErase
  /-- The process ended; `true` = exit status 0, `false` = a non-zero status (R276). -/
  | finished (success : Bool)
  deriving DecidableEq, Repr

/-- The host's state (R261) and parameters. -/
structure Driver where
  ctl : DriverCtl
  /-- `<delay>`, the first argument of the invocation (R272). -/
  delay : Nat
  cmd : BatchCmd
  /-- The page or block in progress. -/
  unit : Nat
  /-- `fails`, the bounded-retry counter of the unit in progress. -/
  fails : Nat
  /-- The buffer of the unit: the first read of a read attempt (`a`, R265), or the bytes to write (R274). -/
  buf : List Byte
  /-- `ID0`, the identity captured at session start. -/
  id0 : List Byte
  /-- `LOG`. -/
  log : List LogLine
  /-- `FILE`; `none` marks a byte that nothing has put there. -/
  file : List (Option Byte)
  /-- `T`, the elapsed wall time. -/
  elapsed : Nat
  /-- How many free values `T` has accumulated. -/
  ticks : Nat
  /-- What the operator was shown, oldest first. -/
  reports : List Report
  badPageData : BadPageData
  fileBase : FileBase
  /-- Input: process setup fails (R276). -/
  setupFails : Bool
  /-- Input: how many more accesses to the file succeed before one fails (R276). `none`: all succeed. -/
  fileFails : Option Nat
  deriving DecidableEq, Repr

/-! ### The state -/

/-- The machine. -/
structure State where
  /-- `S.SST` (R32). -/
  sst : Session
  /-- `S.PH` (R31). -/
  ph : Phase
  /-- `S.DIR` (R33). -/
  dir : Direction
  /-- `S.DOUT` (R34). -/
  dout : DataLatch
  /-- `S.LVL` (R35). -/
  lvl : Levels
  /-- `S.OE`: the six control lines are enabled as outputs (R35). -/
  oe : Bool
  /-- The operation whose busy wait is in progress, if any (R180). -/
  pending : Option BusyOp
  /-- The reset input (R360): `some n` = it is asserted after n more instants, `some 0` = now. The instants are the
  acceptance of an operation or command byte, each event, the sending of a result frame, and each step in which
  nothing acts. -/
  resetAfter : Option Nat
  /-- The later assertions of the reset input, each as the instants after the reset before it (R360). -/
  laterResets : List Nat
  /-- The model fault that stopped the run, while a reset is announced, which is the only continuation (R322). -/
  fault : Option Fault
  /-- The pin events emitted so far, the newest first (R13). -/
  trace : List Event
  /-- The host's request stream, the next byte first (R100). -/
  request : List Byte
  /-- Command bytes handed straight to the control-line sequencer, the next one first (R106, R107). -/
  busCmd : List Byte
  /-- The result frames sent and not yet taken by the host, the oldest first (R105). -/
  frames : List Frame
  env : Env
  driver : Driver
  deriving DecidableEq, Repr

/-- Every latch at UNDEF (R361). -/
def Levels.reset : Levels :=
  { ceN := .undef, weN := .undef, reN := .undef, cle := .undef, ale := .undef, wpN := .undef }

/-- The oracle's initial state (R83) with the default parameters (R80), not attached. NUM_PAGES, ID, ABUF, PREG,
COL and IDX have no initial value in the spec: DESIGN CHOICE, log entry 7. -/
def Chip.initial : Chip :=
  { attached := false, numPages := 0, kRead := 1, kProg := 1, kErase := 1, failProg := [], failErase := []
    id := [0#8, 0#8, 0#8, 0#8, 0#8], arr := [], mode := .none, abuf := [], preg := [], col := 0, idx := 0
    busy := some 0, stat := 0xE0#8 }

/-- No chip answer supplied, no free value used. -/
def Env.initial : Env :=
  { chip := Chip.initial, busDraws := [], rbDraws := [], heldBusy := false, busFree := 0, rbFree := 0 }

/-- No batch command invoked. The spec gives no initial host state: DESIGN CHOICE, log entry 11. -/
def Driver.initial : Driver :=
  { ctl := .off, delay := 0, cmd := .readId, unit := 0, fails := 0, buf := [], id0 := [0#8, 0#8, 0#8, 0#8, 0#8], log := []
    file := [], elapsed := 0, ticks := 0, reports := [], badPageData := .firstRead, fileBase := .absolute
    setupFails := false, fileFails := none }

/-- The machine right after reset: the block's fields as R361 gives them, nothing streamed, no answer supplied,
an external chip, no batch command. -/
def State.reset : State :=
  { sst := .uninit, ph := .idle, dir := .undef, dout := .undef, lvl := Levels.reset, oe := false
    pending := none, resetAfter := none, laterResets := [], fault := none, trace := [], request := [], busCmd := []
    frames := [], env := Env.initial, driver := Driver.initial }

end Sys2Proof.Machine
end

