-- ==== Sys2Proof/Machine/Memory.lean ====
section
/-! DEFINITION. The NAND array's contents: `MemRead` and `MemWrite` of spec/00_scope.md R15, used by the reference
chip oracle only, over a list in canonical form. -/

namespace Sys2Proof.Machine

/-- What an unlisted address reads as: `ERASED = 0xFF` (R80). The spec leaves the array's initial contents to
each test; that an address nothing has written is erased is a DESIGN CHOICE (log entry 6), unsafe. -/
def Memory.unlisted : Byte := 0xFF#8

/-- The canonical form: addresses strictly rising, no entry equal to what an unlisted address reads as. -/
abbrev Memory.wf (m : Memory) : Prop :=
  m.Pairwise (fun x y => x.1 < y.1) ∧ ∀ c ∈ m, c.2 ≠ Memory.unlisted

/-- `MemRead(a, 1)` (R15). -/
def Memory.read : Memory → Nat → Byte
  | [], _ => Memory.unlisted
  | (b, w) :: m, a => if b = a then w else Memory.read m a

/-- `MemWrite(a, 1, v)` (R15), keeping the canonical form: writing what an unlisted address reads as removes
the entry. -/
def Memory.write (m : Memory) (a : Nat) (v : Byte) : Memory :=
  match m with
  | [] => if v = Memory.unlisted then [] else [(a, v)]
  | (b, w) :: rest =>
    if a < b then if v = Memory.unlisted then (b, w) :: rest else (a, v) :: (b, w) :: rest
    else if a = b then if v = Memory.unlisted then rest else (a, v) :: rest
    else (b, w) :: Memory.write rest a v

/-- Erase the addresses `lo ≤ a < hi`: they read as ERASED afterwards (R82, command 0xD0). -/
def Memory.eraseRange (m : Memory) (lo hi : Nat) : Memory :=
  m.filter fun c => !(decide (lo ≤ c.1) && decide (c.1 < hi))

/-- Program bytes at rising addresses: each stored byte is ANDed with the new one, since programming only
clears bits (R82, command 0x10). -/
def Memory.program : Memory → Nat → List Byte → Memory
  | m, _, [] => m
  | m, a, v :: vs => Memory.program (m.write a (m.read a &&& v)) (a + 1) vs

/-- The byte address of a row and a column (R15). -/
def byteAddress (row col : Nat) : Nat := row * pageSize + col

/-- `ARR[row]`, the whole page. -/
def Memory.page (m : Memory) (row : Nat) : List Byte :=
  (List.range pageSize).map fun c => m.read (byteAddress row c)

end Sys2Proof.Machine
end

