-- ==== Sys2Proof/Machine/Chip.lean ====
section
/-! DEFINITION. The chip's side of the pins: the reference chip oracle `CHIP` (spec/20_memory.md R80 to R83), and
where the answer to a sample comes from (spec/00_scope.md R16). No rule of the sequencer depends on the oracle. -/

namespace Sys2Proof.Machine

/-- A row from its three bytes, least significant first (R63, R64, R82). -/
def rowOfBytes (r1 r2 r3 : Byte) : Nat := r1.toNat + 256 * r2.toNat + 65536 * r3.toNat

/-- A column from its two bytes (R62, R82). -/
def colOfBytes (c1 c2 : Byte) : Nat := c1.toNat + 256 * c2.toNat

/-- `STAT` after an operation: `0xE0`, with bit 0 set if the failure predicate holds for the row (R82). -/
def chipStatus (failRows : List Nat) (row : Nat) : Byte :=
  if row ∈ failRows then 0xE0#8 ||| 1#8 else 0xE0#8

/-- Command 0x30 (R82): the page register takes `ARR[row]`. A row the chip does not have gives an empty register and no
busy count: every byte read from it is a draw, and so is every ready/busy sample until a confirm of a row that the chip
has (R73, 93 I18, log entry 8). -/
def chipReadConfirm (ch : Chip) : Chip :=
  match ch.mode, ch.abuf with
  | .readSetup, [c1, c2, r1, r2, r3] =>
    if rowOfBytes r1 r2 r3 < ch.numPages then
      { ch with
        col := colOfBytes c1 c2
        preg := ch.arr.page (rowOfBytes r1 r2 r3)
        busy := some ch.kRead
        mode := .read }
    else { ch with col := colOfBytes c1 c2, preg := [], busy := none, mode := .read }
  | _, _ => ch

/-- What is left of the oracle when it must program or erase a row that the chip does not have: the spec gives that no
meaning, and any response is possible (R73, 93 I18), so nothing is known of the chip from then on and every later
answer is a draw (log entry 8). -/
def chipUnknown (ch : Chip) : Chip := { ch with attached := false }

/-- Command 0x10 (R82): the row's bytes are ANDed with the page register. -/
def chipProgramConfirm (ch : Chip) : Chip :=
  match ch.mode, ch.abuf with
  | .prog, [_, _, r1, r2, r3] =>
    if rowOfBytes r1 r2 r3 < ch.numPages then
      { ch with
        arr := ch.arr.program (byteAddress (rowOfBytes r1 r2 r3) 0) (ch.preg.take pageSize)
        stat := chipStatus ch.failProg (rowOfBytes r1 r2 r3)
        busy := some ch.kProg
        mode := .none }
    else chipUnknown ch
  | _, _ => ch

/-- The first row after block `blk`, or the chip's row count if the block reaches beyond it. -/
def blockEnd (numPages blk : Nat) : Nat := min ((blk + 1) * pagesPerBlock) numPages

/-- Command 0xD0 (R82): every page of the block that holds the row is erased. -/
def chipEraseConfirm (ch : Chip) : Chip :=
  match ch.mode, ch.abuf with
  | .eraseSetup, [r1, r2, r3] =>
    if rowOfBytes r1 r2 r3 < ch.numPages then
      { ch with
        arr := ch.arr.eraseRange (byteAddress (rowOfBytes r1 r2 r3 / pagesPerBlock * pagesPerBlock) 0)
          (byteAddress (blockEnd ch.numPages (rowOfBytes r1 r2 r3 / pagesPerBlock)) 0)
        stat := chipStatus ch.failErase (rowOfBytes r1 r2 r3)
        busy := some ch.kErase
        mode := .none }
    else chipUnknown ch
  | _, _ => ch

/-- Command 0x80 (R82). -/
def chipProgramSetup (ch : Chip) : Chip :=
  { ch with mode := .prog, abuf := [], preg := List.replicate pageSize Memory.unlisted, col := 0 }

/-- `ChipCommand(c)` (R82). -/
def chipCommand (c : Byte) (ch : Chip) : Chip :=
  match c.toNat with
  | 0x90 => { ch with mode := .idAddr, abuf := [] }
  | 0x70 => { ch with mode := .status }
  | 0x00 => { ch with mode := .readSetup, abuf := [] }
  | 0x30 => chipReadConfirm ch
  | 0x80 => chipProgramSetup ch
  | 0x10 => chipProgramConfirm ch
  | 0x60 => { ch with mode := .eraseSetup, abuf := [] }
  | 0xD0 => chipEraseConfirm ch
  | _ => ch

/-- `ChipAddress()` (R82), after an address byte was appended to ABUF. -/
def chipAddressed (ch : Chip) : Chip :=
  match ch.mode, ch.abuf with
  | .prog, [c1, c2, _, _, _] => { ch with col := colOfBytes c1 c2 }
  | .idAddr, [_] => { ch with mode := .id, idx := 0 }
  | _, _ => ch

/-- An address byte latched with ALE high (R81). -/
def chipAddress (v : Byte) (ch : Chip) : Chip := chipAddressed { ch with abuf := ch.abuf ++ [v] }

/-- A data byte latched with CLE and ALE low (R81): in PROG mode it goes to the page register. A column beyond
the page stores nothing and still advances (log entry 9). -/
def chipData (v : Byte) (ch : Chip) : Chip :=
  match ch.mode with
  | .prog => { ch with preg := ch.preg.set ch.col v, col := ch.col + 1 }
  | _ => ch

/-- The byte latched on a rising WE_N edge (R81): what it does depends on the latch-enable levels. -/
def chipLatch (lvl : Levels) (v : Byte) (ch : Chip) : Chip :=
  match lvl.cle, lvl.ale with
  | .high, .low => chipCommand v ch
  | .low, .high => chipAddress v ch
  | .low, .low => chipData v ch
  | _, _ => ch

/-- The rising RE_N edge (R83). -/
def chipReadAdvance (ch : Chip) : Chip :=
  match ch.mode with
  | .id => { ch with idx := ch.idx + 1 }
  | .read => { ch with col := ch.col + 1 }
  | _ => ch

/-- What the oracle drives on the lanes while RE_N is low, or `none` for a free draw (R83). -/
def chipOutput (ch : Chip) : Option Byte :=
  match ch.mode with
  | .id => some (if ch.idx < idLen then ch.id.getD ch.idx 0#8 else 0#8)
  | .status => some ch.stat
  | .read => if ch.col < pageSize then ch.preg[ch.col]? else none
  | _ => none

/-! ### Answers -/

/-- A byte drawn for a bus sample: the next supplied answer, else a free value (R16). -/
def Env.drawByte (env : Env) : Byte × Env :=
  match env.busDraws with
  | v :: rest => (v, { env with busDraws := rest })
  | [] => (Config.freeByte env.busFree, { env with busFree := env.busFree + 1 })

/-- A level drawn for a ready/busy sample: the next supplied answer, else a free value (R16). -/
def Env.drawReady (env : Env) : Bool × Env :=
  match env.rbDraws with
  | r :: rest => (r, { env with rbDraws := rest })
  | [] => (Config.freeReady env.rbFree, { env with rbFree := env.rbFree + 1 })

/-- Whether the oracle reacts: it is attached and `S.LVL[CE_N] = 0` (R81). -/
def Env.selected (lvl : Levels) (env : Env) : Bool := env.chip.attached && decide (lvl.ceN = .low)

/-- The answer to one sample of the 8 data lanes (R69, R83). -/
def Env.answerBus (lvl : Levels) (dir : Direction) (env : Env) : Byte × Env :=
  if env.selected lvl && decide (lvl.reN = .low) && decide (dir = .input) then
    match chipOutput env.chip with
    | some v => (v, env)
    | none => env.drawByte
  else env.drawByte

/-- The busy samples that the oracle still reports, or `none` where it does not answer for the line: it is not selected,
or its busy count is not known (R73, R81, R83). -/
def Env.busyCount (lvl : Levels) (env : Env) : Option Nat := if env.selected lvl then env.chip.busy else none

/-- The answer to one sample of the ready/busy line, `true` = ready (R38, R83): busy for good if the chip never
releases it (R323), else the oracle's answer, else a draw. -/
def Env.answerReady (lvl : Levels) (env : Env) : Bool × Env :=
  if env.heldBusy then (false, env)
  else
    match env.busyCount lvl with
    | some (n + 1) => (false, { env with chip := { env.chip with busy := some n } })
    | some 0 => (true, env)
    | none => env.drawReady

/-- How many ready/busy samples are answered without a free value before the first one that may need it. -/
def Env.knownReady (lvl : Levels) (env : Env) : Nat :=
  if env.heldBusy then 0 else (env.busyCount lvl).getD env.rbDraws.length

/-- The byte on the lanes at a rising WE_N edge: the output latch when the block drives, else a draw (R81). -/
def Env.lanes (dir : Direction) (dout : DataLatch) (env : Env) : Byte × Env :=
  match dir, dout with
  | .output, .byte v => (v, env)
  | _, _ => env.drawByte

/-- How the oracle reacts to an event, given the pins before it (R81, R83). -/
def Env.react (lvl : Levels) (dir : Direction) (dout : DataLatch) (e : Event) (env : Env) : Env :=
  if env.selected lvl then
    match e with
    | .ctl .weN true =>
      if lvl.weN = .low then
        { (env.lanes dir dout).2 with
          chip := chipLatch lvl (env.lanes dir dout).1 (env.lanes dir dout).2.chip }
      else env
    | .ctl .reN true => if lvl.reN = .low then { env with chip := chipReadAdvance env.chip } else env
    | _ => env
  else env

end Sys2Proof.Machine
end

