-- ==== Sys2Proof/Machine/Flags.lean ====
section
/-! DEFINITION. The one flag of the spec (spec/10_state.md R40): bit 0 of the chip's status byte, and the result
code it selects (spec/43_transactions.md R211, R222). The sequencer has no flags of its own. -/

namespace Sys2Proof.Machine

/-- `STATUS_FAIL_BIT`: bit 0 of the status byte, 1 = the last program or erase failed (R9, R211). -/
def statusFailed (s : Byte) : Bool := s.getLsbD 0

/-- What an operation answers: a result code and a payload (R14). -/
abbrev Reply := ResultCode × List Byte

/-- `ResultOfStatus(s)` (R222). -/
def resultOfStatus (s : Byte) : Reply :=
  if statusFailed s then (.statusError, [s]) else (.ok, [s])

end Sys2Proof.Machine
end

