-- ==== Sys2Proof/Machine/Operands.lean ====
section
/-! DEFINITION. Operand forms: the address bytes of spec/20_memory.md R63 to R65, the levels and codes of
spec/10_state.md, the result frame's bytes, and the wiring of R67. -/

namespace Sys2Proof.Machine

/-! ### Address bytes -/

/-- `AddrPage(p)`: two zero column bytes, then the row, least significant byte first (R63). -/
def addrPage (p : Arg24) : List Byte :=
  [0x00#8, 0x00#8, p.extractLsb' 0 8, p.extractLsb' 8 8, p.extractLsb' 16 8]

/-- The row of a block's first page, `r = b · PPB` (R64, R224). A legal block index never wraps (R110). -/
def blockRow (b : Arg24) : Arg24 := b * BitVec.ofNat 24 pagesPerBlock

/-- `AddrRow(b)`: the row of the block's first page, least significant byte first (R64). -/
def addrRow (b : Arg24) : List Byte :=
  [(blockRow b).extractLsb' 0 8, (blockRow b).extractLsb' 8 8, (blockRow b).extractLsb' 16 8]

/-- The one address byte of Read-ID (R65). -/
def addrId : List Byte := [0x00#8]

/-! ### Levels and directions -/

/-- The level of a bit: 1 is high (R35, R102). -/
def Level.ofBool : Bool → Level
  | true => .high
  | false => .low

/-- The direction a `Dir` event sets (R33). -/
def Direction.ofLaneDir : LaneDir → Direction
  | .input => .input
  | .output => .output

/-- `S.LVL[L]` (R35). -/
def Levels.get (lv : Levels) : Line → Level
  | .ceN => lv.ceN
  | .weN => lv.weN
  | .reN => lv.reN
  | .cle => lv.cle
  | .ale => lv.ale
  | .wpN => lv.wpN

/-- `S.LVL[L] <- v` (R35). -/
def Levels.set (lv : Levels) (l : Line) (v : Level) : Levels :=
  match l with
  | .ceN => { lv with ceN := v }
  | .weN => { lv with weN := v }
  | .reN => { lv with reN := v }
  | .cle => { lv with cle := v }
  | .ale => { lv with ale := v }
  | .wpN => { lv with wpN := v }

/-- The level at which a control line is asserted (R36). -/
def assertedLevel : Line → Level
  | .ceN => .low
  | .weN => .low
  | .reN => .low
  | .cle => .high
  | .ale => .high
  | .wpN => .low

/-- The idle and session levels that SESSION_INIT establishes (R37, R240). -/
def Levels.session : Levels :=
  { ceN := .low, weN := .high, reN := .high, cle := .low, ale := .low, wpN := .high }

/-- The strobes-idle condition on the latches (R37). -/
def Levels.strobesIdle (lv : Levels) : Bool :=
  decide (lv.weN = .high) && decide (lv.reN = .high) && decide (lv.cle = .low) && decide (lv.ale = .low)

/-! ### Codes -/

/-- The 3-bit code of `S.PH` (R31); code 7 is unused. -/
def Phase.code : Phase → BitVec 3
  | .idle => 0#3
  | .command => 1#3
  | .address => 2#3
  | .dataOut => 3#3
  | .busyWait => 4#3
  | .dataIn => 5#3
  | .done => 6#3

/-- The code of `S.SST` (R42). -/
def Session.code : Session → BitVec 1
  | .uninit => 0#1
  | .ready => 1#1

/-- The code of `S.DIR` (R42); code 3 is unused. -/
def Direction.code : Direction → BitVec 2
  | .input => 0#2
  | .output => 1#2
  | .undef => 2#2

/-- The code of a result (R112); 0x05..0xFF are never returned. -/
def ResultCode.code : ResultCode → Byte
  | .ok => 0x00#8
  | .illegalOp => 0x01#8
  | .notInit => 0x02#8
  | .badOperand => 0x03#8
  | .statusError => 0x04#8

/-- The bytes of a result frame: one result code byte, then the payload (R105). -/
def Frame.bytes (f : Frame) : List Byte := f.rc.code :: f.payload

/-- The result payload of RB_READ: 0x00 busy, 0x01 ready (R105, R134). -/
def readyByte (r : Bool) : Byte := if r then 0x01#8 else 0x00#8

/-! ### Wiring -/

/-- `LANE_MAP[i]` (R67), for i = 0..7. -/
def laneMap (i : Nat) : Nat := Config.wiring i

/-- The index of a control line's pin in the wiring. -/
def pinIndex : Line → Nat
  | .ceN => 8
  | .weN => 9
  | .reN => 10
  | .cle => 11
  | .ale => 12
  | .wpN => 13

/-- The physical line of a control signal, `PIN_<L>` (R9). -/
def pinOf (l : Line) : Nat := Config.wiring (pinIndex l)

/-- `PIN_RB_N` (R9), an input. -/
def pinRB : Nat := Config.wiring 14

/-- The control line wired as signal `k`. -/
def lineAt (k : Nat) : Option Line :=
  match k with
  | 8 => some .ceN
  | 9 => some .weN
  | 10 => some .reN
  | 11 => some .cle
  | 12 => some .ale
  | 13 => some .wpN
  | _ => none

/-- The bit a level stands for, if it is defined. -/
def Level.bit : Level → Option Bool
  | .undef => none
  | .low => some false
  | .high => some true

/-- What the block drives on a physical line, `none` if it does not drive it: a data lane is driven only while
`DIR = OUT` (R33, R34), a control line only while `OE = 1` (R35), every other line never (R38). -/
def State.drives (s : State) (n : Nat) : Option Bool :=
  if Config.wiring.symm n < 8 then
    match s.dir, s.dout with
    | .output, .byte v => some (v.getLsbD (Config.wiring.symm n))
    | _, _ => none
  else
    match lineAt (Config.wiring.symm n) with
    | some l => if s.oe then (s.lvl.get l).bit else none
    | none => none

/-- The byte read from the physical levels: `v[i] = level(LANE_MAP[i])` at one instant (R69). -/
def byteOfLanes (level : Nat → Bool) : Byte :=
  BitVec.ofBool (level (laneMap 7)) ++ (BitVec.ofBool (level (laneMap 6)) ++ (BitVec.ofBool (level (laneMap 5)) ++
    (BitVec.ofBool (level (laneMap 4)) ++ (BitVec.ofBool (level (laneMap 3)) ++ (BitVec.ofBool (level (laneMap 2)) ++
      (BitVec.ofBool (level (laneMap 1)) ++ BitVec.ofBool (level (laneMap 0))))))))

/-- What the lanes show while a `Drive(v)` is in progress and k of its bits are written, bit 0 first (R68): the
first k bits are the new ones. -/
def driveStage (old new : Byte) (k : Nat) : Byte :=
  (new &&& BitVec.ofNat 8 (2 ^ k - 1)) ||| (old &&& ~~~(BitVec.ofNat 8 (2 ^ k - 1)))

end Sys2Proof.Machine
end

