-- ==== Sys2Proof/Machine/Ops.lean ====
section
/-! DEFINITION. The shared operations: emitting pin events through the hazard check (spec/70_reset_and_hazards.md
R370), sampling (spec/00_scope.md R16), reset (R360), and the frame around every host operation: the checks of
spec/60_exceptions.md R301 and the result frame of spec/30_encoding.md R105. The block has no trap mechanism
(R300): a rejection is a result code, a model fault ends the run, and a hang is a busy wait that goes on. -/

namespace Sys2Proof.Machine

/-! ### Runs of events -/

/-- Why a run of events stops before its end: a model fault (R320), the reset input (R360), or a ready/busy line
that still reads busy (R180). -/
inductive Stop where
  | fault (f : Fault)
  | reset
  | waiting (op : BusyOp)
  deriving DecidableEq, Repr

/-- The result of a run of events: a value and the state after it, or a stop and the state at the stop, with the
events before it emitted and their writes done (R321). -/
inductive Run (α : Type) where
  | ok (a : α) (s : State)
  | stop (w : Stop) (s : State)
  deriving Repr

/-- Go on with the state a run leaves, unless it stopped. -/
def Run.bind {α β : Type} (r : Run α) (f : α → State → Run β) : Run β :=
  match r with
  | .ok a s => f a s
  | .stop w s => .stop w s

/-- Go on with the state a run leaves, dropping its value. -/
def Run.andThen {α β : Type} (r : Run α) (f : State → Run β) : Run β := r.bind fun _ s => f s

/-! ### Hazards and events -/

/-- `HazardCheck(e)` (R370): the first condition that holds names the fault. A comparison with UNDEF is false. -/
def hazard (e : Event) (s : State) : Option Fault :=
  match e with
  | .dir .output => if s.lvl.reN = .low then some .busContention else none
  | .ctl .reN false =>
    if s.dir = .output then some .busContention
    else if s.lvl.weN = .low then some .strobeConflict
    else none
  | .ctl .weN false => if s.lvl.reN = .low then some .strobeConflict else none
  | .ctl .cle true => if s.lvl.ale = .high then some .strobeConflict else none
  | .ctl .ale true => if s.lvl.cle = .high then some .strobeConflict else none
  | _ => none

/-- The state write that an event implies (R13, R33 to R35). -/
def applyEvent (e : Event) (s : State) : State :=
  match e with
  | .cfgPins => { s with oe := true }
  | .dir d => { s with dir := Direction.ofLaneDir d }
  | .drive v => { s with dout := .byte v }
  | .ctl l b => { s with lvl := s.lvl.set l (Level.ofBool b) }
  | .gate _ => s
  | .sampBus _ => s
  | .sampRB _ => s

/-- One instant fewer before an announced reset (R360). -/
def State.tick (s : State) : State := { s with resetAfter := s.resetAfter.map (· - 1) }

/-- An event that takes place: its state write, its place in the trace, the oracle's reaction to it, and one instant
fewer before an announced reset. -/
def record (e : Event) (s : State) : State :=
  { applyEvent e s with
    trace := e :: s.trace
    resetAfter := s.resetAfter.map (· - 1)
    env := s.env.react s.lvl s.dir s.dout e }

/-- `Emit(e)` (R13): reset first (R331), then the hazard check (R370), then the event. -/
def emit (e : Event) (s : State) : Run Unit :=
  if s.resetAfter = some 0 then .stop .reset s
  else
    match hazard e s with
    | some f => .stop (.fault f) s
    | none => .ok () (record e s)

/-- Emit events in order. -/
def emitAll : List Event → State → Run Unit
  | [], s => .ok () s
  | e :: es, s => (emit e s).andThen (emitAll es)

/-- `SampleBus()` (R16, R69). A sample never faults (R370). -/
def sampleBus (s : State) : Run Byte :=
  if s.resetAfter = some 0 then .stop .reset s
  else
    .ok (s.env.answerBus s.lvl s.dir).1
      (record (.sampBus (s.env.answerBus s.lvl s.dir).1) { s with env := (s.env.answerBus s.lvl s.dir).2 })

/-- `SampleRB()` (R16, R38); `true` = ready. -/
def sampleReady (s : State) : Run Bool :=
  if s.resetAfter = some 0 then .stop .reset s
  else
    .ok (s.env.answerReady s.lvl).1
      (record (.sampRB (s.env.answerReady s.lvl).1) { s with env := (s.env.answerReady s.lvl).2 })

/-- The strobes-idle condition (R37). -/
def State.strobesIdle (s : State) : Bool := s.lvl.strobesIdle

/-- The entry condition of every composite operation (R173). -/
def requireIdle (s : State) : Run Unit :=
  if s.strobesIdle then .ok () s else .stop (.fault .strobeNotIdle) s

/-! ### Reset -/

/-- The chip after a reset: it may be in any state, so the oracle answers no more, nothing holds R/B# for good, and
every later answer is a draw (R362). -/
def Env.afterReset (env : Env) : Env := { env with chip := { env.chip with attached := false }, heldBusy := false }

/-- Whether a host procedure is in progress: it waits for a result (R262 to R268). -/
def Driver.running (d : Driver) : Bool :=
  match d.ctl with
  | .off | .invoked | .finished _ => false
  | .awaitInit | .awaitId | .awaitCheck | .awaitFirst | .awaitSecond | .awaitWrite | .awaitErase => true

/-- The host after a reset of the block: a process that was in progress ended with it, and restarts with HostStart
(R361). Its other state is outside the block and is kept (log entry 4). -/
def Driver.afterReset (d : Driver) : Driver := if d.running then { d with ctl := .invoked } else d

/-- The reset input (R360, R361): the operation or the model fault in progress is abandoned and every block field takes
its reset value. A host process in progress restarts, and what it had streamed or not yet taken is gone with it; any
other host's streams lie outside the block and stay (log entry 4). The next assertion of the input is announced. -/
def State.applyReset (s : State) : State :=
  { s with
    sst := .uninit
    ph := .idle
    dir := .undef
    dout := .undef
    lvl := Levels.reset
    oe := false
    pending := none
    resetAfter := s.laterResets.head?
    laterResets := s.laterResets.tail
    fault := none
    request := if s.driver.running then [] else s.request
    frames := if s.driver.running then [] else s.frames
    env := s.env.afterReset
    driver := s.driver.afterReset }

/-! ### The frame around a host operation -/

/-- Send a result frame (R105). -/
def State.answer (s : State) (rc : ResultCode) (payload : List Byte) : State :=
  { s with frames := s.frames ++ [⟨rc, payload⟩] }

/-- The end of an operation: its result frame (R105), unless the reset input comes first, which ends the operation
without one, also after its last event (R331, R362). -/
def deliver (a : Reply) (s : State) : Host.Outcome State Fault Refusal :=
  if s.resetAfter = some 0 then .next s.applyReset else .next (s.tick.answer a.1 a.2)

/-- A rejection: a result frame with an empty payload, no event, no other state change (R302). -/
def reject (rc : ResultCode) (s : State) : Host.Outcome State Fault Refusal := deliver (rc, []) s

/-- A model fault ends the run (R322). Where a reset is announced, the run goes on with it, the only continuation: the
state is kept as the fault left it, and the step after is the reset (R360). -/
def raiseFault (f : Fault) (s : State) : Host.Outcome State Fault Refusal :=
  match s.resetAfter with
  | none => .fault f
  | some _ => .next { s with fault := some f }

/-- How a run becomes the outcome of a step: a result frame (R105), a model fault (R320), the reset state (R362),
or an operation that still waits (R180). -/
def finish (r : Run Reply) : Host.Outcome State Fault Refusal :=
  match r with
  | .ok a s => deliver a s
  | .stop (.fault f) s => raiseFault f s
  | .stop .reset s => .next s.applyReset
  | .stop (.waiting op) s => .next { s with pending := some op }

/-- Whether the session state lets an operation run: SESSION_INIT always, every other operation only while READY
(R32, R303). -/
def sessionAdmits (i : Instr) (s : State) : Bool := decide (s.sst = .ready) || decide (i = .sessionInit)

/-- The checks of R301 on a decoded operation, in their order, then its rule. Reset comes before all of them (R331): an
operation that was accepted is then abandoned with no frame (R362). -/
def operation (i : Instr) (body : State → Run Reply) (s : State) : Host.Outcome State Fault Refusal :=
  if s.resetAfter = some 0 then .next s.applyReset
  else if sessionAdmits i s then
    if i.operandsOk then finish (body s) else reject .badOperand s
  else reject .notInit s

/-- `S.PH <- p` (R31, R181). -/
def State.setPhase (p : Phase) (s : State) : State := { s with ph := p }

/-- The end of an operation of files 42 and 43: `S.PH <- DONE`, then `S.PH <- IDLE`, with no event between (R181),
and the operation's result. -/
def complete (a : Reply) (s : State) : Run Reply := .ok a ((s.setPhase .done).setPhase .idle)

end Sys2Proof.Machine
end

