-- ==== Sys2Proof/Machine/Driver.lean ====
section
/-! DEFINITION. The host of spec/48_host_procedures.md: the session start with its identity check, the attempts at
a unit, the bounded retry with the bad-unit log, and the batch commands. The host reaches the block only through
SESSION_INIT, READ_ID, READ_PAGE, WRITE_PAGE and ERASE_BLOCK (R279). Every function here is pure in the host's own
state; `driverStep` connects it to the streams. -/

namespace Sys2Proof.Machine

/-- What the host does next: it takes a new state and may issue an operation, or its range reaches beyond the index
that an operation word carries (R8, R272). -/
inductive DriverMove where
  | act (d : Driver) (issue : Option Instr)
  | outOfRange
  deriving DecidableEq, Repr

/-! ### Commands and units -/

/-- The units of a batch command: start and stop of its half-open range (R272). -/
def BatchCmd.range : BatchCmd → Nat × Nat
  | .readId => (0, 0)
  | .readFull a b => (a, b)
  | .readData a b => (a, b)
  | .writeFull a b => (a, b)
  | .eraseBlocks a b => (a, b)

/-- The unit count of a batch command (R271, R272). -/
def BatchCmd.total (c : BatchCmd) : Nat := c.range.2 - c.range.1

/-- The bytes of one page in the file: `U` of R275. -/
def BatchCmd.unitBytes : BatchCmd → Nat
  | .readData _ _ => dataRegion
  | _ => pageSize

/-- The log line of a unit that failed for good (R269). -/
def BatchCmd.logLine (c : BatchCmd) (u : Nat) : LogLine :=
  match c with
  | .eraseBlocks _ _ => .block u
  | _ => .page u

/-- The text of a log line, ended by a newline (R269). -/
def LogLine.text : LogLine → String
  | .page n => "Page " ++ toString n ++ " seems to be bad\n"
  | .block n => "Block " ++ toString n ++ " seems to be bad\n"

/-- The number `N` of a page in the file (R275). -/
def Driver.filePage (d : Driver) (p : Nat) : Nat :=
  match d.fileBase with
  | .absolute => p
  | .relative => p - d.cmd.range.1

/-! ### The file -/

/-- Where a page's region begins in the file: `N·U` (R275). -/
def Driver.fileOffset (d : Driver) (p : Nat) : Nat := d.filePage p * d.cmd.unitBytes

/-- The region `[off, off + n)` of the file, or `none` if a byte of it is missing (R274). -/
def readRegion (file : List (Option Byte)) (off n : Nat) : Option (List Byte) :=
  if ((file.drop off).take n).length = n then ((file.drop off).take n).mapM id else none

/-- Write a region, `FILE[off, off + n)`; a gap before it holds no byte, and every byte outside the region stays, also past
its end (R275; DESIGN CHOICE, log entries 18 and 27). -/
def writeRegion (file : List (Option Byte)) (off : Nat) (data : List Byte) : List (Option Byte) :=
  file.take off ++ List.replicate (off - file.length) none ++ data.map some ++ file.drop (off + data.length)

/-! ### The end of a run -/

/-- The run aborts with a diagnostic and a non-zero exit status (R276). -/
def Driver.fatal (d : Driver) (why : FatalCause) : DriverMove :=
  .act { d with ctl := .finished false, reports := d.reports ++ [.fatal why] } none

/-- The run completes: the final summary and exit status 0 (R276, R278). -/
def Driver.finishRun (d : Driver) : DriverMove :=
  .act { d with ctl := .finished true, reports := d.reports ++ [.summary d.elapsed] } none

/-! ### Units -/

/-- Issue READ_ID for the identity check that begins an attempt (R263). -/
def Driver.beginAttempt (d : Driver) : DriverMove := .act { d with ctl := .awaitCheck } (some .readId)

/-- One access to the file: it fails where the input says so, and then the run aborts (R276); else the host goes on, with
one access fewer before a failure. -/
def Driver.access (d : Driver) (why : FatalCause) (next : Driver → DriverMove) : DriverMove :=
  if d.fileFails = some 0 then d.fatal why else next { d with fileFails := d.fileFails.map (· - 1) }

/-- Begin unit u with `fails = 0` (R268), taking a write unit's buffer from the file first (R274), or complete the
run after the last unit (R272). -/
def Driver.beginUnit (d : Driver) (u : Nat) : DriverMove :=
  if d.cmd.range.2 ≤ u then d.finishRun
  else if 2 ^ 24 ≤ u then .outOfRange
  else
    match d.cmd with
    | .writeFull _ _ =>
      d.access .fileRead fun d =>
        match readRegion d.file (d.fileOffset u) pageSize with
        | some buf => Driver.beginAttempt { d with unit := u, fails := 0, buf := buf }
        | none => d.fatal .fileRead
    | _ => Driver.beginAttempt { d with unit := u, fails := 0 }

/-- After a unit, success or failure: report the progress and go to the next unit (R271, R272). The index reported is
the unit's own page or block index, not its position in the batch: DESIGN CHOICE, log entry 17. -/
def Driver.nextUnit (d : Driver) : DriverMove :=
  Driver.beginUnit { d with reports := d.reports ++ [.progress d.unit d.cmd.total] } (d.unit + 1)

/-- Commit the unit's data to the file, only now that the unit is over (R277), then go on. A write failure is fatal
(R276) and leaves the regions of the earlier units (R277). -/
def Driver.commit (d : Driver) (data : List Byte) : DriverMove :=
  d.access .fileWrite fun d =>
    Driver.nextUnit { d with file := writeRegion d.file (d.fileOffset d.unit) (data.take d.cmd.unitBytes) }

/-- The first transaction of an attempt, once the identity matches (R265, R266, R267). -/
def Driver.attempt (d : Driver) : DriverMove :=
  match d.cmd with
  | .writeFull _ _ => .act { d with ctl := .awaitWrite } (some (.writePage (BitVec.ofNat 24 d.unit) d.buf))
  | .eraseBlocks _ _ => .act { d with ctl := .awaitErase } (some (.eraseBlock (BitVec.ofNat 24 d.unit)))
  | _ => .act { d with ctl := .awaitFirst } (some (.readPage (BitVec.ofNat 24 d.unit)))

/-- The bytes committed for a read unit that failed for good, `BAD_PAGE_DATA` (R270). -/
def badPageBytes (which : BadPageData) (first second : List Byte) : List Byte :=
  match which with
  | .firstRead => first
  | .secondRead => second
  | .zeroFill => List.replicate pageSize 0#8

/-- A counted failure of the unit (R268): up to MAX_RETRIES retries, each with its identity check; at the failure
after the last retry one log line, and `atEnd` with the logged unit. -/
def Driver.countFailure (d : Driver) (atEnd : Driver → DriverMove) : DriverMove :=
  if d.fails + 1 = maxRetries + 1 then
    atEnd { d with fails := d.fails + 1, log := d.log ++ [d.cmd.logLine d.unit], reports := d.reports ++ [.badUnit d.unit] }
  else Driver.beginAttempt { d with fails := d.fails + 1, reports := d.reports ++ [.retry d.unit] }

/-! ### Replies -/

/-- The test of the initial identity fault: all five bytes equal (R262). An answer that is not five bytes long is no
identity either (log entry 12). -/
def identityFault (id : List Byte) : Bool :=
  match id with
  | [a, b, c, d, e] => decide (a = b) && decide (b = c) && decide (c = d) && decide (d = e)
  | _ => true

/-- Begin the batch: a command with a file opens it first (R272), which can fail and is then fatal (R276); then its first
unit. That the file is opened here, and that opening it keeps every byte it holds, an output file's too, is the model's
choice: DESIGN CHOICE, log entry 27. -/
def Driver.beginBatch (d : Driver) : DriverMove :=
  match d.cmd with
  | .readId => d.beginUnit d.cmd.range.1
  | .eraseBlocks _ _ => d.beginUnit d.cmd.range.1
  | .readFull _ _ => d.access .fileOpen fun d => d.beginUnit d.cmd.range.1
  | .readData _ _ => d.access .fileOpen fun d => d.beginUnit d.cmd.range.1
  | .writeFull _ _ => d.access .fileOpen fun d => d.beginUnit d.cmd.range.1

/-- The session identity is known: read_id reports it and ends, every other command begins its batch (R262, R272). -/
def Driver.start (d : Driver) (id : List Byte) : DriverMove :=
  match d.cmd with
  | .readId => Driver.finishRun { d with id0 := id, reports := d.reports ++ [.identity id] }
  | _ => Driver.beginBatch { d with id0 := id }

/-- The host's move when a result frame arrives (R262 to R268). -/
def Driver.reply (d : Driver) (f : Frame) : DriverMove :=
  match d.ctl with
  | .off => .act d none
  | .invoked => .act d none
  | .finished _ => .act d none
  | .awaitInit => .act { d with ctl := .awaitId } (some .readId)
  | .awaitId => if identityFault f.payload then d.fatal .identity else d.start f.payload
  | .awaitCheck => if f.payload = d.id0 then d.attempt else d.beginAttempt
  | .awaitFirst =>
    .act { d with ctl := .awaitSecond, buf := f.payload } (some (.readPage (BitVec.ofNat 24 d.unit)))
  | .awaitSecond =>
    if d.buf = f.payload then d.commit d.buf
    else d.countFailure fun d => d.commit (badPageBytes d.badPageData d.buf f.payload)
  | .awaitWrite => if f.rc = .ok then d.nextUnit else d.countFailure Driver.nextUnit
  | .awaitErase => if f.rc = .ok then d.nextUnit else d.countFailure Driver.nextUnit

/-- The host's first move after a command was invoked: HostStart issues SESSION_INIT (R262), unless process setup
failed (R276). The file is neither opened nor emptied here: DESIGN CHOICE, log entry 27, see `Driver.beginBatch`. -/
def Driver.invoke (d : Driver) : DriverMove :=
  if d.setupFails then d.fatal .setup else .act { d with ctl := .awaitInit } (some .sessionInit)

/-- Add one measured operation to the elapsed time, a free amount (R278). -/
def Driver.tick (d : Driver) : Driver :=
  { d with elapsed := d.elapsed + Config.freeElapsed d.ticks, ticks := d.ticks + 1 }

/-! ### The host's step -/

/-- Put the host's move into the state: its operation goes on the request stream (R100). -/
def State.driven (s : State) (m : DriverMove) : Host.Outcome State Fault Refusal :=
  match m with
  | .act d none => .next { s with driver := d }
  | .act d (some i) => .next { s with driver := d, request := s.request ++ encode i }
  | .outOfRange => .refused .hostRange

/-- The host's move when the block is idle and the request stream is empty: HostStart after a command was invoked,
else the move for the oldest result frame while a procedure waits for one. With nothing to do the block waits for
the next operation word and keeps every field (R343); each such step is an instant for the reset input (R360). -/
def driverStep (s : State) : Host.Outcome State Fault Refusal :=
  match s.driver.ctl with
  | .off => .next s.tick
  | .finished _ => .next s.tick
  | .invoked => s.driven s.driver.invoke
  | _ =>
    match s.frames with
    | [] => .next s.tick
    | f :: rest => State.driven { s with frames := rest } (s.driver.tick.reply f)

end Sys2Proof.Machine
end

