-- ==== Sys2Proof/Machine/Bus.lean ====
section
/-! DEFINITION. The GPIO bus primitive (spec/40_bus_primitive.md R130 to R134). None of these operations writes
`S.PH`, and none inserts a gate (R133). -/

namespace Sys2Proof.Machine

/-- An operation of one event, hazard check included, that answers OK with no payload. -/
def eventOperation (e : Event) (s : State) : Run Reply := (emit e s).andThen fun s => .ok (.ok, []) s

/-- BUS_DIR (R130). -/
def execBusDir (d : LaneDir) (s : State) : Host.Outcome State Fault Refusal :=
  operation (.busDir d) (eventOperation (.dir d)) s

/-- The body of BUS_WRITE: `DIR` must be OUT (R131). -/
def busWriteBody (v : Byte) (s : State) : Run Reply :=
  if s.dir = .output then eventOperation (.drive v) s else .stop (.fault .dirMisuse) s

/-- BUS_WRITE (R131). -/
def execBusWrite (v : Byte) (s : State) : Host.Outcome State Fault Refusal :=
  operation (.busWrite v) (busWriteBody v) s

/-- The body of BUS_READ: `DIR` must be IN (R132). -/
def busReadBody (s : State) : Run Reply :=
  if s.dir = .input then (sampleBus s).bind fun v s => .ok (.ok, [v]) s else .stop (.fault .dirMisuse) s

/-- BUS_READ (R132). -/
def execBusRead (s : State) : Host.Outcome State Fault Refusal := operation .busRead busReadBody s

/-- CTL_SET (R133). -/
def execCtlSet (line : Line) (high : Bool) (s : State) : Host.Outcome State Fault Refusal :=
  operation (.ctlSet line high) (eventOperation (.ctl line high)) s

/-- The body of RB_READ: one sample, `zext_8(r)` (R134). -/
def rbReadBody (s : State) : Run Reply := (sampleReady s).bind fun r s => .ok (.ok, [readyByte r]) s

/-- RB_READ (R134). -/
def execRbRead (s : State) : Host.Outcome State Fault Refusal := operation .rbRead rbReadBody s

end Sys2Proof.Machine
end

