-- ==== Sys2Proof/Machine/Sequencer.lean ====
section
/-! DEFINITION. The control-line sequencer (spec/42_sequencer.md): strobe pulses, phase procedures, and the five
operations that run one phase each. -/

namespace Sys2Proof.Machine

/-! ### Strobe pulses -/

/-- `WePulse(v)`, 7 events; the chip latches v on the rising edge (R170). -/
def wePulse (v : Byte) : List Event :=
  [.drive v, .gate .short, .ctl .weN false, .gate .wc, .ctl .weN true, .gate .hold, .gate .short]

/-- The events of `RePulse()` before its sample (R171). -/
def rePulseHead : List Event := [.ctl .reN false, .gate .wc]

/-- The events of `RePulse()` after its sample (R171). -/
def rePulseTail : List Event := [.ctl .reN true, .gate .hold, .gate .short]

/-- `RePulse()`, 6 events with the sample taken while RE_N is low (R171). -/
def rePulse (s : State) : Run Byte :=
  (emitAll rePulseHead s).andThen fun s =>
    (sampleBus s).bind fun v s => (emitAll rePulseTail s).andThen fun s => .ok v s

/-! ### Phase procedures -/

/-- The 12 events of `CmdPhase(c)` (R174). -/
def cmdEvents (c : Byte) : List Event :=
  [.dir .output, .ctl .cle true, .gate .short] ++ wePulse c ++ [.ctl .cle false, .gate .short]

/-- `CmdPhase(c)` (R174). -/
def cmdPhase (c : Byte) (s : State) : Run Unit := emitAll (cmdEvents c) (s.setPhase .command)

/-- The 5 + 7n events of `AddrPhase(a)` for n ≥ 1, none for n = 0 (R175). -/
def addrEvents (a : List Byte) : List Event :=
  if a = [] then []
  else [.dir .output, .ctl .ale true, .gate .short] ++ a.flatMap wePulse ++ [.ctl .ale false, .gate .short]

/-- `AddrPhase(a)`: with no byte the phase is skipped and `S.PH` is not written (R175, R181). -/
def addrPhase (a : List Byte) (s : State) : Run Unit :=
  if a = [] then .ok () s else emitAll (addrEvents a) (s.setPhase .address)

/-- The 1 + 7n events of `DoutPhase(buf)` for n ≥ 1, none for n = 0 (R176). -/
def doutEvents (buf : List Byte) : List Event :=
  if buf = [] then [] else [.dir .output] ++ buf.flatMap wePulse

/-- `DoutPhase(buf)` (R176). -/
def doutPhase (buf : List Byte) (s : State) : Run Unit :=
  if buf = [] then .ok () s else emitAll (doutEvents buf) (s.setPhase .dataOut)

/-- n read pulses, the bytes in the order they were sampled (R177). -/
def readPulses : Nat → State → Run (List Byte)
  | 0, s => .ok [] s
  | n + 1, s => (rePulse s).bind fun v s => (readPulses n s).bind fun vs s => .ok (v :: vs) s

/-- The events of `DinPhase` before its read pulses (R177). -/
def dinHead : List Event := [.dir .input, .gate .short]

/-- `DinPhase(n)`, 2 + 6n events for n ≥ 1, none for n = 0 (R177). -/
def dinPhase (n : Nat) (s : State) : Run (List Byte) :=
  if n = 0 then .ok [] s else (emitAll dinHead (s.setPhase .dataIn)).andThen (readPulses n)

/-! ### Busy wait -/

/-- Poll the ready/busy line in a tight loop (R179): as many samples as have an answer at hand, and one more. The
value is whether a sample read ready. -/
def poll : Nat → State → Run Bool
  | 0, s => sampleReady s
  | n + 1, s => (sampleReady s).bind fun r s => if r then .ok true s else poll n s

/-- Poll until ready, then the second settle gate; while the line still reads busy the operation waits, without
any bound (R179, R180). -/
def awaitReady (op : BusyOp) (s : State) : Run Unit :=
  (poll (s.env.knownReady s.lvl) s).bind fun r s =>
    if r then emit (.gate .settle) s else .stop (.waiting op) s

/-- `BusyPhase()` of an operation, from its start (R179). -/
def busyPhase (op : BusyOp) (s : State) : Run Unit :=
  (emit (.gate .settle) (s.setPhase .busyWait)).andThen (awaitReady op)

/-! ### The operations -/

/-- The frame of a sequencer operation: strobes idle at entry, then the phase, then DONE and IDLE (R173, R181). -/
def sequenced (phase : State → Run (List Byte)) (s : State) : Run Reply :=
  (requireIdle s).andThen fun s => (phase s).bind fun out s => complete (.ok, out) s

/-- A phase that reads nothing. -/
def silent (phase : State → Run Unit) (s : State) : Run (List Byte) := (phase s).andThen fun s => .ok [] s

/-- CMD_CYCLE (R174): any byte is sent (R111). -/
def execCmdCycle (c : Byte) (s : State) : Host.Outcome State Fault Refusal :=
  operation (.cmdCycle c) (sequenced (silent (cmdPhase c))) s

/-- ADDR_CYCLE (R175). -/
def execAddrCycle (a : List Byte) (s : State) : Host.Outcome State Fault Refusal :=
  operation (.addrCycle a) (sequenced (silent (addrPhase a))) s

/-- DATA_OUT (R176). -/
def execDataOut (buf : List Byte) (s : State) : Host.Outcome State Fault Refusal :=
  operation (.dataOut buf) (sequenced (silent (doutPhase buf))) s

/-- DATA_IN (R177). -/
def execDataIn (x : Arg24) (s : State) : Host.Outcome State Fault Refusal :=
  operation (.dataIn x) (sequenced (dinPhase x.toNat)) s

/-- The body of BUSY_WAIT: no entry check, since it drives no line (R173, R179). -/
def busyWaitBody (s : State) : Run Reply := (busyPhase .busyWait s).andThen (complete (.ok, []))

/-- BUSY_WAIT (R179). -/
def execBusyWait (s : State) : Host.Outcome State Fault Refusal := operation .busyWait busyWaitBody s

end Sys2Proof.Machine
end

