-- ==== Sys2Proof/Machine/NandBus.lean ====
section
/-! DEFINITION. The NAND command bytes as instructions of the bus port (spec/30_encoding.md R106, R107): each is one
command cycle on the chip's bus with that byte. Inside the transactions the same cycle is `CmdPhase(c)`
(spec/43_transactions.md R200); with the oracle attached, the chip's own effect of the byte is R82. Such a byte is
no host operation word (R107), so no result frame answers it. -/

namespace Sys2Proof.Machine

/-- How a command cycle's run becomes the outcome of a step: as `finish`, but with no result frame. -/
def finishBus (r : Run Unit) : Host.Outcome State Fault Refusal :=
  match r with
  | .ok _ s => .next s
  | .stop (.fault f) s => raiseFault f s
  | .stop .reset s => .next s.applyReset
  | .stop (.waiting op) s => .next { s with pending := some op }

/-- One command cycle of the bus port: reset first (R331); nothing while no session is open (R243), else strobes idle at
entry, as R173 asks of CMD_CYCLE (log entry 1), `CmdPhase(c)` (R174), DONE and IDLE (R181). -/
def busCommand (c : Byte) (s : State) : Host.Outcome State Fault Refusal :=
  if s.resetAfter = some 0 then .next s.applyReset
  else if s.sst = .ready then
    finishBus ((requireIdle s).andThen fun s =>
      (cmdPhase c s).andThen fun s => .ok () ((s.setPhase .done).setPhase .idle))
  else .next s

/-- 0x90, the command of Read-ID (R107, R205). -/
def execNandReadId (s : State) : Host.Outcome State Fault Refusal := busCommand 0x90#8 s

/-- 0x00, the first command of Read-Page (R107, R214). -/
def execNandReadSetup (s : State) : Host.Outcome State Fault Refusal := busCommand 0x00#8 s

/-- 0x30, the second command of Read-Page (R107, R214). -/
def execNandReadConfirm (s : State) : Host.Outcome State Fault Refusal := busCommand 0x30#8 s

/-- 0x80, the first command of Write-Page (R107, R220). -/
def execNandProgramSetup (s : State) : Host.Outcome State Fault Refusal := busCommand 0x80#8 s

/-- 0x10, the second command of Write-Page (R107, R220). -/
def execNandProgramConfirm (s : State) : Host.Outcome State Fault Refusal := busCommand 0x10#8 s

/-- 0x60, the first command of Erase-Block (R107, R224). -/
def execNandEraseSetup (s : State) : Host.Outcome State Fault Refusal := busCommand 0x60#8 s

/-- 0xD0, the second command of Erase-Block (R107, R224). -/
def execNandEraseConfirm (s : State) : Host.Outcome State Fault Refusal := busCommand 0xD0#8 s

/-- 0x70, the command of Read-Status (R107, R210). -/
def execNandReadStatus (s : State) : Host.Outcome State Fault Refusal := busCommand 0x70#8 s

end Sys2Proof.Machine
end

