-- ==== Sys2Proof/Machine/Session.lean ====
section
/-! DEFINITION. Session control (spec/44_session.md). -/

namespace Sys2Proof.Machine

/-- The 12 events of SESSION_INIT, in order (R240). -/
def sessionInitEvents : List Event :=
  [.ctl .ceN true, .ctl .weN true, .ctl .reN true, .ctl .cle false, .ctl .ale false, .ctl .wpN true, .cfgPins,
    .drive 0x00#8, .dir .input, .gate .settle, .ctl .ceN false, .gate .settle]

/-- The body of SESSION_INIT (R240). -/
def sessionInitBody (s : State) : Run Reply :=
  (emitAll sessionInitEvents s).andThen fun s => .ok (.ok, []) { s with sst := .ready, ph := .idle }

/-- SESSION_INIT (R240): legal in either session state (R241). -/
def execSessionInit (s : State) : Host.Outcome State Fault Refusal := operation .sessionInit sessionInitBody s

/-- SESSION_END (R242): no event; every other field is unchanged. -/
def execSessionEnd (s : State) : Host.Outcome State Fault Refusal :=
  operation .sessionEnd (fun s => .ok (.ok, []) { s with sst := .uninit }) s

end Sys2Proof.Machine
end

