-- ==== Sys2Proof/Machine/Timing.lean ====
section
/-! DEFINITION. The timing primitive (spec/41_timing.md): the two delay operations (R156, R157), the minimum
duration of a gate (R150), the counter cycles that realise it (R151), and the minimum duration of a trace (R380).
The model has no clock and no step depends on these durations (R380). -/

namespace Sys2Proof.Machine

/-- DELAY_NS (R156): no operand is rejected. -/
def execDelayNs (x : Arg24) (s : State) : Host.Outcome State Fault Refusal :=
  operation (.delayNs x) (eventOperation (.gate (.ns x.toNat))) s

/-- SHORT_PAUSE (R157). -/
def execShortPause (s : State) : Host.Outcome State Fault Refusal :=
  operation .shortPause (eventOperation (.gate .short)) s

/-- The minimum duration of a gate in nanoseconds (R150). The short pause guarantees none (R152). -/
def Gate.minNs (t : GateTimes) : Gate → Nat
  | .hold => t.hold
  | .wc => t.wc
  | .settle => t.settle
  | .short => 0
  | .ns n => n

/-- `ceil(n · CAL)`, the counter cycles of a gate of n nanoseconds (R151). -/
def gateCycles (cal : Rat) (n : Nat) : Nat := (n * cal.num.toNat + (cal.den - 1)) / cal.den

/-- How a gate is realised: counter cycles from `CAL`, or iterations of the short pause's loop (R151, R152). -/
def Gate.loopCount (cal : Rat) (shortCount : Nat) (t : GateTimes) : Gate → Nat
  | .short => shortCount
  | g => gateCycles cal (g.minNs t)

/-- `SHORT_PAUSE_COUNT`: from the invocation of a batch command on, its `<delay>` argument, set before HostStart (R272,
R39); where no command was invoked, whatever the operator set, an open constant (R9, R152). -/
def State.shortPauseCount (s : State) : Nat :=
  match s.driver.ctl with
  | .off => Config.shortPauseCount
  | .invoked | .awaitInit | .awaitId | .awaitCheck | .awaitFirst | .awaitSecond | .awaitWrite | .awaitErase
  | .finished _ => s.driver.delay

/-- The loop count of a gate, from `CAL` and `SHORT_PAUSE_COUNT` (R39, R151, R152). -/
def Gate.realisedCount (s : State) (t : GateTimes) (g : Gate) : Nat := g.loopCount Config.cal s.shortPauseCount t

/-- The minimum duration that an event guarantees: only gates guarantee one (R153). -/
def Event.minNs (t : GateTimes) : Event → Nat
  | .gate g => g.minNs t
  | _ => 0

/-- The minimum duration of a list of events (R380). -/
def traceMinNs (t : GateTimes) (es : List Event) : Nat := (es.map (Event.minNs t)).sum

end Sys2Proof.Machine
end

