-- ==== Sys2Proof/Machine/Transactions.lean ====
section
/-! DEFINITION. The transaction engine (spec/43_transactions.md): Read-ID, Read-Status, Read-Page, Write-Page and
Erase-Block, as the phase sequences of R200 in the frame of R201. -/

namespace Sys2Proof.Machine

/-- `StatusTxn()`: command 0x70, one data byte (R202). The value is the list of that one byte. -/
def statusTxn (s : State) : Run (List Byte) := (cmdPhase 0x70#8 s).andThen (dinPhase 1)

/-- The result of a program or erase from its status read (R222). -/
def resultOfStatusBytes (bytes : List Byte) : Reply :=
  match bytes with
  | b :: _ => resultOfStatus b
  | [] => (.ok, [])

/-- What is left of an operation when its busy wait ends (R200): nothing for BUSY_WAIT (R179), the page data for
READ_PAGE (R214), the status read for WRITE_PAGE and ERASE_BLOCK (R220, R224). -/
def afterBusy (op : BusyOp) (s : State) : Run Reply :=
  match op with
  | .busyWait => complete (.ok, []) s
  | .readPage => (dinPhase pageSize s).bind fun buf s => complete (.ok, buf) s
  | .writePage => (statusTxn s).bind fun b s => complete (resultOfStatusBytes b) s
  | .eraseBlock => (statusTxn s).bind fun b s => complete (resultOfStatusBytes b) s

/-- READ_ID (R205): no busy wait. -/
def execReadId (s : State) : Host.Outcome State Fault Refusal :=
  operation .readId
    (sequenced fun s => (cmdPhase 0x90#8 s).andThen fun s => (addrPhase addrId s).andThen (dinPhase idLen)) s

/-- READ_STATUS (R210): the byte is returned uninterpreted. -/
def execReadStatus (s : State) : Host.Outcome State Fault Refusal := operation .readStatus (sequenced statusTxn) s

/-- READ_PAGE (R214). -/
def readPageBody (p : Arg24) (s : State) : Run Reply :=
  (requireIdle s).andThen fun s =>
    (cmdPhase 0x00#8 s).andThen fun s =>
      (addrPhase (addrPage p) s).andThen fun s =>
        (cmdPhase 0x30#8 s).andThen fun s => (busyPhase .readPage s).andThen (afterBusy .readPage)

/-- READ_PAGE (R214): every 24-bit page index is accepted. -/
def execReadPage (p : Arg24) (s : State) : Host.Outcome State Fault Refusal :=
  operation (.readPage p) (readPageBody p) s

/-- WRITE_PAGE (R220). -/
def writePageBody (p : Arg24) (buf : List Byte) (s : State) : Run Reply :=
  (requireIdle s).andThen fun s =>
    (cmdPhase 0x80#8 s).andThen fun s =>
      (addrPhase (addrPage p) s).andThen fun s =>
        (doutPhase buf s).andThen fun s =>
          (cmdPhase 0x10#8 s).andThen fun s => (busyPhase .writePage s).andThen (afterBusy .writePage)

/-- WRITE_PAGE (R220). A payload that is not one page is a mis-framed stream, which has no model run (R104, R341). -/
def execWritePage (p : Arg24) (buf : List Byte) (s : State) : Host.Outcome State Fault Refusal :=
  if (Instr.writePage p buf).framed then operation (.writePage p buf) (writePageBody p buf) s
  else .refused .misframedRequest

/-- ERASE_BLOCK (R224). -/
def eraseBlockBody (b : Arg24) (s : State) : Run Reply :=
  (requireIdle s).andThen fun s =>
    (cmdPhase 0x60#8 s).andThen fun s =>
      (addrPhase (addrRow b) s).andThen fun s =>
        (cmdPhase 0xD0#8 s).andThen fun s => (busyPhase .eraseBlock s).andThen (afterBusy .eraseBlock)

/-- ERASE_BLOCK (R224). -/
def execEraseBlock (b : Arg24) (s : State) : Host.Outcome State Fault Refusal :=
  operation (.eraseBlock b) (eraseBlockBody b) s

/-- Go on with an operation whose busy wait is in progress (R179, R180). -/
def resumeBusy (op : BusyOp) (s : State) : Host.Outcome State Fault Refusal :=
  finish ((awaitReady op s).andThen (afterBusy op))

end Sys2Proof.Machine
end

