-- ==== Sys2Proof/Machine/Dispatch.lean ====
section
/-! DEFINITION. The dispatch from an instruction to its meaning, one arm for each constructor of Instr. -/

namespace Sys2Proof.Machine

def exec (i : Instr) (s : State) : Host.Outcome State Fault Refusal :=
  match i with
  | .sessionInit => Sys2Proof.Machine.execSessionInit s
  | .sessionEnd => Sys2Proof.Machine.execSessionEnd s
  | .busDir d => Sys2Proof.Machine.execBusDir d s
  | .busWrite v => Sys2Proof.Machine.execBusWrite v s
  | .busRead => Sys2Proof.Machine.execBusRead s
  | .ctlSet line high => Sys2Proof.Machine.execCtlSet line high s
  | .rbRead => Sys2Proof.Machine.execRbRead s
  | .delayNs x => Sys2Proof.Machine.execDelayNs x s
  | .shortPause => Sys2Proof.Machine.execShortPause s
  | .cmdCycle c => Sys2Proof.Machine.execCmdCycle c s
  | .addrCycle a => Sys2Proof.Machine.execAddrCycle a s
  | .dataOut buf => Sys2Proof.Machine.execDataOut buf s
  | .dataIn x => Sys2Proof.Machine.execDataIn x s
  | .busyWait => Sys2Proof.Machine.execBusyWait s
  | .readId => Sys2Proof.Machine.execReadId s
  | .readPage p => Sys2Proof.Machine.execReadPage p s
  | .writePage p buf => Sys2Proof.Machine.execWritePage p buf s
  | .eraseBlock b => Sys2Proof.Machine.execEraseBlock b s
  | .readStatus => Sys2Proof.Machine.execReadStatus s
  | .nandReadId => Sys2Proof.Machine.execNandReadId s
  | .nandReadSetup => Sys2Proof.Machine.execNandReadSetup s
  | .nandReadConfirm => Sys2Proof.Machine.execNandReadConfirm s
  | .nandProgramSetup => Sys2Proof.Machine.execNandProgramSetup s
  | .nandProgramConfirm => Sys2Proof.Machine.execNandProgramConfirm s
  | .nandEraseSetup => Sys2Proof.Machine.execNandEraseSetup s
  | .nandEraseConfirm => Sys2Proof.Machine.execNandEraseConfirm s
  | .nandReadStatus => Sys2Proof.Machine.execNandReadStatus s

end Sys2Proof.Machine
end

