-- ==== Sys2Proof/Machine/Fetch.lean ====
section
/-! DEFINITION. The fetch from the two ports: the host's operation stream (spec/30_encoding.md R100, R113) and the
command bytes of the chip's bus (R106, R107, R111). Accepting an operation or a command byte is an instant of its own for
the reset input: a reset may come between it and the first event (R360). -/

namespace Sys2Proof.Machine

/-- Whether an operation word names SESSION_INIT (R301). -/
def wordIsSessionInit (w : OpWord) : Bool := opField w == 0x01#8

/-- The answer to a word that is no legal operation, in the order of R301: E_ILLEGAL_OP, then E_NOT_INIT, then
E_BAD_OPERAND. -/
def rejectWord (why : WordReject) (w : OpWord) (s : State) : Host.Outcome State Fault Refusal :=
  match why with
  | .illegalOp => reject .illegalOp s
  | .badOperand =>
    if s.sst = .ready || wordIsSessionInit w then reject .badOperand s else reject .notInit s

/-- The host port (R100, R113): decode the next operation, consume it, and run it or answer its rejection. -/
def hostPortStep (s : State) : Host.Outcome State Fault Refusal :=
  match decode .host s.request with
  | .ok (i, rest) => exec i (State.tick { s with request := rest })
  | .error (.word why w rest) => rejectWord why w (State.tick { s with request := rest })
  | .error .incomplete => .refused .misframedRequest
  | .error (.unnamedCommand _ _) => .refused .misframedRequest

/-- The bus port (R106): the next command byte. A byte the source does not name is sent exactly as a named one
(R111). -/
def busPortStep (s : State) : Host.Outcome State Fault Refusal :=
  match decode .bus s.busCmd with
  | .ok (i, rest) => exec i (State.tick { s with busCmd := rest })
  | .error (.unnamedCommand c rest) => busCommand c (State.tick { s with busCmd := rest })
  | .error (.word _ _ _) => .next s
  | .error .incomplete => .next s

end Sys2Proof.Machine
end

