-- ==== Sys2Proof/Machine/Step.lean ====
section
/-! DEFINITION. One step of the machine: what acts next. -/

namespace Sys2Proof.Machine

/-- What a stopped run can do (R322): nothing but the reset that is announced (R360). -/
def stuckStep (f : Fault) (s : State) : Host.Outcome State Fault Refusal :=
  match s.resetAfter with
  | none => .fault f
  | some _ => .next s.applyReset

/-- One step. Reset first (R331); then a model fault, which only reset leaves (R322); then an operation whose busy wait
is in progress, since no other can begin before its outcome (R75); then a command byte of the bus port; then the host's
next operation; then the host's own move. -/
def step (s : State) : Host.Outcome State Fault Refusal :=
  if s.resetAfter = some 0 then .next s.applyReset
  else
    match s.fault with
    | some f => stuckStep f s
    | none =>
      match s.pending with
      | some op => resumeBusy op { s with pending := none }
      | none =>
        if s.busCmd ≠ [] then busPortStep s
        else if s.request ≠ [] then hostPortStep s
        else driverStep s

/-- The state with the instruction whose bits are `w` put where `step` fetches next, so that the very next step runs
it: at the head of the bus port for a NAND command byte, else at the head of the host's stream. No operation is in
progress, no run is stopped and no reset is due in it, since each would come first. -/
def State.withFetchWord (s : State) (nbits w : Nat) : State :=
  if isNandRow nbits w then
    { s with busCmd := BitVec.ofNat 8 w :: s.busCmd, pending := none, resetAfter := none, fault := none }
  else
    { s with request := tableBytes w ++ s.request, busCmd := [], pending := none, resetAfter := none, fault := none }

end Sys2Proof.Machine
end

