-- ==== Sys2Proof/Safety.lean ====
section
/-! DEFINITION. What the claims call a good state, a safe step and a conforming realisation. -/

namespace Sys2Proof.Machine

/-- No field the block reads is UNDEF while a session is open, and the control lines are driven (R45, R241). -/
def State.defined (s : State) : Prop :=
  s.sst = .ready →
    s.dir ≠ .undef ∧ s.dout ≠ .undef ∧ (∀ l, s.lvl.get l ≠ .undef) ∧ s.oe = true

/-- The pin states that R370 keeps out: both strobes low, both latch enables high, or block and chip driving the
lanes together. -/
def State.noConflict (s : State) : Prop :=
  ¬(s.lvl.weN = .low ∧ s.lvl.reN = .low) ∧ ¬(s.lvl.cle = .high ∧ s.lvl.ale = .high) ∧
    ¬(s.lvl.reN = .low ∧ s.dir = .output)

/-- `S.PH` is IDLE between operations (R181); while an operation waits for the chip it is BUSYWAIT, the session is
open, and the strobes are idle unless the operation is BUSY_WAIT (R173, R182). In a stopped run it is whatever phase
was in progress (R321). -/
def State.phaseMatches (s : State) : Prop :=
  match s.fault, s.pending with
  | some _, _ => True
  | none, none => s.ph = .idle
  | none, some op => s.ph = .busyWait ∧ s.sst = .ready ∧ (op ≠ .busyWait → s.strobesIdle = true)

/-- The invariant of the machine. -/
def State.inv (s : State) : Prop :=
  s.defined ∧ s.noConflict ∧ s.phaseMatches ∧ s.env.chip.arr.wf

/-- An operation can run to its end now: a session is open, the strobes are idle, no operation waits and no reset is
announced. -/
def State.settled (s : State) : Prop :=
  s.sst = .ready ∧ s.strobesIdle = true ∧ s.pending = none ∧ s.resetAfter = none

/-- A step is safe if it does not end in a model fault (R320), nor in a run stopped by one. -/
def safe (o : Host.Outcome State Fault Refusal) : Prop := ∀ f, o ≠ .fault f ∧ ∀ t, o = .next t → t.fault ≠ some f

/-- The operations the host procedures issue (R279). -/
def hostIssues (i : Instr) : Bool :=
  match i with
  | .sessionInit | .readId | .readPage _ | .writePage _ _ | .eraseBlock _ => true
  | .sessionEnd | .busDir _ | .busWrite _ | .busRead | .ctlSet _ _ | .rbRead | .delayNs _ | .shortPause
  | .cmdCycle _ | .addrCycle _ | .dataOut _ | .dataIn _ | .busyWait | .readStatus | .nandReadId | .nandReadSetup
  | .nandReadConfirm | .nandProgramSetup | .nandProgramConfirm | .nandEraseSetup | .nandEraseConfirm
  | .nandReadStatus => false

/-- A write command never waits for a page read, and the buffer of its unit is one page (R266, R274). -/
def Driver.writeReady (d : Driver) : Prop :=
  ∀ a b, d.cmd = .writeFull a b → d.ctl ≠ .awaitFirst ∧ d.ctl ≠ .awaitSecond ∧
    (d.ctl = .awaitCheck ∨ d.ctl = .awaitWrite ∨ d.ctl = .awaitErase → d.buf.length = pageSize)

/-- A state of a run in which only the host procedures issue operations: the strobes are idle while a session is
open, nothing is handed to the bus port, and the request stream holds at most one framed operation that the host
issues (R279). -/
def State.hostOnly (s : State) : Prop :=
  (s.sst = .ready → s.strobesIdle = true) ∧ s.busCmd = [] ∧ s.fault = none ∧
    (s.request = [] ∨ ∃ i, hostIssues i = true ∧ i.framed = true ∧ s.request = encode i) ∧ s.driver.writeReady

/-! ### Realisations of a trace (R153) -/

/-- Whether an event is a change or sample on the pins; a gate is neither (R13). -/
def Event.onPins : Event → Bool
  | .gate _ => false
  | _ => true

/-- Whether timed pin events realise a trace, `waited` being the minimum of the gates since the last of them at time
`last`: the pin events come in trace order, each no earlier than the gates before it allow (R153). DESIGN CHOICE, log
entry 21: times are whole nanoseconds; and a realisation lists every event but the gates, each with a time, where R153
names only `Dir`, `Drive` and `Ctl` changes and samples, and does not say whether `CfgPins`, or an event that makes no edge
on the pins (a `Dir` or `Ctl` to the value already held, a `Drive` of the byte already shown), must appear. -/
def conformsFrom (t : GateTimes) : Nat → Nat → List Event → List (Nat × Event) → Bool
  | _, _, [], timed => timed.isEmpty
  | last, waited, .gate g :: es, timed => conformsFrom t last (waited + g.minNs t) es timed
  | _, _, _ :: _, [] => false
  | last, waited, e :: es, (at_, e') :: timed =>
    decide (e = e') && decide (last + waited ≤ at_) && conformsFrom t at_ 0 es timed

/-- A realisation conforms to a trace (R153). DESIGN CHOICE, log entry 21: time 0 is the trace's start, so the gates
before the first pin event are counted from it, and the gates after the last pin event bind nothing. -/
def conforms (t : GateTimes) (es : List Event) (timed : List (Nat × Event)) : Bool := conformsFrom t 0 0 es timed

end Sys2Proof.Machine
end

