-- ==== Sys2Proof/Certificates/Slice0/Obligations.lean ====
section
/-! DEFINITION. The statements for the provers. The notation of spec/95_test_vectors.md comes first: each cycle's
events are written out here from the spec, not taken from the machine's own lists. -/

namespace Sys2Proof.Spec

open Sys2Proof.Machine

/-! ### Notation -/

/-- `WP(v)`, the 7 events of `WePulse(v)` (R170). -/
def WP (v : Byte) : List Event :=
  [.drive v, .gate .short, .ctl .weN false, .gate .wc, .ctl .weN true, .gate .hold, .gate .short]

/-- `RP(v)`, the 6 events of `RePulse()` returning v (R171). -/
def RP (v : Byte) : List Event :=
  [.ctl .reN false, .gate .wc, .sampBus v, .ctl .reN true, .gate .hold, .gate .short]

/-- `C(c)`, the 12 events of `CmdPhase(c)` (R174). -/
def C (c : Byte) : List Event :=
  [.dir .output, .ctl .cle true, .gate .short] ++ WP c ++ [.ctl .cle false, .gate .short]

/-- `A(a)`, the events of `AddrPhase(a)` for at least one byte (R175). -/
def A (a : List Byte) : List Event :=
  [.dir .output, .ctl .ale true, .gate .short] ++ a.flatMap WP ++ [.ctl .ale false, .gate .short]

/-- `W(buf)`, the events of `DoutPhase(buf)` for at least one byte (R176). -/
def W (buf : List Byte) : List Event := [.dir .output] ++ buf.flatMap WP

/-- `R(bytes)`, the events of `DinPhase(n)` that reads the n ≥ 1 bytes (R177). -/
def R (bytes : List Byte) : List Event := [.dir .input, .gate .short] ++ bytes.flatMap RP

/-- `busy(k)`, the events of `BusyPhase()` whose k-th sample is the first to read 1 (R179). -/
def busy (k : Nat) : List Event :=
  [.gate .settle] ++ List.replicate (k - 1) (.sampRB false) ++ [.sampRB true, .gate .settle]

/-- The 12 events of SESSION_INIT (R240). -/
def initEvents : List Event :=
  [.ctl .ceN true, .ctl .weN true, .ctl .reN true, .ctl .cle false, .ctl .ale false, .ctl .wpN true, .cfgPins,
    .drive 0x00#8, .dir .input, .gate .settle, .ctl .ceN false, .gate .settle]

/-- The five bytes of a page address: two zero column bytes, then R1, R2, R3 (R63). -/
def pageBytes (p : Arg24) : List Byte :=
  [0x00#8, 0x00#8, p.extractLsb' 0 8, p.extractLsb' 8 8, p.extractLsb' 16 8]

/-- The three bytes of a row, least significant first (R64). -/
def rowBytes (r : Nat) : List Byte :=
  [BitVec.ofNat 8 r, BitVec.ofNat 8 (r / 256), BitVec.ofNat 8 (r / 65536)]

/-- A state after an operation that emitted the events, left the lanes and the output latch so, the answers so, and
sent the frame. EVERY OTHER FIELD is as it was; `S.PH` is IDLE. -/
def after (s : State) (dir : Direction) (dout : DataLatch) (events : List Event) (env : Env) (f : Frame) : State :=
  { s with
    ph := .idle, dir := dir, dout := dout, trace := events.reverse ++ s.trace, env := env, frames := s.frames ++ [f] }

/-- Every byte of the array reads as before. -/
def sameArray (s : State) (env : Env) : Prop := ∀ a, env.chip.arr.read a = s.env.chip.arr.read a

/-- The addresses that command byte c, latched now, can store to: with the oracle selected, the page that the address
bytes name for a program confirm, the block for an erase confirm, and none for any other byte (R82). -/
def storedBy (c : Byte) (s : State) (a : Nat) : Prop :=
  s.env.selected s.lvl = true ∧
    ((c = 0x10#8 ∧ s.env.chip.mode = .prog ∧ ∃ c1 c2 r1 r2 r3, s.env.chip.abuf = [c1, c2, r1, r2, r3] ∧
        rowOfBytes r1 r2 r3 * 2112 ≤ a ∧ a < rowOfBytes r1 r2 r3 * 2112 + 2112) ∨
      (c = 0xD0#8 ∧ s.env.chip.mode = .eraseSetup ∧ ∃ r1 r2 r3, s.env.chip.abuf = [r1, r2, r3] ∧
        rowOfBytes r1 r2 r3 / 64 * 64 * 2112 ≤ a ∧ a < (rowOfBytes r1 r2 r3 / 64 * 64 + 64) * 2112))

/-- Every byte of the array that command byte c, latched now, cannot store to reads as before. -/
def sameBut (c : Byte) (s : State) (env : Env) : Prop :=
  ∀ a, ¬storedBy c s a → env.chip.arr.read a = s.env.chip.arr.read a

/-- The chip is external and at least n bus answers are supplied: the bytes read are the first n, in order, and
nothing else of the answers changes (R16; the supply of draws is log entry 2). -/
def suppliedBytes (s : State) (bytes : List Byte) (env : Env) (n : Nat) : Prop :=
  s.env.chip.attached = false → n ≤ s.env.busDraws.length →
    bytes = s.env.busDraws.take n ∧ env = { s.env with busDraws := s.env.busDraws.drop n }

/-- A ready sample comes: the chip does not hold the line, and either the oracle answers, whose busy count is known and
runs out, or a supplied answer reads ready (R38, R83). -/
def readyComes (s : State) : Prop :=
  s.env.heldBusy = false ∧
    ((s.env.chip.attached = true ∧ s.lvl.ceN = .low ∧ s.env.chip.busy ≠ none) ∨ true ∈ s.env.rbDraws)

/-- A ready sample comes once an access to a row was confirmed: the oracle sets its busy count there, but for a row that
it does not have it answers nothing for the line, so that a supplied answer must read ready (R73, R82, R83). -/
def readyComesFor (row : Nat) (s : State) : Prop :=
  s.env.heldBusy = false ∧
    ((s.env.chip.attached = true ∧ s.lvl.ceN = .low ∧ row < s.env.chip.numPages) ∨ true ∈ s.env.rbDraws)

/-- The busy samples that the oracle still reports, where it answers for the ready/busy line: it is attached and selected,
and its count is known (R73, R81, R83). -/
def oracleCount (s : State) : Option Nat :=
  if s.env.chip.attached = true ∧ s.lvl.ceN = .low then s.env.chip.busy else none

/-- The same once an access to a row was confirmed, which sets the count to n for a row that the oracle has (R82). -/
def confirmedCount (row n : Nat) (s : State) : Option Nat :=
  if s.env.chip.attached = true ∧ s.lvl.ceN = .low ∧ row < s.env.chip.numPages then some n else none

/-- k is the position of the first sample that reads ready, counted from 1: after the oracle's busy samples where it
answers for the line (R83), else that of the first supplied ready answer (R16; the supply of draws is log entry 2). -/
def firstReady (s : State) (count : Option Nat) (k : Nat) : Prop := k = count.getD (s.env.rbDraws.idxOf true) + 1

/-- The byte that the oracle drives on the input lanes while RE_N is low (R83): its identity byte, or 0x00 beyond the
fifth; its status; or the page register's byte. In every other case it drives none. -/
def oracleDrives (ch : Chip) (v : Byte) : Prop :=
  (ch.mode = .id ∧ v = if ch.idx < 5 then ch.id.getD ch.idx 0x00#8 else 0x00#8) ∨ (ch.mode = .status ∧ v = ch.stat) ∨
    (ch.mode = .read ∧ ch.col < 2112 ∧ ch.preg[ch.col]? = some v)

/-- The chip is external: k is the position of the first supplied ready answer, counted from 1, and n bus answers and
k ready/busy answers were used (R16, R179; the supply of draws is log entry 2). -/
def suppliedWait (s : State) (k n : Nat) (bytes : List Byte) (env : Env) : Prop :=
  s.env.chip.attached = false → n ≤ s.env.busDraws.length →
    k = s.env.rbDraws.idxOf true + 1 ∧ bytes = s.env.busDraws.take n ∧
      env = { s.env with busDraws := s.env.busDraws.drop n, rbDraws := s.env.rbDraws.drop k }

/-- The result code that a status byte selects (R222). -/
def codeOf (status : Byte) : ResultCode := if status.getLsbD 0 then .statusError else .ok

/-- The next step fetches: no reset is due, no fault stopped the run and no operation waits. -/
def fetches (s : State) : Prop := s.resetAfter ≠ some 0 ∧ s.fault = none ∧ s.pending = none

/-- The hazards of R370 that a control line's new level can raise. -/
def ctlConflicts (l : Line) (b : Bool) (s : State) : Bool :=
  match l, b with
  | .reN, false => decide (s.dir = .output ∨ s.lvl.weN = .low)
  | .weN, false => decide (s.lvl.reN = .low)
  | .cle, true => decide (s.lvl.ale = .high)
  | .ale, true => decide (s.lvl.cle = .high)
  | _, _ => false

/-- The oracle is attached and selected. -/
def oracle (s : State) : Prop := s.env.chip.attached = true ∧ s.lvl.ceN = .low

/-- The log line of a unit that failed for good: a block for an erase, a page otherwise (R269). -/
def badUnitLine (c : BatchCmd) (unit : Nat) : LogLine :=
  match c with
  | .eraseBlocks _ _ => .block unit
  | .readId | .readFull _ _ | .readData _ _ | .writeFull _ _ => .page unit

/-! ### The host -/

/-- The half-open range of a batch command (R272). -/
def rangeOf : BatchCmd → Nat × Nat
  | .readId => (0, 0)
  | .readFull a b | .readData a b | .writeFull a b | .eraseBlocks a b => (a, b)

/-- The bytes of one page in the file: 2048 in data-only mode, else 2112 (R273, R275). -/
def fileUnit : BatchCmd → Nat
  | .readData _ _ => 2048
  | .readId | .readFull _ _ | .writeFull _ _ | .eraseBlocks _ _ => 2112

/-- Where the region of page p begins: byte N·U, with N the page index or, relative, its distance from the batch's
start (R275). -/
def regionStart (d : Driver) (p : Nat) : Nat :=
  (match d.fileBase with | .absolute => p | .relative => p - (rangeOf d.cmd).1) * fileUnit d.cmd

/-- The file holds the bytes from the offset on. -/
def holds (file : List (Option Byte)) (off : Nat) (data : List Byte) : Prop :=
  ∀ k, k < data.length → file[off + k]? = some data[k]?

/-- The second file is the first with the bytes put at the offset, and no other byte changed; what lies between the old
end and the offset is a hole. -/
def putAt (file : List (Option Byte)) (off : Nat) (data : List Byte) (file' : List (Option Byte)) : Prop :=
  file'.length = max file.length (off + data.length) ∧ holds file' off data ∧
    (∀ k, k < file.length → k < off ∨ off + data.length ≤ k → file'[k]? = file[k]?) ∧
    ∀ k, file.length ≤ k → k < off → file'[k]? = some none

/-- The run aborts with a diagnostic and a non-zero exit status, and no operation is issued (R276). -/
def aborts (d : Driver) (why : FatalCause) : DriverMove :=
  .act { d with ctl := .finished false, reports := d.reports ++ [.fatal why] } none

/-- The host after an access to its file that succeeded: one access fewer before one fails (R276, log entry 27). -/
def accessed (d : Driver) : Driver := { d with fileFails := d.fileFails.map (· - 1) }

/-- A host procedure waits for the result of the operation it issued. -/
def waitsForFrame (d : Driver) : Prop := d.ctl ≠ .off ∧ d.ctl ≠ .invoked ∧ ∀ b, d.ctl ≠ .finished b

/-- The host with the time of one more operation measured, a free amount (R278, log entry 19). -/
def measured (d : Driver) : Driver :=
  { d with elapsed := d.elapsed + Config.freeElapsed d.ticks, ticks := d.ticks + 1 }

/-- The state after a move of the host: its operation's bytes come after those on the request stream (R100); a unit index
that no operation word can carry has no run (log entry 16). -/
def moved (s : State) (m : DriverMove) : Host.Outcome State Fault Refusal :=
  match m with
  | .act d none => .next { s with driver := d }
  | .act d (some i) => .next { s with driver := d, request := s.request ++ encode i }
  | .outOfRange => .refused .hostRange

/-- The batch commands that have a file (R272). -/
def usesFile : BatchCmd → Bool
  | .readFull _ _ | .readData _ _ | .writeFull _ _ => true
  | .readId | .eraseBlocks _ _ => false

/-- What the host does when it comes to unit u (R272, R268, R263, R274, R276): past the range the run completes; a unit
of the range begins with its identity check and no failure counted, a write unit with its page's bytes taken from the
file, and where the access to the file fails or the file does not hold them the run aborts. The model's choices: a unit
index that no operation word can carry has no run (log entry 16), a hole is no byte (log entry 18), and the accesses to the
file are counted (log entry 27). -/
def begins (d : Driver) (u : Nat) (m : DriverMove) : Prop :=
  ((rangeOf d.cmd).2 ≤ u →
    m = .act { d with ctl := .finished true, reports := d.reports ++ [.summary d.elapsed] } none) ∧
  (u < (rangeOf d.cmd).2 → 2 ^ 24 ≤ u → m = .outOfRange) ∧
  (u < (rangeOf d.cmd).2 → u < 2 ^ 24 →
    ((∀ a b, d.cmd ≠ .writeFull a b) →
      m = .act { d with ctl := .awaitCheck, unit := u, fails := 0 } (some .readId)) ∧
    ((∃ a b, d.cmd = .writeFull a b) →
      (d.fileFails = some 0 → m = aborts d .fileRead) ∧
      (d.fileFails ≠ some 0 →
        (∀ buf, buf.length = 2112 → holds d.file (regionStart d u) buf →
          m = .act { accessed d with ctl := .awaitCheck, unit := u, fails := 0, buf := buf } (some .readId)) ∧
        ((∀ buf, buf.length = 2112 → ¬holds d.file (regionStart d u) buf) → m = aborts (accessed d) .fileRead))))

/-- The bytes committed for a read unit that failed for good (R270). -/
def committedBytes (d : Driver) (second : List Byte) : List Byte :=
  match d.badPageData with
  | .firstRead => d.buf
  | .secondRead => second
  | .zeroFill => List.replicate 2112 0#8

/-! ### Words -/

/-- The reserved operation codes (R103). -/
def reservedOp (op : Nat) : Bool :=
  op == 0x00 || decide (0x03 ≤ op ∧ op ≤ 0x0F) || decide (0x15 ≤ op ∧ op ≤ 0x17) || decide (0x1A ≤ op ∧ op ≤ 0x1F) ||
    decide (0x25 ≤ op ∧ op ≤ 0x2F) || decide (0x35 ≤ op ∧ op ≤ 0xFF)

/-- The operand checks of R110 on a word `w` with legal OP: reserved bits of the format (R101), LINE 6 and 7, N > 5,
X > PAGE_SIZE, and a block row of 2^24 or more. -/
def operandFails (w : Nat) : Bool :=
  let op := w % 256
  if op == 0x10 then decide (2 ≤ w / 256)
  else if op == 0x11 || op == 0x20 then decide (256 ≤ w / 256)
  else if op == 0x13 then decide (16 ≤ w / 256) || decide (6 ≤ w / 256 % 8)
  else if op == 0x21 then decide (8 ≤ w / 256) || decide (5 < w / 256 % 8)
  else if op == 0x22 || op == 0x23 then decide (2112 < w / 256)
  else if op == 0x33 then decide (2 ^ 24 ≤ w / 256 * 64)
  else if op == 0x18 || op == 0x31 || op == 0x32 then false
  else decide (w / 256 ≠ 0)

/-- The request payload length of a word (R104, R113). -/
def payloadBytes (w : Nat) : Nat :=
  if w % 256 = 0x21 then w / 256 % 8 else if w % 256 = 0x22 then w / 256 else if w % 256 = 0x32 then 2112 else 0

/-! ### The result table of R304 and the payload table of R105 -/

/-- The model faults each operation can raise (R304). -/
def faultsOf : Instr → List Fault
  | .busDir _ => [.busContention]
  | .busWrite _ | .busRead => [.dirMisuse]
  | .ctlSet _ _ => [.busContention, .strobeConflict]
  | .cmdCycle _ | .addrCycle _ | .dataOut _ | .dataIn _ | .readId | .readPage _ | .writePage _ _ | .eraseBlock _
  | .readStatus => [.strobeNotIdle]
  | .sessionInit | .sessionEnd | .rbRead | .delayNs _ | .shortPause | .busyWait | .nandReadId
  | .nandReadSetup | .nandReadConfirm | .nandProgramSetup | .nandProgramConfirm | .nandEraseSetup
  | .nandEraseConfirm | .nandReadStatus => []

/-- The operations that can return STATUS_ERROR (R304). -/
def mayFail : Instr → Bool
  | .writePage _ _ | .eraseBlock _ => true
  | .sessionInit | .sessionEnd | .busDir _ | .busWrite _ | .busRead | .ctlSet _ _ | .rbRead | .delayNs _
  | .shortPause | .cmdCycle _ | .addrCycle _ | .dataOut _ | .dataIn _ | .busyWait | .readId | .readPage _
  | .readStatus | .nandReadId | .nandReadSetup | .nandReadConfirm | .nandProgramSetup | .nandProgramConfirm
  | .nandEraseSetup | .nandEraseConfirm | .nandReadStatus => false

/-- The operations that can hang (R304). -/
def mayHang : Instr → Bool
  | .busyWait | .readPage _ | .writePage _ _ | .eraseBlock _ => true
  | .sessionInit | .sessionEnd | .busDir _ | .busWrite _ | .busRead | .ctlSet _ _ | .rbRead | .delayNs _
  | .shortPause | .cmdCycle _ | .addrCycle _ | .dataOut _ | .dataIn _ | .readId | .readStatus | .nandReadId
  | .nandReadSetup | .nandReadConfirm | .nandProgramSetup | .nandProgramConfirm | .nandEraseSetup
  | .nandEraseConfirm | .nandReadStatus => false

/-- The result payload length of an operation that was not rejected (R105). -/
def resultBytes : Instr → Nat
  | .busRead | .rbRead | .readStatus | .writePage _ _ | .eraseBlock _ => 1
  | .dataIn x => x.toNat
  | .readId => 5
  | .readPage _ => 2112
  | .sessionInit | .sessionEnd | .busDir _ | .busWrite _ | .ctlSet _ _ | .delayNs _ | .shortPause
  | .cmdCycle _ | .addrCycle _ | .dataOut _ | .busyWait | .nandReadId | .nandReadSetup | .nandReadConfirm
  | .nandProgramSetup | .nandProgramConfirm | .nandEraseSetup | .nandEraseConfirm | .nandReadStatus => 0

/-- A composite operation whose operands are legal: the entry condition of R173 applies to it. -/
def composite : Instr → Bool
  | .cmdCycle _ | .readId | .readStatus | .readPage _ => true
  | .addrCycle a => decide (a.length ≤ 5)
  | .dataOut buf => decide (buf.length ≤ 2112)
  | .dataIn x => decide (x.toNat ≤ 2112)
  | .writePage _ buf => decide (buf.length = 2112)
  | .eraseBlock b => decide (b.toNat * 64 < 2 ^ 24)
  | .sessionInit | .sessionEnd | .busDir _ | .busWrite _ | .busRead | .ctlSet _ _ | .rbRead | .delayNs _
  | .shortPause | .busyWait | .nandReadId | .nandReadSetup | .nandReadConfirm | .nandProgramSetup
  | .nandProgramConfirm | .nandEraseSetup | .nandEraseConfirm | .nandReadStatus => false

/-- The command byte of a NAND row (R107). -/
def nandByte : Instr → Option Byte
  | .nandReadId => some 0x90#8
  | .nandReadSetup => some 0x00#8
  | .nandReadConfirm => some 0x30#8
  | .nandProgramSetup => some 0x80#8
  | .nandProgramConfirm => some 0x10#8
  | .nandEraseSetup => some 0x60#8
  | .nandEraseConfirm => some 0xD0#8
  | .nandReadStatus => some 0x70#8
  | .sessionInit | .sessionEnd | .busDir _ | .busWrite _ | .busRead | .ctlSet _ _ | .rbRead | .delayNs _
  | .shortPause | .cmdCycle _ | .addrCycle _ | .dataOut _ | .dataIn _ | .busyWait | .readId | .readPage _
  | .writePage _ _ | .eraseBlock _ | .readStatus => none

/-- The instructions that can reach the array of an attached oracle: a confirm command, on its own, in a cycle or in
a transaction, or a raw rising WE_N edge (R82). -/
def mayStore : Instr → Bool
  | .cmdCycle c => decide (c = 0x10#8 ∨ c = 0xD0#8)
  | .ctlSet l high => decide (l = .weN) && high
  | .writePage _ _ | .eraseBlock _ | .nandProgramConfirm | .nandEraseConfirm => true
  | .sessionInit | .sessionEnd | .busDir _ | .busWrite _ | .busRead | .rbRead | .delayNs _ | .shortPause
  | .addrCycle _ | .dataOut _ | .dataIn _ | .busyWait | .readId | .readPage _ | .readStatus | .nandReadId
  | .nandReadSetup | .nandReadConfirm | .nandProgramSetup | .nandEraseSetup | .nandReadStatus => false

end Sys2Proof.Spec

open Sys2Proof Sys2Proof.Machine Sys2Proof.Spec

/-! ### Decoding and encoding -/

/-- For every well-formed instruction, with every operand the encoding admits, decoding its encoding at its port gives
it back and leaves the bytes that follow (R101, R103, R104, R107, R113). -/
def Obligations.DecodeOfEncodeIsIdentity : Prop :=
  ∀ (i : Instr) (rest : List Byte), i.wellFormed = true → decode i.port (encode i ++ rest) = .ok (i, rest)

/-- Words written out in spec/95_test_vectors.md and the operation rules decode to the instruction they stand for. -/
def Obligations.SpecWordsDecode : Prop :=
  decode .host [0x31#8, 0x45#8, 0x23#8, 0x01#8] = .ok (.readPage 0x012345#24, []) ∧
    decode .host [0x21#8, 0x03#8, 0x00#8, 0x00#8, 0x80#8, 0x00#8, 0x00#8] =
      .ok (.addrCycle [0x80#8, 0x00#8, 0x00#8], []) ∧
    decode .host [0x13#8, 0x0B#8, 0x00#8, 0x00#8] = .ok (.ctlSet .cle true, []) ∧
    decode .host [0x11#8, 0xA5#8, 0x00#8, 0x00#8] = .ok (.busWrite 0xA5#8, []) ∧
    decode .host [0x18#8, 0x64#8, 0x00#8, 0x00#8] = .ok (.delayNs 100#24, []) ∧
    decode .host [0x02#8, 0x00#8, 0x00#8, 0x00#8] = .ok (.sessionEnd, []) ∧
    decode .bus [0xD0#8] = .ok (.nandEraseConfirm, [])

/-- Every operation word with the payload its own bits ask for is answered in the order of R301: E_ILLEGAL_OP for a
reserved OP in either session state; E_NOT_INIT while UNINIT unless OP is SESSION_INIT; E_BAD_OPERAND if a check of
R110 fails; else one well-formed instruction runs. A rejection consumes the word and its payload, sends a frame with
an empty payload, emits no event and changes nothing else (R302). No reset is announced. -/
def Obligations.EveryWordIsCheckedInOrder : Prop :=
  ∀ (s : State) (w : OpWord) (payload rest : List Byte),
    fetches s → s.resetAfter = none → s.busCmd = [] → payload.length = payloadBytes w.toNat →
      s.request = bytesOfWord w ++ payload ++ rest →
      (if reservedOp (w.toNat % 256) then
        step s = .next { s with request := rest, frames := s.frames ++ [⟨.illegalOp, []⟩] }
      else if s.sst = .uninit ∧ w.toNat % 256 ≠ 0x01 then
        step s = .next { s with request := rest, frames := s.frames ++ [⟨.notInit, []⟩] }
      else if operandFails w.toNat then
        step s = .next { s with request := rest, frames := s.frames ++ [⟨.badOperand, []⟩] }
      else
        ∃ i, i.wellFormed = true ∧ i.port = .host ∧ encode i = bytesOfWord w ++ payload ∧
          step s = exec i { s with request := rest })

/-- Where the bytes at a port decode to an instruction, the step runs exactly it, on the state with those bytes
consumed and an announced reset one instant nearer. The bus port comes before the host port. The two ports and their
order are the model's choice (log entry 1), and so is the reset input's form (log entry 4). -/
def Obligations.StepRunsDecodedInstruction : Prop :=
  ∀ (s : State) (i : Instr) (rest : List Byte), fetches s →
    (decode .bus s.busCmd = .ok (i, rest) →
      step s = exec i { s with busCmd := rest, resetAfter := s.resetAfter.map (· - 1) }) ∧
      (s.busCmd = [] → decode .host s.request = .ok (i, rest) →
        step s = exec i { s with request := rest, resetAfter := s.resetAfter.map (· - 1) })

/-- A command byte that the source does not name is sent on the bus exactly as a named one (R111): at the bus port it
gives the command cycle's 12 events and leaves the strobes idle. The bus port is the model's choice (log entry 1). -/
def Obligations.UnnamedCommandByteIsSent : Prop :=
  ∀ (s : State) (c : Byte) (rest : List Byte),
    s.settled → s.fault = none → s.busCmd = c :: rest → c ∉ [0x90#8, 0x00#8, 0x30#8, 0x80#8, 0x10#8, 0x60#8, 0xD0#8, 0x70#8] →
      ∃ env', sameArray s env' ∧ step s =
        .next { s with
          busCmd := rest, ph := .idle, dir := .output, dout := .byte c, trace := (C c).reverse ++ s.trace, env := env' }

/-! ### Rejections at exec -/

/-- While UNINIT every operation except SESSION_INIT answers E_NOT_INIT and changes nothing else (R303). No reset is
announced. -/
def Obligations.UninitRejectsEveryOperation : Prop :=
  ∀ (i : Instr) (s : State), i.port = .host → i.framed = true → i ≠ .sessionInit → s.sst = .uninit →
    s.resetAfter = none → exec i s = .next { s with frames := s.frames ++ [⟨.notInit, []⟩] }

/-- Which results each host operation can have, by the table of R304, from any state with no reset announced: a
fault only of its column; otherwise one frame with OK, with E_NOT_INIT but for SESSION_INIT, with E_BAD_OPERAND only
for an operand that a check refuses, or for WRITE_PAGE and ERASE_BLOCK STATUS_ERROR; or, for an operation with a busy
wait, no frame yet and the wait in progress. -/
def Obligations.ResultsOfEachOperation : Prop :=
  ∀ (i : Instr) (s : State), i.port = .host → i.framed = true → s.resetAfter = none →
    match exec i s with
    | .fault f => f ∈ faultsOf i
    | .refused _ => False
    | .next t =>
      (∃ rc pl, t.frames = s.frames ++ [⟨rc, pl⟩] ∧ t.pending = s.pending ∧
        (rc = .ok ∨ (rc = .notInit ∧ i ≠ .sessionInit) ∨ (rc = .badOperand ∧ i.operandsOk = false) ∨
          (rc = .statusError ∧ mayFail i = true))) ∨
      (t.frames = s.frames ∧ t.pending ≠ none ∧ t.ph = .busyWait ∧ mayHang i = true)

/-- The result payload is empty for a rejection and otherwise has the length of the table of R105. -/
def Obligations.ResultPayloadLengths : Prop :=
  ∀ (i : Instr) (s t : State) (f : Frame), i.port = .host → exec i s = .next t → t.frames = s.frames ++ [f] →
    f.payload.length = if f.rc = .notInit ∨ f.rc = .badOperand ∨ f.rc = .illegalOp then 0 else resultBytes i

/-! ### Session -/

/-- SESSION_INIT, in either session state, emits its 12 events in order and leaves the session open with the idle and
session levels, the lanes inputs, the latch 0x00 and the outputs enabled (R240, R241). -/
def Obligations.SessionInitOpensSession : Prop :=
  ∀ s : State, s.resetAfter = none →
    exec .sessionInit s =
      .next { s with
        sst := .ready, ph := .idle, dir := .input, dout := .byte 0x00#8, oe := true
        lvl := { ceN := .low, weN := .high, reN := .high, cle := .low, ale := .low, wpN := .high }
        trace := initEvents.reverse ++ s.trace
        frames := s.frames ++ [⟨.ok, []⟩] }

/-- SESSION_END while READY closes the session, emits no event and leaves every pin field as it is (R242). -/
def Obligations.SessionEndClosesSession : Prop :=
  ∀ s : State, s.sst = .ready → s.resetAfter = none →
    exec .sessionEnd s = .next { s with sst := .uninit, frames := s.frames ++ [⟨.ok, []⟩] }

/-- SESSION_INIT is the only way into a session (R243), and only SESSION_END and reset end one: for every instruction,
and for every step of the machine, a resumed wait, an unnamed command byte and the host's move among them. The model's
choices: that the bus port is empty where a step runs either operation, which is the order of the two ports (log entry 1), and
the form of the reset input (log entry 4). -/
def Obligations.SessionChangesOnlyBySessionOperations : Prop :=
  (∀ (i : Instr) (s t : State), exec i s = .next t →
    (s.sst = .uninit → t.sst = .ready → i = .sessionInit) ∧
      (s.sst = .ready → t.sst = .uninit → i = .sessionEnd ∨ s.resetAfter ≠ none)) ∧
  (∀ s t : State, step s = .next t →
    (s.sst = .uninit → t.sst = .ready →
      s.pending = none ∧ s.busCmd = [] ∧ ∃ rest, decode .host s.request = .ok (.sessionInit, rest)) ∧
    (s.sst = .ready → t.sst = .uninit →
      (s.pending = none ∧ s.busCmd = [] ∧ ∃ rest, decode .host s.request = .ok (.sessionEnd, rest)) ∨
        s.resetAfter ≠ none))

/-! ### Bus primitive -/

/-- BUS_DIR sets the direction of all 8 lanes and emits one event, unless it would drive the lanes while RE_N is 0
(R130). -/
def Obligations.BusDirSetsDirection : Prop :=
  ∀ (d : LaneDir) (s : State), s.sst = .ready → s.resetAfter = none → ¬(d = .output ∧ s.lvl.reN = .low) →
    exec (.busDir d) s =
      .next { s with
        dir := (match d with | .input => .input | .output => .output)
        trace := .dir d :: s.trace, frames := s.frames ++ [⟨.ok, []⟩] }

/-- BUS_WRITE with the lanes outputs sets the output latch and emits one event; the chip latches nothing (R131). -/
def Obligations.BusWriteDrivesByte : Prop :=
  ∀ (v : Byte) (s : State), s.sst = .ready → s.resetAfter = none → s.dir = .output →
    exec (.busWrite v) s =
      .next { s with dout := .byte v, trace := .drive v :: s.trace, frames := s.frames ++ [⟨.ok, []⟩] }

/-- BUS_READ with the lanes inputs samples them once and answers the byte; it has no effect on the chip (R132, R72). While
the oracle is selected and RE_N is low, the byte is the one that the oracle drives (R83); where it drives none, it is the
next supplied answer (R16; the supply of draws is log entry 2, a byte of an absent row log entry 8). -/
def Obligations.BusReadAnswersSample : Prop :=
  ∀ s : State, s.sst = .ready → s.resetAfter = none → s.dir = .input →
    ∃ v env', env'.chip = s.env.chip ∧
      (oracle s → s.lvl.reN = .low → ∀ w, oracleDrives s.env.chip w → v = w ∧ env' = s.env) ∧
      (¬(oracle s ∧ s.lvl.reN = .low ∧ ∃ w, oracleDrives s.env.chip w) →
        ∀ w rest, s.env.busDraws = w :: rest → v = w ∧ env' = { s.env with busDraws := rest }) ∧
      exec .busRead s =
        .next { s with trace := .sampBus v :: s.trace, env := env', frames := s.frames ++ [⟨.ok, [v]⟩] }

/-- CTL_SET drives one line to a level, if no hazard of R370 forbids it, and emits one event (R133). The answers
are as before unless the event is a rising strobe edge, and the array is, outside what a command latched by a rising
WE_N edge stores to. -/
def Obligations.CtlSetDrivesLine : Prop :=
  ∀ (l : Line) (b : Bool) (s : State), s.sst = .ready → s.resetAfter = none → ctlConflicts l b s = false →
    ∃ env', (b = false ∨ (l ≠ .weN ∧ l ≠ .reN) ∨ s.lvl.get l ≠ .low ∨ s.env.chip.attached = false → env' = s.env) ∧
      (∀ a, ¬(l = .weN ∧ b = true ∧ s.lvl.cle = .high ∧ ∃ c, storedBy c s a) →
        env'.chip.arr.read a = s.env.chip.arr.read a) ∧
      exec (.ctlSet l b) s =
        .next { s with
          lvl := s.lvl.set l (if b then .high else .low)
          trace := .ctl l b :: s.trace, env := env', frames := s.frames ++ [⟨.ok, []⟩] }

/-- RB_READ samples the ready/busy line once and answers 0x00 for busy, 0x01 for ready (R134). Where the oracle answers for
the line, a count above 0 reads busy and loses one, and a count of 0 reads ready (R83); where it does not, the level is the
next supplied answer (R16; the supply of draws is log entry 2, an unknown count log entry 8). A chip that holds the line for
good reads busy (R323; its input is log entry 3). -/
def Obligations.RbReadAnswersSample : Prop :=
  ∀ s : State, s.sst = .ready → s.resetAfter = none →
    ∃ r env', sameArray s env' ∧
      (s.env.heldBusy = true → r = false ∧ env' = s.env) ∧
      (s.env.heldBusy = false →
        (∀ n, oracleCount s = some (n + 1) →
          r = false ∧ env' = { s.env with chip := { s.env.chip with busy := some n } }) ∧
        (oracleCount s = some 0 → r = true ∧ env' = s.env) ∧
        (oracleCount s = none → ∀ r' rest, s.env.rbDraws = r' :: rest →
          r = r' ∧ env' = { s.env with rbDraws := rest })) ∧
      exec .rbRead s =
        .next { s with
          trace := .sampRB r :: s.trace, env := env'
          frames := s.frames ++ [⟨.ok, [if r then 0x01#8 else 0x00#8]⟩] }

/-- The misuses of the raw primitives, each a model fault before any event (R130 to R133, R320): a write with the
lanes not outputs, a read with the lanes not inputs, driving the lanes against a low RE_N in either order, both strobes
low, both latch enables high. Bus contention is named before a strobe conflict. -/
def Obligations.RawPrimitiveMisuseFaults : Prop :=
  ∀ s : State, s.sst = .ready → s.resetAfter = none →
    (∀ v, s.dir ≠ .output → exec (.busWrite v) s = .fault .dirMisuse) ∧
    (s.dir ≠ .input → exec .busRead s = .fault .dirMisuse) ∧
    (s.lvl.reN = .low → exec (.busDir .output) s = .fault .busContention) ∧
    (s.dir = .output → exec (.ctlSet .reN false) s = .fault .busContention) ∧
    (s.dir ≠ .output → s.lvl.weN = .low → exec (.ctlSet .reN false) s = .fault .strobeConflict) ∧
    (s.lvl.reN = .low → exec (.ctlSet .weN false) s = .fault .strobeConflict) ∧
    (s.lvl.ale = .high → exec (.ctlSet .cle true) s = .fault .strobeConflict) ∧
    (s.lvl.cle = .high → exec (.ctlSet .ale true) s = .fault .strobeConflict)

/-- The hazard check of R370 on every event, in its order: the first condition that holds stops the run before the
event with its fault and the state untouched; every other event is emitted, at the head of the trace. -/
def Obligations.HazardCheckStopsEvent : Prop :=
  ∀ (e : Event) (s : State), s.resetAfter = none →
    if e = .dir .output ∧ s.lvl.reN = .low then emit e s = .stop (.fault .busContention) s
    else if e = .ctl .reN false ∧ s.dir = .output then emit e s = .stop (.fault .busContention) s
    else if e = .ctl .weN false ∧ s.lvl.reN = .low then emit e s = .stop (.fault .strobeConflict) s
    else if e = .ctl .reN false ∧ s.lvl.weN = .low then emit e s = .stop (.fault .strobeConflict) s
    else if e = .ctl .cle true ∧ s.lvl.ale = .high then emit e s = .stop (.fault .strobeConflict) s
    else if e = .ctl .ale true ∧ s.lvl.cle = .high then emit e s = .stop (.fault .strobeConflict) s
    else ∃ t, emit e s = .ok () t ∧ t.trace = e :: s.trace

/-! ### Timing -/

/-- DELAY_NS emits `Gate(NS(X))` for every X, SHORT_PAUSE emits `Gate(SHORT)`; nothing else changes (R156, R157). -/
def Obligations.DelayAndPauseEmitGates : Prop :=
  ∀ s : State, s.sst = .ready → s.resetAfter = none →
    (∀ x : Arg24, exec (.delayNs x) s =
      .next { s with trace := .gate (.ns x.toNat) :: s.trace, frames := s.frames ++ [⟨.ok, []⟩] }) ∧
    exec .shortPause s = .next { s with trace := .gate .short :: s.trace, frames := s.frames ++ [⟨.ok, []⟩] }

/-- The counter cycles of a gate of n nanoseconds are `ceil(n · CAL)`: the least number of cycles that is at least
n · CAL (R151). -/
def Obligations.GateCyclesAreCeiling : Prop :=
  ∀ (cal : Rat) (n c : Nat), 0 ≤ cal → (gateCycles cal n ≤ c ↔ (n : Rat) * cal ≤ (c : Rat))

/-- The minimum durations of the table of R380, with the nominal gate times, of the events that each operation adds:
SESSION_INIT 200, CMD_CYCLE 30, ADDR_CYCLE 30·N, DATA_OUT 30·n, DATA_IN 30·n, READ_ID 210, READ_STATUS 60, and for the
operations that ran through their busy wait BUSY_WAIT 200, READ_PAGE 63770, WRITE_PAGE 63830, ERASE_BLOCK 410. -/
def Obligations.MinimumDurations : Prop :=
  ∀ (i : Instr) (s t : State) (es : List Event), s.resetAfter = none → s.sst = .ready ∨ i = .sessionInit →
    i.wellFormed = true → exec i s = .next t → t.trace = es.reverse ++ s.trace → t.frames ≠ s.frames →
    (i = .sessionInit → traceMinNs {} es = 200) ∧
    (∀ c, i = .cmdCycle c → traceMinNs {} es = 30) ∧
    (∀ a, i = .addrCycle a → traceMinNs {} es = 30 * a.length) ∧
    (∀ b, i = .dataOut b → traceMinNs {} es = 30 * b.length) ∧
    (∀ x, i = .dataIn x → traceMinNs {} es = 30 * x.toNat) ∧
    (i = .busyWait → traceMinNs {} es = 200) ∧
    (i = .readId → traceMinNs {} es = 210) ∧
    (i = .readStatus → traceMinNs {} es = 60) ∧
    (∀ p, i = .readPage p → traceMinNs {} es = 63770) ∧
    (∀ p b, i = .writePage p b → traceMinNs {} es = 63830) ∧
    (∀ b, i = .eraseBlock b → traceMinNs {} es = 410)

/-! ### Sequencer -/

/-- CMD_CYCLE from idle strobes emits the 12 events of the command cycle for any byte and leaves the strobes idle
(R174). The array is as before outside what a program or erase confirm stores to; an external chip's answers are
untouched. -/
def Obligations.CmdCycleSendsCommand : Prop :=
  ∀ (c : Byte) (s : State), s.settled →
    ∃ env', sameBut c s env' ∧ (s.env.chip.attached = false → env' = s.env) ∧
      exec (.cmdCycle c) s = .next (after s .output (.byte c) (C c) env' ⟨.ok, []⟩)

/-- ADDR_CYCLE from idle strobes (R175): with no byte no event and no change but the result; with 1 to 5 bytes ALE is
raised once, every byte is pulsed in order, and the latch keeps the last one. -/
def Obligations.AddrCycleSendsAddress : Prop :=
  ∀ (a : List Byte) (s : State), s.settled → a.length ≤ 5 →
    (a = [] → exec (.addrCycle a) s = .next { s with ph := .idle, frames := s.frames ++ [⟨.ok, []⟩] }) ∧
    (∀ h : a ≠ [], ∃ env', sameArray s env' ∧ (s.env.chip.attached = false → env' = s.env) ∧
      exec (.addrCycle a) s = .next (after s .output (.byte (a.getLast h)) (A a) env' ⟨.ok, []⟩))

/-- DATA_OUT from idle strobes (R176): with no byte no event and no change but the result; with 1 to PAGE_SIZE bytes
each is pulsed in order, and the latch keeps the last one. -/
def Obligations.DataOutWritesBytes : Prop :=
  ∀ (buf : List Byte) (s : State), s.settled → buf.length ≤ 2112 →
    (buf = [] → exec (.dataOut buf) s = .next { s with ph := .idle, frames := s.frames ++ [⟨.ok, []⟩] }) ∧
    (∀ h : buf ≠ [], ∃ env', sameArray s env' ∧ (s.env.chip.attached = false → env' = s.env) ∧
      exec (.dataOut buf) s = .next (after s .output (.byte (buf.getLast h)) (W buf) env' ⟨.ok, []⟩))

/-- DATA_IN from idle strobes (R177): n = 0 emits nothing and answers no byte; for n from 1 to PAGE_SIZE the answer's
byte i is the i-th sample, and the lanes stay inputs. -/
def Obligations.DataInReadsBytes : Prop :=
  ∀ (x : Arg24) (s : State), s.settled → x.toNat ≤ 2112 →
    (x = 0#24 → exec (.dataIn x) s = .next { s with ph := .idle, frames := s.frames ++ [⟨.ok, []⟩] }) ∧
    (x ≠ 0#24 → ∃ bytes env', bytes.length = x.toNat ∧ sameArray s env' ∧ suppliedBytes s bytes env' x.toNat ∧
      exec (.dataIn x) s = .next (after s .input s.dout (R bytes) env' ⟨.ok, bytes⟩))

/-- BUSY_WAIT, in any strobe state, polls until the k-th sample, the first that reads ready, between its two settle
gates, and touches no line (R179). Where the oracle answers for the line, k is one more than its busy count, which is 0
afterwards (R83). -/
def Obligations.BusyWaitEndsAtReady : Prop :=
  ∀ s : State, s.sst = .ready → s.resetAfter = none → readyComes s →
    ∃ k env', 1 ≤ k ∧ firstReady s (oracleCount s) k ∧ sameArray s env' ∧ suppliedWait s k 0 [] env' ∧
      (oracleCount s ≠ none → env' = { s.env with chip := { s.env.chip with busy := some 0 } }) ∧
      exec .busyWait s = .next (after s s.dir s.dout (busy k) env' ⟨.ok, []⟩)

/-- Every composite operation with legal operands faults with StrobeNotIdle when the strobes are not idle at entry
(R173). That a command byte of the bus port does so too is the model's choice (log entry 1). Where a reset is announced
but not due, the run is stopped by the fault with every other field as it was, until that reset (R322); the form of that
is the model's choice (log entry 13). -/
def Obligations.StrobesNotIdleFaults : Prop :=
  ∀ (i : Instr) (s : State), composite i = true ∨ nandByte i ≠ none → s.sst = .ready → s.strobesIdle = false →
    (s.resetAfter = none → exec i s = .fault .strobeNotIdle) ∧
    (∀ n, s.resetAfter = some (n + 1) → exec i s = .next { s with fault := some .strobeNotIdle })

/-! ### Transactions -/

/-- READ_ID (R205): command 0x90, address 0x00, five bytes read and answered as sampled, no busy wait. -/
def Obligations.ReadIdReadsFiveBytes : Prop :=
  ∀ s : State, s.settled →
    ∃ bytes env', bytes.length = 5 ∧ sameArray s env' ∧ suppliedBytes s bytes env' 5 ∧
      exec .readId s =
        .next (after s .input (.byte 0x00#8) (C 0x90#8 ++ A [0x00#8] ++ R bytes) env' ⟨.ok, bytes⟩)

/-- READ_STATUS (R210): command 0x70, one byte read and answered as OK whatever it is; from a selected oracle it is its
status (R82, R83). -/
def Obligations.ReadStatusReturnsByte : Prop :=
  ∀ s : State, s.settled →
    ∃ b env', sameArray s env' ∧ suppliedBytes s [b] env' 1 ∧ (oracle s → b = s.env.chip.stat) ∧
      exec .readStatus s = .next (after s .input (.byte 0x70#8) (C 0x70#8 ++ R [b]) env' ⟨.ok, [b]⟩)

/-- READ_PAGE (R214) of any 24-bit page, also one that the chip does not have, when a ready sample comes: command 0x00,
the five address bytes, command 0x30, the busy wait, then 2112 bytes read and answered. With the oracle selected and a row
that it has, the wait takes K_READ busy samples and the bytes are the page's (R82, R83); for a row that it does not have, the
samples are the supplied answers (log entry 8). -/
def Obligations.ReadPageReadsWholePage : Prop :=
  ∀ (p : Arg24) (s : State), s.settled → readyComesFor p.toNat s →
    ∃ k bytes env', 1 ≤ k ∧ bytes.length = 2112 ∧ sameArray s env' ∧ suppliedWait s k 2112 bytes env' ∧
      firstReady s (confirmedCount p.toNat s.env.chip.kRead s) k ∧
      (oracle s → p.toNat < s.env.chip.numPages →
        ∀ c, c < 2112 → bytes[c]? = some (s.env.chip.arr.read (p.toNat * 2112 + c))) ∧
      exec (.readPage p) s =
        .next (after s .input (.byte 0x30#8)
          (C 0x00#8 ++ A (pageBytes p) ++ C 0x30#8 ++ busy k ++ R bytes) env' ⟨.ok, bytes⟩)

/-- WRITE_PAGE (R220, R222) of any 24-bit page with a page of payload when a ready sample comes: command 0x80, address,
2112 data cycles, command 0x10, the busy wait, then a status read that selects the result code. With the oracle selected and
a row that it has, the wait takes K_PROG busy samples (R82, R83); for a row that it does not have, the samples are the supplied
answers (log entry 8). The array outside the page's 2112 bytes is as before. -/
def Obligations.WritePageWritesThenReadsStatus : Prop :=
  ∀ (p : Arg24) (buf : List Byte) (s : State), s.settled → readyComesFor p.toNat s → buf.length = 2112 →
    ∃ k b env', 1 ≤ k ∧ suppliedWait s k 1 [b] env' ∧
      firstReady s (confirmedCount p.toNat s.env.chip.kProg s) k ∧
      (∀ a, a < p.toNat * 2112 ∨ p.toNat * 2112 + 2112 ≤ a → env'.chip.arr.read a = s.env.chip.arr.read a) ∧
      exec (.writePage p buf) s =
        .next (after s .input (.byte 0x70#8)
          (C 0x80#8 ++ A (pageBytes p) ++ W buf ++ C 0x10#8 ++ busy k ++ C 0x70#8 ++ R [b]) env' ⟨codeOf b, [b]⟩)

/-- ERASE_BLOCK (R224, R222) of any legal block when a ready sample comes: command 0x60, the three bytes of row b·64,
command 0xD0, the busy wait, then a status read that selects the result code. With the oracle selected and a row that it has,
the wait takes K_ERASE busy samples (R82, R83); for a row that it does not have, the samples are the supplied answers (log
entry 8). The array outside the block's 64 pages is as before. -/
def Obligations.EraseBlockErasesThenReadsStatus : Prop :=
  ∀ (b : Arg24) (s : State), s.settled → readyComesFor (b.toNat * 64) s → b.toNat * 64 < 2 ^ 24 →
    ∃ k st env', 1 ≤ k ∧ suppliedWait s k 1 [st] env' ∧
      firstReady s (confirmedCount (b.toNat * 64) s.env.chip.kErase s) k ∧
      (∀ a, a < b.toNat * 64 * 2112 ∨ (b.toNat * 64 + 64) * 2112 ≤ a →
        env'.chip.arr.read a = s.env.chip.arr.read a) ∧
      exec (.eraseBlock b) s =
        .next (after s .input (.byte 0x70#8)
          (C 0x60#8 ++ A (rowBytes (b.toNat * 64)) ++ C 0xD0#8 ++ busy k ++ C 0x70#8 ++ R [st]) env'
          ⟨codeOf st, [st]⟩)

/-- The event counts and strobe pulse counts of the table of R230, for each transaction that ran to its result; k is
the number of ready/busy samples among its events. -/
def Obligations.TransactionEventCounts : Prop :=
  ∀ (i : Instr) (s t : State) (es : List Event), s.resetAfter = none → s.sst = .ready → i.wellFormed = true →
    exec i s = .next t → t.trace = es.reverse ++ s.trace → t.frames ≠ s.frames →
    let k := es.count (.sampRB false) + es.count (.sampRB true)
    let we := es.count (.ctl .weN false)
    let re := es.count (.ctl .reN false)
    (i = .readId → es.length = 56 ∧ we = 2 ∧ re = 5) ∧
    (i = .readStatus → es.length = 20 ∧ we = 1 ∧ re = 1) ∧
    (∀ p, i = .readPage p → 1 ≤ k ∧ es.length = 12740 + k ∧ we = 7 ∧ re = 2112) ∧
    (∀ p b, i = .writePage p b → 1 ≤ k ∧ es.length = 14871 + k ∧ we = 2120 ∧ re = 1) ∧
    (∀ b, i = .eraseBlock b → 1 ≤ k ∧ es.length = 72 + k ∧ we = 6 ∧ re = 1)

/-! ### Waiting and reset -/

/-- While the chip holds the line busy, each operation with a busy wait emits its events up to the first sample and
waits: no frame, the phase is BUSYWAIT (R180, R323). That a wait spans several steps is the model's choice (log
entry 3). -/
def Obligations.OperationsWaitWhileBusy : Prop :=
  ∀ s : State, s.settled → s.env.heldBusy = true →
    (exec .busyWait s = .next { s with
      ph := .busyWait, pending := some .busyWait
      trace := [Event.gate .settle, .sampRB false].reverse ++ s.trace }) ∧
    (∀ p, ∃ env', sameArray s env' ∧ exec (.readPage p) s = .next { s with
      ph := .busyWait, pending := some .readPage, dir := .output, dout := .byte 0x30#8, env := env'
      trace := (C 0x00#8 ++ A (pageBytes p) ++ C 0x30#8 ++ [Event.gate .settle, .sampRB false]).reverse ++ s.trace }) ∧
    (∀ p buf, buf.length = 2112 → ∃ env',
      (∀ a, a < p.toNat * 2112 ∨ p.toNat * 2112 + 2112 ≤ a → env'.chip.arr.read a = s.env.chip.arr.read a) ∧
      exec (.writePage p buf) s = .next { s with
        ph := .busyWait, pending := some .writePage, dir := .output, dout := .byte 0x10#8, env := env'
        trace := (C 0x80#8 ++ A (pageBytes p) ++ W buf ++ C 0x10#8 ++
          [Event.gate .settle, .sampRB false]).reverse ++ s.trace }) ∧
    (∀ b : Arg24, b.toNat * 64 < 2 ^ 24 → ∃ env',
      (∀ a, a < b.toNat * 64 * 2112 ∨ (b.toNat * 64 + 64) * 2112 ≤ a →
        env'.chip.arr.read a = s.env.chip.arr.read a) ∧
      exec (.eraseBlock b) s = .next { s with
        ph := .busyWait, pending := some .eraseBlock, dir := .output, dout := .byte 0xD0#8, env := env'
        trace := (C 0x60#8 ++ A (rowBytes (b.toNat * 64)) ++ C 0xD0#8 ++
          [Event.gate .settle, .sampRB false]).reverse ++ s.trace })

/-- A busy wait has no timeout (R180): while the chip holds the line, n steps of the machine are n samples that read
busy and nothing else, for every n; no request is taken and no result sent. One sample a step is the model's choice
(log entry 3). -/
def Obligations.BusyWaitHasNoTimeout : Prop :=
  ∀ (s : State) (op : BusyOp) (n : Nat), s.pending = some op → s.fault = none → s.resetAfter = none →
    s.env.heldBusy = true →
    Sys2Proof.core.run n s = .next { s with trace := List.replicate n (.sampRB false) ++ s.trace }

/-- A waiting operation completes once a ready sample comes (R179): READ_PAGE then reads its page; WRITE_PAGE and
ERASE_BLOCK read their status; BUSY_WAIT just ends. Where the oracle answers for the line, its busy count runs out first
(R83). That a wait spans several steps is the model's choice (log entry
3). -/
def Obligations.WaitingOperationCompletes : Prop :=
  ∀ s : State, s.resetAfter = none → s.fault = none → readyComes s →
    (s.pending = some .busyWait → ∃ k env', 1 ≤ k ∧ firstReady s (oracleCount s) k ∧ sameArray s env' ∧ step s =
      .next (after { s with pending := none } s.dir s.dout ((busy k).drop 1) env' ⟨.ok, []⟩)) ∧
    (s.pending = some .readPage → s.strobesIdle = true → ∃ k bytes env', 1 ≤ k ∧ bytes.length = 2112 ∧
      firstReady s (oracleCount s) k ∧ sameArray s env' ∧ step s =
        .next (after { s with pending := none } .input s.dout ((busy k).drop 1 ++ R bytes) env' ⟨.ok, bytes⟩)) ∧
    (s.pending = some .writePage ∨ s.pending = some .eraseBlock → s.strobesIdle = true →
      ∃ k st env', 1 ≤ k ∧ firstReady s (oracleCount s) k ∧ sameArray s env' ∧ step s =
        .next (after { s with pending := none } .input (.byte 0x70#8) ((busy k).drop 1 ++ C 0x70#8 ++ R [st]) env'
          ⟨codeOf st, [st]⟩))

/-- No operation runs inside another (R75): a step of a waiting operation takes nothing from either port, and adds at
most its own result frame, unless the reset input ends it with no frame (R360, R362). The split of an operation into
steps is the model's choice (log entry 3). -/
def Obligations.WaitingOperationIsExclusive : Prop :=
  ∀ (s t : State) (op : BusyOp), s.pending = some op → step s = .next t →
    (t.request = s.request ∧ t.busCmd = s.busCmd ∧ t.driver = s.driver ∧
      (t.frames = s.frames ∨ ∃ f, t.frames = s.frames ++ [f] ∧ t.pending = none)) ∨
    (s.resetAfter ≠ none ∧ t.sst = .uninit ∧ t.pending = none ∧ t.busCmd = s.busCmd ∧
      (t.frames = s.frames ∨ t.frames = []))

/-- Reset values (R361): the machine right after reset, and every block field after the reset input in any state. No
physical line is driven. The chip answers only draws from then on, and nothing holds R/B# (R362). A host procedure that
waited for a result restarts with HostStart (R361); that its streams are gone with it, and that every other host and its
streams stay, is the model's choice (log entry 4). -/
def Obligations.ResetPutsEveryFieldToItsValue : Prop :=
  State.reset.sst = .uninit ∧ State.reset.ph = .idle ∧ State.reset.dir = .undef ∧ State.reset.dout = .undef ∧
    (∀ l, State.reset.lvl.get l = .undef) ∧ State.reset.oe = false ∧
    ∀ s : State,
      s.applyReset.sst = .uninit ∧ s.applyReset.ph = .idle ∧ s.applyReset.dir = .undef ∧ s.applyReset.dout = .undef ∧
        (∀ l, s.applyReset.lvl.get l = .undef) ∧ s.applyReset.oe = false ∧ (∀ n, s.applyReset.drives n = none) ∧
        s.applyReset.pending = none ∧ s.applyReset.fault = none ∧ s.applyReset.env.chip.attached = false ∧
        s.applyReset.env.heldBusy = false ∧
        (s.driver.ctl = .off ∨ s.driver.ctl = .invoked ∨ (∃ b, s.driver.ctl = .finished b) →
          s.applyReset.driver = s.driver ∧ s.applyReset.request = s.request ∧ s.applyReset.frames = s.frames) ∧
        (s.driver.ctl ≠ .off → (∀ b, s.driver.ctl ≠ .finished b) →
          s.applyReset.driver = { s.driver with ctl := .invoked }) ∧
        (s.driver.ctl ≠ .off → s.driver.ctl ≠ .invoked → (∀ b, s.driver.ctl ≠ .finished b) →
          s.applyReset.request = [] ∧ s.applyReset.frames = [])

/-- Reset has priority over everything (R331, R360): when it is due, the step is the reset, also in a hang or after a model
fault; an operation already accepted is abandoned before its checks and its first event, with no frame (R362); and a run
stopped by a model fault goes on to the reset that is announced and to nothing else (R322). The reset input's form is the
model's choice (log entry 4). -/
def Obligations.ResetHasPriority : Prop :=
  ∀ s : State,
    (s.resetAfter = some 0 → step s = .next s.applyReset) ∧
    (∀ i : Instr, i.framed = true → s.resetAfter = some 0 → exec i s = .next s.applyReset) ∧
    (∀ f, s.fault = some f → (∀ n, s.resetAfter = some n → step s = .next s.applyReset) ∧
      (s.resetAfter = none → step s = .fault f))

/-- A reset inside a command cycle (R360, R362) ends it after exactly the events that were complete, n of the 12, the
last one included, and with no result frame; the state is the one that ResetPutsEveryFieldToItsValue describes. The
reset input's form is the model's choice (log entry 4). -/
def Obligations.ResetCutsCommandCycle : Prop :=
  ∀ (c : Byte) (s : State) (n : Nat), s.sst = .ready → s.strobesIdle = true → s.resetAfter = some n → n ≤ 12 →
    ∃ env', sameBut c s env' ∧ exec (.cmdCycle c) s =
      .next (State.applyReset { s with trace := ((C c).take n).reverse ++ s.trace, env := env' })

/-! ### NAND command bytes -/

/-- Each of the eight NAND command bytes, while a session is open and the strobes are idle, is one command cycle with
its byte (R106, R107): 12 events, the lanes outputs, strobes idle again, no result frame. The array is as before
outside what a program or erase confirm stores to. The bus port is the model's choice (log entry 1). -/
def Obligations.NandCommandsAreCommandCycles : Prop :=
  ∀ (i : Instr) (c : Byte) (s : State), s.settled → nandByte i = some c →
    ∃ env', sameBut c s env' ∧ (s.env.chip.attached = false → env' = s.env) ∧
      exec i s =
        .next { s with
          ph := .idle, dir := .output, dout := .byte c, trace := (C c).reverse ++ s.trace, env := env' }

/-! ### Addresses and lanes -/

/-- The page address is two zero column bytes and the row, least significant byte first, and gives the page back:
`p = b0 | b1<<8 | b2<<16` (R63). The row address of a legal block is the row b·64, which does not wrap, with its low
6 bits 0 (R64, R226). -/
def Obligations.AddressBytesCarryRow : Prop :=
  (∀ p : Arg24, ∃ b0 b1 b2 : Byte, addrPage p = [0x00#8, 0x00#8, b0, b1, b2] ∧
    p.toNat = b0.toNat ||| b1.toNat <<< 8 ||| b2.toNat <<< 16) ∧
  (∀ b : Arg24, b.toNat * 64 < 2 ^ 24 → ∃ b0 b1 b2 : Byte, addrRow b = [b0, b1, b2] ∧
    b.toNat * 64 = b0.toNat ||| b1.toNat <<< 8 ||| b2.toNat <<< 16 ∧ b0.toNat % 64 = 0) ∧
  addrRow 2#24 = [0x80#8, 0x00#8, 0x00#8]

/-- The write and read paths agree on the lane map (R67, R69): sampling the physical levels that the block drives for a
byte gives that byte, whatever the wiring. The wiring's form is deduced (log entry 10). -/
def Obligations.LanePathsAgree : Prop :=
  ∀ (s : State) (v : Byte), s.dir = .output → s.dout = .byte v →
    byteOfLanes (fun n => (s.drives n).getD false) = v

/-- A `Drive(v)` changes the lanes one at a time, bit 0 first (R68): after k of them, lane i shows the new bit for
i < k and the old one otherwise; at the end every lane shows v. -/
def Obligations.DriveChangesOneLaneAtATime : Prop :=
  ∀ (old new : Byte) (k i : Nat), k ≤ 8 → i < 8 →
    (driveStage old new k).getLsbD i = (if i < k then new.getLsbD i else old.getLsbD i)

/-! ### The reference chip oracle -/

/-- The array's memory: a read after a write gives the value written, a write leaves every other address alone, and
writing keeps the canonical form. The canonical form is the model's choice (log entry 6). -/
def Obligations.MemoryReadAfterWrite : Prop :=
  ∀ (m : Memory) (a : Nat) (v : Byte), m.wf →
    (m.write a v).wf ∧ (m.write a v).read a = v ∧ ∀ b, b ≠ a → (m.write a v).read b = m.read b

/-- With the oracle attached and selected, READ_ID answers its five identity bytes (R82, R83). -/
def Obligations.OracleAnswersIdentity : Prop :=
  ∀ (s t : State), s.settled → oracle s → s.env.chip.id.length = 5 → exec .readId s = .next t →
    t.frames = s.frames ++ [⟨.ok, s.env.chip.id⟩]

/-- With the oracle attached and selected, WRITE_PAGE of a page the chip has programs exactly that page: each byte is
ANDed with the payload's byte, every other byte of the array is as before, and the result is the status (R82, R222). -/
def Obligations.OracleProgramsPage : Prop :=
  ∀ (p : Arg24) (buf : List Byte) (s t : State), s.settled → oracle s → s.env.heldBusy = false →
    s.env.chip.arr.wf → p.toNat < s.env.chip.numPages → buf.length = 2112 → exec (.writePage p buf) s = .next t →
    (∀ c, c < 2112 → t.env.chip.arr.read (p.toNat * 2112 + c) =
      s.env.chip.arr.read (p.toNat * 2112 + c) &&& buf.getD c 0#8) ∧
    (∀ a, a < p.toNat * 2112 ∨ p.toNat * 2112 + 2112 ≤ a → t.env.chip.arr.read a = s.env.chip.arr.read a) ∧
    t.frames = s.frames ++
      [if p.toNat ∈ s.env.chip.failProg then ⟨.statusError, [0xE1#8]⟩ else ⟨.ok, [0xE0#8]⟩]

/-- With the oracle attached and selected, ERASE_BLOCK of a block the chip has erases exactly its 64 pages (R82). -/
def Obligations.OracleErasesBlock : Prop :=
  ∀ (b : Arg24) (s t : State), s.settled → oracle s → s.env.heldBusy = false →
    b.toNat * 64 < 2 ^ 24 → b.toNat * 64 + 64 ≤ s.env.chip.numPages → exec (.eraseBlock b) s = .next t →
    (∀ a, t.env.chip.arr.read a =
      if b.toNat * 64 * 2112 ≤ a ∧ a < (b.toNat * 64 + 64) * 2112 then 0xFF#8 else s.env.chip.arr.read a) ∧
    t.frames = s.frames ++
      [if b.toNat * 64 ∈ s.env.chip.failErase then ⟨.statusError, [0xE1#8]⟩ else ⟨.ok, [0xE0#8]⟩]

/-- The round trip (L1.9, program P3): with the oracle attached and selected, a page written while erased reads back
as the bytes written. -/
def Obligations.PageRoundTripOnErasedPage : Prop :=
  ∀ (p : Arg24) (buf : List Byte) (s : State), s.settled → oracle s → s.env.heldBusy = false →
    s.env.chip.arr.wf → p.toNat < s.env.chip.numPages → p.toNat ∉ s.env.chip.failProg → buf.length = 2112 →
    (∀ c, c < 2112 → s.env.chip.arr.read (p.toNat * 2112 + c) = 0xFF#8) →
    ∃ t u, exec (.writePage p buf) s = .next t ∧ exec (.readPage p) t = .next u ∧
      u.frames = s.frames ++ [⟨.ok, [0xE0#8]⟩, ⟨.ok, buf⟩]

/-- With no reset announced, every byte of the array is as before after every instruction that cannot carry a program
or erase confirm to the chip; Read-ID, Read-Status and Read-Page among them (R72, R82). -/
def Obligations.ArrayUnchangedWithoutConfirm : Prop :=
  ∀ (i : Instr) (s t : State), mayStore i = false → s.resetAfter = none → exec i s = .next t →
    ∀ a, t.env.chip.arr.read a = s.env.chip.arr.read a

/-! ### Invariants -/

/-- The invariant: no UNDEF field while a session is open (R45), never both strobes low, both latch enables high or both
drivers on the lanes (R370), `S.PH` IDLE between operations and BUSYWAIT in a wait (R181), the strobes idle in the
wait of a transaction (R182), the array in canonical form. Every step keeps it. The canonical form is the model's
choice (log entry 6). -/
def Obligations.StepKeepsMachineInvariant : Prop :=
  ∀ s t : State, s.inv → step s = .next t → t.inv

/-- The invariant holds right after reset. -/
def Obligations.ResetMeetsMachineInvariant : Prop := State.reset.inv

/-- Composite operations leave the strobes as they found them, idle (R182, R37): every instruction of the sequencer or
the transaction engine that goes on leaves all six levels unchanged, BUSY_WAIT in any strobe state, and so does every
step that goes on with a waiting operation. The bus port is the model's choice (log entry 1). -/
def Obligations.CompositeOperationsKeepLevels : Prop :=
  (∀ (i : Instr) (s t : State), composite i = true ∨ i = .busyWait ∨ nandByte i ≠ none → s.resetAfter = none →
    exec i s = .next t → t.lvl = s.lvl) ∧
  (∀ (s t : State) (op : BusyOp), s.pending = some op → op = .busyWait ∨ s.strobesIdle = true →
    s.resetAfter = none → step s = .next t → t.lvl = s.lvl)

/-- The trace is only ever added to (R75): a step never drops, changes or reorders an event already emitted. -/
def Obligations.TraceOnlyGrows : Prop :=
  ∀ s t : State, step s = .next t → ∃ es, t.trace = es ++ s.trace

/-- No host procedure can raise a model fault (R279): where only the host procedures issue operations, the machine's
invariant holds and the strobes are idle while a session is open, no step faults or is stopped by a fault, and the next
state is again such a state, resets included. -/
def Obligations.HostProceduresNeverFault : Prop :=
  ∀ s : State, s.inv → s.hostOnly →
    safe (step s) ∧ ∀ t, step s = .next t → t.hostOnly

/-! ### The host procedures -/

/-- The host's start and the connection to the streams. HostStart issues SESSION_INIT, unless process setup fails, and then
READ_ID (R262, R276). The session identity (R262): five equal bytes are fatal with a non-zero exit and no operation; any
other five bytes become `ID0`, which read_id reports before it completes, while the other commands open their file, if they
have one (R272), and go on to their first unit, or complete if their range is empty (R272); a file that cannot be opened is
fatal (R276). Every move of the host is made by a step of the machine, on the oldest result frame, and its operation goes on
the request stream (R100). The model's choices: when the host moves and which frame it takes (log entry 26), the reset
input's form (log entry 4), the measured time (log entry 19), the order of the reports (log entry 17), when the file is
opened and how its failures are given (log entry 27), that a write unit whose bytes the file does not hold, a hole among
them, aborts the run (log entry 18), and that a unit index of 2^24 or more is refused (log entry 16). -/
def Obligations.HostStartCapturesIdentity : Prop :=
  (∀ (d : Driver) (f : Frame),
    (d.setupFails = true → d.invoke = aborts d .setup) ∧
    (d.setupFails = false → d.invoke = .act { d with ctl := .awaitInit } (some .sessionInit)) ∧
    (d.ctl = .awaitInit → d.reply f = .act { d with ctl := .awaitId } (some .readId))) ∧
  (∀ (d : Driver) (a b c e f : Byte) (rc : ResultCode), d.ctl = .awaitId →
    let id := [a, b, c, e, f]
    let known : Driver := { d with id0 := id }
    (a = b ∧ b = c ∧ c = e ∧ e = f → d.reply ⟨rc, id⟩ = aborts d .identity) ∧
    (¬(a = b ∧ b = c ∧ c = e ∧ e = f) → d.cmd = .readId → d.reply ⟨rc, id⟩ =
      .act { known with
        ctl := .finished true, reports := d.reports ++ [Report.identity id, Report.summary d.elapsed] } none) ∧
    (¬(a = b ∧ b = c ∧ c = e ∧ e = f) → d.cmd ≠ .readId →
      (usesFile d.cmd = false → begins known (rangeOf d.cmd).1 (d.reply ⟨rc, id⟩)) ∧
      (usesFile d.cmd = true → d.fileFails = some 0 → d.reply ⟨rc, id⟩ = aborts known .fileOpen) ∧
      (usesFile d.cmd = true → d.fileFails ≠ some 0 →
        begins (accessed known) (rangeOf d.cmd).1 (d.reply ⟨rc, id⟩)))) ∧
  ∀ s : State, fetches s → s.busCmd = [] → s.request = [] →
    (s.driver.ctl = .invoked → step s = moved s s.driver.invoke) ∧
    (∀ f rest, waitsForFrame s.driver → s.frames = f :: rest →
      step s = moved { s with frames := rest } ((measured s.driver).reply f)) ∧
    ((s.driver.ctl = .off ∨ ∃ b, s.driver.ctl = .finished b) ∨ (waitsForFrame s.driver ∧ s.frames = []) →
      step s = .next { s with resetAfter := s.resetAfter.map (· - 1) })

/-- The identity check before each attempt (R263, R264): an identity other than `ID0` is read again at once, and
nothing is logged, counted or committed; a matching identity starts the attempt's transaction (R265 to R267). -/
def Obligations.IdentityCheckBeforeEachAttempt : Prop :=
  ∀ (d : Driver) (f : Frame), d.ctl = .awaitCheck →
    (f.payload ≠ d.id0 → d.reply f = .act d (some .readId)) ∧
    (f.payload = d.id0 →
      (∀ x y, d.cmd = .readFull x y ∨ d.cmd = .readData x y →
        d.reply f = .act { d with ctl := .awaitFirst } (some (.readPage (BitVec.ofNat 24 d.unit)))) ∧
      (∀ x y, d.cmd = .writeFull x y →
        d.reply f = .act { d with ctl := .awaitWrite } (some (.writePage (BitVec.ofNat 24 d.unit) d.buf))) ∧
      (∀ x y, d.cmd = .eraseBlocks x y →
        d.reply f = .act { d with ctl := .awaitErase } (some (.eraseBlock (BitVec.ofNat 24 d.unit)))))

/-- Bounded retry (R268): a counted failure, that is two reads that differ or a STATUS_ERROR, is retried with a new
identity check while fewer than 5 retries were made, logging nothing; the sixth failure adds exactly one log line for
the unit, and the batch goes on to the next unit or completes (R272). A read unit's region is committed first (R270), and
the run aborts there only if the write of the file fails (R276). The model's choices: the order of the reports and the
index in a progress report (log entry 17), the holes that a region beyond the end of the file leaves and the abort of a
write unit that finds one (log entry 18), the refusal of a unit index of 2^24 or more (log entry 16), and how the failures of
the file are given (log entry 27). -/
def Obligations.SixthFailureIsLogged : Prop :=
  ∀ (d : Driver) (f : Frame), d.fails ≤ 5 →
    let total := (rangeOf d.cmd).2 - (rangeOf d.cmd).1
    let logged : Driver := { d with
      fails := 6, log := d.log ++ [badUnitLine d.cmd d.unit], reports := d.reports ++ [Report.badUnit d.unit] }
    let ended : Driver := { logged with reports := logged.reports ++ [Report.progress d.unit total] }
    ((d.ctl = .awaitSecond ∧ d.buf ≠ f.payload) ∨ ((d.ctl = .awaitWrite ∨ d.ctl = .awaitErase) ∧ f.rc = .statusError)) →
    (d.fails < 5 → d.reply f =
      .act { d with ctl := .awaitCheck, fails := d.fails + 1, reports := d.reports ++ [Report.retry d.unit] } (some .readId)) ∧
    (d.fails = 5 → d.ctl = .awaitWrite ∨ d.ctl = .awaitErase → begins ended (d.unit + 1) (d.reply f)) ∧
    (d.fails = 5 → d.ctl = .awaitSecond → d.fileFails = some 0 → d.reply f = aborts logged .fileWrite) ∧
    (d.fails = 5 → d.ctl = .awaitSecond → d.fileFails ≠ some 0 → d.buf.length = 2112 → f.payload.length = 2112 →
      ∃ file', putAt d.file (regionStart d d.unit) ((committedBytes d f.payload).take (fileUnit d.cmd)) file' ∧
        begins { accessed ended with file := file' } (d.unit + 1) (d.reply f))

/-- The end of a unit without a failure. Write and erase (R266, R267): a result OK ends the unit, with no log line and no
count. Double read (R265): the first read is kept, and the same page is read again in immediate succession; equal reads
commit the page's first U bytes at byte N·U of the file (R273, R275) and end the unit, with no log line and no count: the
progress is reported and the next unit begins, or the run completes (R271, R272). Where the write fails, the run
aborts with the file as it was (R276, R277). The model's choices: the index in a progress report (log
entry 17), the file's form with its holes and the abort of a write unit that finds one (log entry 18), the refusal of a
unit index of 2^24 or more (log entry 16), and how the failures of the file are given (log entry 27). -/
def Obligations.DoubleReadCommitsEqualReads : Prop :=
  ∀ (d : Driver) (f : Frame),
    (d.ctl = .awaitWrite ∨ d.ctl = .awaitErase → f.rc = .ok →
      begins { d with reports := d.reports ++ [.progress d.unit ((rangeOf d.cmd).2 - (rangeOf d.cmd).1)] }
        (d.unit + 1) (d.reply f)) ∧
    (d.ctl = .awaitFirst → d.reply f =
      .act { d with ctl := .awaitSecond, buf := f.payload } (some (.readPage (BitVec.ofNat 24 d.unit)))) ∧
    (d.ctl = .awaitSecond → d.buf = f.payload → d.fileFails = some 0 → d.reply f = aborts d .fileWrite) ∧
    (d.ctl = .awaitSecond → d.buf = f.payload → d.fileFails ≠ some 0 → f.payload.length = 2112 →
      ∃ file', putAt d.file (regionStart d d.unit) (f.payload.take (fileUnit d.cmd)) file' ∧
        begins
          { accessed d with
            file := file'
            reports := d.reports ++ [.progress d.unit ((rangeOf d.cmd).2 - (rangeOf d.cmd).1)] }
          (d.unit + 1) (d.reply f))

/-- Commit rule (R277): a step of the machine changes the file only by the reply to the second read of a read unit, the
oldest result frame, and then only when the unit is over: the two reads agree, or the sixth failure is now counted (R268). No
other step does, a move of another procedure, an instruction, a wait and a reset among them. The model's choices: the file's
form (log entry 18), that the reply at which the file is opened leaves its bytes, since opening keeps what an existing file
holds (log entry 27), that a reset leaves the file (log entry 4), and which frame the host takes (log entry 26). -/
def Obligations.FileChangesOnlyAtUnitEnd : Prop :=
  (∀ s t : State, step s = .next t → t.driver.file ≠ s.driver.file →
    ∃ f rest, s.frames = f :: rest ∧ t.frames = rest ∧ s.driver.ctl = .awaitSecond ∧
      (s.driver.buf = f.payload ∨ s.driver.fails = 5)) ∧
  ∀ (d d' : Driver) (f : Frame) (i : Option Instr), d.reply f = .act d' i → d'.file ≠ d.file →
    d.ctl = .awaitSecond ∧ (d.buf = f.payload ∨ d.fails = 5)
end

