-- ==== Sys2Proof/Laws/Memory.lean ====
section
/-! SUPPORT. The laws of the array's memory: read after write, and that every operation keeps the canonical form. -/

namespace Sys2Proof.Machine

/-- An address below every listed one reads as unlisted. -/
theorem read_of_lt_all {m : Memory} {a : Nat} (h : ∀ c ∈ m, a < c.1) : m.read a = Memory.unlisted := by
  induction m with
  | nil => rfl
  | cons c m ih =>
    obtain ⟨b, w⟩ := c
    have hb : a < b := h (b, w) (by simp)
    rw [Memory.read, if_neg (by omega)]
    exact ih fun c hc => h c (by simp [hc])

/-- A write puts no address other than its own into the memory. -/
theorem mem_write {m : Memory} {a : Nat} {v : Byte} {c : Host.Cell} (h : c ∈ m.write a v) :
    c ∈ m ∨ c = (a, v) ∧ v ≠ Memory.unlisted := by
  induction m with
  | nil =>
    simp only [Memory.write] at h
    split at h
    · simp at h
    · exact .inr ⟨by simpa using h, ‹_›⟩
  | cons d m ih =>
    obtain ⟨b, w⟩ := d
    simp only [Memory.write] at h
    split at h
    · split at h
      · exact .inl h
      · rcases List.mem_cons.mp h with h | h
        · exact .inr ⟨h, ‹_›⟩
        · exact .inl h
    · split at h
      · split at h
        · exact .inl (List.mem_cons_of_mem _ h)
        · rcases List.mem_cons.mp h with h | h
          · exact .inr ⟨h, ‹_›⟩
          · exact .inl (List.mem_cons_of_mem _ h)
      · rcases List.mem_cons.mp h with h | h
        · exact .inl (h ▸ List.mem_cons_self)
        · exact (ih h).imp (List.mem_cons_of_mem _) id

/-- A write keeps the canonical form. -/
theorem wf_write {m : Memory} (h : m.wf) (a : Nat) (v : Byte) : (m.write a v).wf := by
  refine ⟨?_, fun c hc => ?_⟩
  · induction m with
    | nil => simp only [Memory.write]; split <;> simp
    | cons d m ih =>
      obtain ⟨b, w⟩ := d
      have hp := List.pairwise_cons.mp h.1
      have hm : Memory.wf m := ⟨hp.2, fun c hc => h.2 c (List.mem_cons_of_mem _ hc)⟩
      simp only [Memory.write]
      split
      · split
        · exact h.1
        · refine List.pairwise_cons.mpr ⟨fun c hc => ?_, h.1⟩
          rcases List.mem_cons.mp hc with rfl | hc
          · assumption
          · exact lt_trans ‹a < b› (hp.1 c hc)
      · split
        · split
          · exact hp.2
          · subst_vars; exact List.pairwise_cons.mpr ⟨hp.1, hp.2⟩
        · refine List.pairwise_cons.mpr ⟨fun c hc => ?_, ih hm⟩
          rcases mem_write hc with hc | ⟨rfl, -⟩
          · exact hp.1 c hc
          · show b < a; omega
  · rcases mem_write hc with hc | ⟨rfl, hv⟩
    · exact h.2 c hc
    · exact hv

/-- A read after a write to the same address gives the value written. -/
theorem read_write_same {m : Memory} (h : m.wf) (a : Nat) (v : Byte) : (m.write a v).read a = v := by
  induction m with
  | nil =>
    simp only [Memory.write]
    split
    · simp [Memory.read, *]
    · simp [Memory.read]
  | cons d m ih =>
    obtain ⟨b, w⟩ := d
    have hp := List.pairwise_cons.mp h.1
    have hm : Memory.wf m := ⟨hp.2, fun c hc => h.2 c (List.mem_cons_of_mem _ hc)⟩
    simp only [Memory.write]
    split
    · split
      · rename_i hab hv
        rw [hv]
        refine read_of_lt_all fun c hc => ?_
        rcases List.mem_cons.mp hc with rfl | hc
        · exact hab
        · exact lt_trans hab (hp.1 c hc)
      · simp [Memory.read]
    · split
      · split
        · rename_i hab hv
          rw [hv]
          exact read_of_lt_all fun c hc => by have := hp.1 c hc; simp only at this; omega
        · simp [Memory.read]
      · rw [Memory.read, if_neg (by omega)]
        exact ih hm

/-- A write leaves every other address alone. -/
theorem read_write_other (m : Memory) {a b : Nat} (v : Byte) (h : b ≠ a) : (m.write a v).read b = m.read b := by
  induction m with
  | nil =>
    simp only [Memory.write]
    split
    · rfl
    · simp [Memory.read, Ne.symm h]
  | cons d m ih =>
    obtain ⟨c, w⟩ := d
    simp only [Memory.write]
    split
    · split
      · rfl
      · rw [Memory.read, if_neg (Ne.symm h)]
    · split
      · rename_i hac
        have hc : c ≠ b := by omega
        split
        · rw [Memory.read, if_neg hc]
        · rw [Memory.read, if_neg (Ne.symm h), Memory.read, if_neg hc]
      · simp only [Memory.read, ih]

/-- Erasing a range keeps the canonical form. -/
theorem wf_eraseRange {m : Memory} (h : m.wf) (lo hi : Nat) : (m.eraseRange lo hi).wf :=
  ⟨h.1.filter _, fun c hc => h.2 c (List.mem_of_mem_filter hc)⟩

/-- What an address reads as after a range was erased. -/
theorem read_eraseRange (m : Memory) (lo hi a : Nat) :
    (m.eraseRange lo hi).read a = if lo ≤ a ∧ a < hi then Memory.unlisted else m.read a := by
  induction m with
  | nil => simp [Memory.eraseRange, Memory.read]
  | cons d m ih =>
    obtain ⟨b, w⟩ := d
    simp only [Memory.eraseRange, List.filter_cons] at ih ⊢
    by_cases hb : lo ≤ b ∧ b < hi
    · rw [if_neg (by simp [hb]), ih, Memory.read]
      by_cases ha : lo ≤ a ∧ a < hi
      · simp [ha]
      · rw [if_neg ha, if_neg ha, if_neg (by rintro rfl; exact ha hb)]
    · rw [if_pos (by simp only [Bool.not_eq_true', Bool.and_eq_false_iff, decide_eq_false_iff_not]; tauto),
        Memory.read, Memory.read, ih]
      by_cases hba : b = a
      · subst hba; simp [hb]
      · rw [if_neg hba, if_neg hba]

/-- Programming keeps the canonical form. -/
theorem wf_program {m : Memory} (h : m.wf) (a : Nat) (vs : List Byte) : (m.program a vs).wf := by
  induction vs generalizing m a with
  | nil => exact h
  | cons v vs ih => exact ih (wf_write h _ _) _

/-- What an address reads as after bytes were programmed: inside the range the old byte ANDed with the new one,
outside it the old byte (R82). -/
theorem read_program {m : Memory} (h : m.wf) (a : Nat) (vs : List Byte) (b : Nat) :
    (m.program a vs).read b = if h : a ≤ b ∧ b - a < vs.length then m.read b &&& vs[b - a]'h.2 else m.read b := by
  induction vs generalizing m a with
  | nil => simp [Memory.program]
  | cons v vs ih =>
    rw [Memory.program, ih (wf_write h _ _)]
    by_cases hab : b = a
    · subst hab
      rw [dif_neg (by omega), read_write_same h, dif_pos (by simp)]
      simp
    · rw [read_write_other _ _ hab]
      by_cases hr : a + 1 ≤ b ∧ b - (a + 1) < vs.length
      · rw [dif_pos hr, dif_pos ⟨by omega, by simp only [List.length_cons]; omega⟩]
        congr 1
        rw [List.getElem_cons, dif_neg (by omega)]
        simp only [Nat.sub_sub]
      · rw [dif_neg hr, dif_neg (by simp only [List.length_cons]; omega)]

end Sys2Proof.Machine
end

