-- ==== Sys2Proof/Laws/State.lean ====
section
/-! SUPPORT. One lemma per field per update of State, and the small lemmas of levels and codes. -/

namespace Sys2Proof.Machine

/-! ### setPhase -/

@[simp] theorem setPhase_ph (p : Phase) (s : State) : (s.setPhase p).ph = p := rfl
@[simp] theorem setPhase_sst (p : Phase) (s : State) : (s.setPhase p).sst = s.sst := rfl
@[simp] theorem setPhase_dir (p : Phase) (s : State) : (s.setPhase p).dir = s.dir := rfl
@[simp] theorem setPhase_dout (p : Phase) (s : State) : (s.setPhase p).dout = s.dout := rfl
@[simp] theorem setPhase_lvl (p : Phase) (s : State) : (s.setPhase p).lvl = s.lvl := rfl
@[simp] theorem setPhase_oe (p : Phase) (s : State) : (s.setPhase p).oe = s.oe := rfl
@[simp] theorem setPhase_pending (p : Phase) (s : State) : (s.setPhase p).pending = s.pending := rfl
@[simp] theorem setPhase_resetAfter (p : Phase) (s : State) : (s.setPhase p).resetAfter = s.resetAfter := rfl
@[simp] theorem setPhase_laterResets (p : Phase) (s : State) : (s.setPhase p).laterResets = s.laterResets := rfl
@[simp] theorem setPhase_fault (p : Phase) (s : State) : (s.setPhase p).fault = s.fault := rfl
@[simp] theorem setPhase_trace (p : Phase) (s : State) : (s.setPhase p).trace = s.trace := rfl
@[simp] theorem setPhase_request (p : Phase) (s : State) : (s.setPhase p).request = s.request := rfl
@[simp] theorem setPhase_busCmd (p : Phase) (s : State) : (s.setPhase p).busCmd = s.busCmd := rfl
@[simp] theorem setPhase_frames (p : Phase) (s : State) : (s.setPhase p).frames = s.frames := rfl
@[simp] theorem setPhase_env (p : Phase) (s : State) : (s.setPhase p).env = s.env := rfl
@[simp] theorem setPhase_driver (p : Phase) (s : State) : (s.setPhase p).driver = s.driver := rfl

/-! ### tick -/

@[simp] theorem tick_resetAfter (s : State) : s.tick.resetAfter = s.resetAfter.map (· - 1) := rfl
@[simp] theorem tick_laterResets (s : State) : s.tick.laterResets = s.laterResets := rfl
@[simp] theorem tick_fault (s : State) : s.tick.fault = s.fault := rfl
@[simp] theorem tick_sst (s : State) : s.tick.sst = s.sst := rfl
@[simp] theorem tick_ph (s : State) : s.tick.ph = s.ph := rfl
@[simp] theorem tick_dir (s : State) : s.tick.dir = s.dir := rfl
@[simp] theorem tick_dout (s : State) : s.tick.dout = s.dout := rfl
@[simp] theorem tick_lvl (s : State) : s.tick.lvl = s.lvl := rfl
@[simp] theorem tick_oe (s : State) : s.tick.oe = s.oe := rfl
@[simp] theorem tick_pending (s : State) : s.tick.pending = s.pending := rfl
@[simp] theorem tick_trace (s : State) : s.tick.trace = s.trace := rfl
@[simp] theorem tick_request (s : State) : s.tick.request = s.request := rfl
@[simp] theorem tick_busCmd (s : State) : s.tick.busCmd = s.busCmd := rfl
@[simp] theorem tick_frames (s : State) : s.tick.frames = s.frames := rfl
@[simp] theorem tick_env (s : State) : s.tick.env = s.env := rfl
@[simp] theorem tick_driver (s : State) : s.tick.driver = s.driver := rfl

/-- With no reset announced, an instant changes nothing. -/
theorem tick_none {s : State} (h : s.resetAfter = none) : s.tick = s := by
  cases s; simp only at h; subst h; rfl

/-! ### answer -/

@[simp] theorem answer_frames (s : State) (rc : ResultCode) (pl : List Byte) :
    (s.answer rc pl).frames = s.frames ++ [⟨rc, pl⟩] := rfl
@[simp] theorem answer_sst (s : State) (rc : ResultCode) (pl : List Byte) : (s.answer rc pl).sst = s.sst := rfl
@[simp] theorem answer_ph (s : State) (rc : ResultCode) (pl : List Byte) : (s.answer rc pl).ph = s.ph := rfl
@[simp] theorem answer_dir (s : State) (rc : ResultCode) (pl : List Byte) : (s.answer rc pl).dir = s.dir := rfl
@[simp] theorem answer_dout (s : State) (rc : ResultCode) (pl : List Byte) : (s.answer rc pl).dout = s.dout := rfl
@[simp] theorem answer_lvl (s : State) (rc : ResultCode) (pl : List Byte) : (s.answer rc pl).lvl = s.lvl := rfl
@[simp] theorem answer_oe (s : State) (rc : ResultCode) (pl : List Byte) : (s.answer rc pl).oe = s.oe := rfl
@[simp] theorem answer_pending (s : State) (rc : ResultCode) (pl : List Byte) :
    (s.answer rc pl).pending = s.pending := rfl
@[simp] theorem answer_resetAfter (s : State) (rc : ResultCode) (pl : List Byte) :
    (s.answer rc pl).resetAfter = s.resetAfter := rfl
@[simp] theorem answer_laterResets (s : State) (rc : ResultCode) (pl : List Byte) :
    (s.answer rc pl).laterResets = s.laterResets := rfl
@[simp] theorem answer_fault (s : State) (rc : ResultCode) (pl : List Byte) : (s.answer rc pl).fault = s.fault := rfl
@[simp] theorem answer_trace (s : State) (rc : ResultCode) (pl : List Byte) : (s.answer rc pl).trace = s.trace := rfl
@[simp] theorem answer_request (s : State) (rc : ResultCode) (pl : List Byte) :
    (s.answer rc pl).request = s.request := rfl
@[simp] theorem answer_busCmd (s : State) (rc : ResultCode) (pl : List Byte) :
    (s.answer rc pl).busCmd = s.busCmd := rfl
@[simp] theorem answer_env (s : State) (rc : ResultCode) (pl : List Byte) : (s.answer rc pl).env = s.env := rfl
@[simp] theorem answer_driver (s : State) (rc : ResultCode) (pl : List Byte) :
    (s.answer rc pl).driver = s.driver := rfl

/-! ### applyReset -/

@[simp] theorem applyReset_sst (s : State) : s.applyReset.sst = .uninit := rfl
@[simp] theorem applyReset_ph (s : State) : s.applyReset.ph = .idle := rfl
@[simp] theorem applyReset_dir (s : State) : s.applyReset.dir = .undef := rfl
@[simp] theorem applyReset_dout (s : State) : s.applyReset.dout = .undef := rfl
@[simp] theorem applyReset_lvl (s : State) : s.applyReset.lvl = Levels.reset := rfl
@[simp] theorem applyReset_oe (s : State) : s.applyReset.oe = false := rfl
@[simp] theorem applyReset_pending (s : State) : s.applyReset.pending = none := rfl
@[simp] theorem applyReset_resetAfter (s : State) : s.applyReset.resetAfter = s.laterResets.head? := rfl
@[simp] theorem applyReset_laterResets (s : State) : s.applyReset.laterResets = s.laterResets.tail := rfl
@[simp] theorem applyReset_fault (s : State) : s.applyReset.fault = none := rfl
@[simp] theorem applyReset_trace (s : State) : s.applyReset.trace = s.trace := rfl
@[simp] theorem applyReset_request (s : State) :
    s.applyReset.request = if s.driver.running then [] else s.request := rfl
@[simp] theorem applyReset_busCmd (s : State) : s.applyReset.busCmd = s.busCmd := rfl
@[simp] theorem applyReset_frames (s : State) :
    s.applyReset.frames = if s.driver.running then [] else s.frames := rfl
@[simp] theorem applyReset_env (s : State) : s.applyReset.env = s.env.afterReset := rfl
@[simp] theorem afterReset_arr (env : Env) : env.afterReset.chip.arr = env.chip.arr := rfl
@[simp] theorem afterReset_attached (env : Env) : env.afterReset.chip.attached = false := rfl
@[simp] theorem afterReset_heldBusy (env : Env) : env.afterReset.heldBusy = false := rfl
@[simp] theorem applyReset_driver (s : State) : s.applyReset.driver = s.driver.afterReset := rfl

/-- The host after a reset waits for no result (R361). -/
@[simp] theorem afterReset_running (d : Driver) : d.afterReset.running = false := by
  unfold Driver.afterReset
  split
  · rfl
  · exact eq_false_of_ne_true ‹_›

/-! ### applyEvent: what no event writes -/

@[simp] theorem applyEvent_sst (e : Event) (s : State) : (applyEvent e s).sst = s.sst := by cases e <;> rfl
@[simp] theorem applyEvent_ph (e : Event) (s : State) : (applyEvent e s).ph = s.ph := by cases e <;> rfl
@[simp] theorem applyEvent_pending (e : Event) (s : State) : (applyEvent e s).pending = s.pending := by
  cases e <;> rfl
@[simp] theorem applyEvent_laterResets (e : Event) (s : State) : (applyEvent e s).laterResets = s.laterResets := by
  cases e <;> rfl
@[simp] theorem applyEvent_fault (e : Event) (s : State) : (applyEvent e s).fault = s.fault := by cases e <;> rfl
@[simp] theorem applyEvent_request (e : Event) (s : State) : (applyEvent e s).request = s.request := by
  cases e <;> rfl
@[simp] theorem applyEvent_busCmd (e : Event) (s : State) : (applyEvent e s).busCmd = s.busCmd := by
  cases e <;> rfl
@[simp] theorem applyEvent_frames (e : Event) (s : State) : (applyEvent e s).frames = s.frames := by
  cases e <;> rfl
@[simp] theorem applyEvent_driver (e : Event) (s : State) : (applyEvent e s).driver = s.driver := by
  cases e <;> rfl

/-! ### record -/

@[simp] theorem record_trace (e : Event) (s : State) : (record e s).trace = e :: s.trace := rfl
@[simp] theorem record_resetAfter (e : Event) (s : State) :
    (record e s).resetAfter = s.resetAfter.map (· - 1) := rfl
@[simp] theorem record_env (e : Event) (s : State) : (record e s).env = s.env.react s.lvl s.dir s.dout e := rfl
@[simp] theorem record_sst (e : Event) (s : State) : (record e s).sst = s.sst := applyEvent_sst e s
@[simp] theorem record_ph (e : Event) (s : State) : (record e s).ph = s.ph := applyEvent_ph e s
@[simp] theorem record_dir (e : Event) (s : State) : (record e s).dir = (applyEvent e s).dir := rfl
@[simp] theorem record_dout (e : Event) (s : State) : (record e s).dout = (applyEvent e s).dout := rfl
@[simp] theorem record_lvl (e : Event) (s : State) : (record e s).lvl = (applyEvent e s).lvl := rfl
@[simp] theorem record_oe (e : Event) (s : State) : (record e s).oe = (applyEvent e s).oe := rfl
@[simp] theorem record_pending (e : Event) (s : State) : (record e s).pending = s.pending := applyEvent_pending e s
@[simp] theorem record_laterResets (e : Event) (s : State) : (record e s).laterResets = s.laterResets :=
  applyEvent_laterResets e s
@[simp] theorem record_fault (e : Event) (s : State) : (record e s).fault = s.fault := applyEvent_fault e s
@[simp] theorem record_request (e : Event) (s : State) : (record e s).request = s.request := applyEvent_request e s
@[simp] theorem record_busCmd (e : Event) (s : State) : (record e s).busCmd = s.busCmd := applyEvent_busCmd e s
@[simp] theorem record_frames (e : Event) (s : State) : (record e s).frames = s.frames := applyEvent_frames e s
@[simp] theorem record_driver (e : Event) (s : State) : (record e s).driver = s.driver := applyEvent_driver e s

/-! ### Runs -/

@[simp] theorem bind_ok {α β : Type} (a : α) (s : State) (f : α → State → Run β) : (Run.ok a s).bind f = f a s := rfl
@[simp] theorem bind_stop {α β : Type} (w : Stop) (s : State) (f : α → State → Run β) :
    (Run.stop w s : Run α).bind f = .stop w s := rfl
@[simp] theorem andThen_ok {α β : Type} (a : α) (s : State) (f : State → Run β) : (Run.ok a s).andThen f = f s := rfl
@[simp] theorem andThen_stop {α β : Type} (w : Stop) (s : State) (f : State → Run β) :
    (Run.stop w s : Run α).andThen f = .stop w s := rfl

/-- Sequencing is associative. -/
theorem andThen_andThen {α β γ : Type} (r : Run α) (f : State → Run β) (g : State → Run γ) :
    (r.andThen f).andThen g = r.andThen fun s => (f s).andThen g := by
  cases r <;> rfl

/-! ### Levels -/

theorem levels_get_set_same (lv : Levels) (l : Line) (v : Level) : (lv.set l v).get l = v := by cases l <;> rfl

theorem levels_get_set_other (lv : Levels) (l k : Line) (v : Level) (h : k ≠ l) :
    (lv.set l v).get k = lv.get k := by
  cases l <;> cases k <;> first | rfl | exact absurd rfl h

/-- The strobes-idle condition, written out (R37). -/
theorem strobesIdle_iff (lv : Levels) :
    lv.strobesIdle = true ↔ lv.weN = .high ∧ lv.reN = .high ∧ lv.cle = .low ∧ lv.ale = .low := by
  simp [Levels.strobesIdle, and_assoc]

end Sys2Proof.Machine
end

