-- ==== Sys2Proof/Laws/Chip.lean ====
section
/-! SUPPORT. What the chip's side can do: which parts of the oracle each input leaves alone, and how the answers and
the array change. -/

namespace Sys2Proof.Machine

/-! ### The oracle's parameters never change -/

/-- The parameters of the oracle (R80). -/
def Chip.params (ch : Chip) : Nat × Nat × Nat × Nat × List Nat × List Nat × List Byte :=
  (ch.numPages, ch.kRead, ch.kProg, ch.kErase, ch.failProg, ch.failErase, ch.id)

theorem chipReadConfirm_params (ch : Chip) : (chipReadConfirm ch).params = ch.params := by
  unfold chipReadConfirm; split
  · split <;> rfl
  · rfl

theorem chipProgramConfirm_params (ch : Chip) : (chipProgramConfirm ch).params = ch.params := by
  unfold chipProgramConfirm; split
  · split <;> rfl
  · rfl

theorem chipEraseConfirm_params (ch : Chip) : (chipEraseConfirm ch).params = ch.params := by
  unfold chipEraseConfirm; split
  · split <;> rfl
  · rfl

theorem chipCommand_params (c : Byte) (ch : Chip) : (chipCommand c ch).params = ch.params := by
  unfold chipCommand
  split <;> first
    | rfl
    | exact chipReadConfirm_params ch
    | exact chipProgramConfirm_params ch
    | exact chipEraseConfirm_params ch

theorem chipAddress_params (v : Byte) (ch : Chip) : (chipAddress v ch).params = ch.params := by
  unfold chipAddress chipAddressed; split <;> rfl

theorem chipData_params (v : Byte) (ch : Chip) : (chipData v ch).params = ch.params := by
  unfold chipData; split <;> rfl

theorem chipLatch_params (lvl : Levels) (v : Byte) (ch : Chip) : (chipLatch lvl v ch).params = ch.params := by
  unfold chipLatch
  split <;> first
    | rfl
    | exact chipCommand_params v ch
    | exact chipAddress_params v ch
    | exact chipData_params v ch

theorem chipReadAdvance_params (ch : Chip) : (chipReadAdvance ch).params = ch.params := by
  unfold chipReadAdvance; split <;> rfl

/-! ### Only a program or erase confirm can end what is known of the chip -/

theorem chipCommand_attached {c : Byte} (h1 : c ≠ 0x10#8) (h2 : c ≠ 0xD0#8) (ch : Chip) :
    (chipCommand c ch).attached = ch.attached := by
  unfold chipCommand
  split
  case h_6 h => exact absurd (BitVec.eq_of_toNat_eq h) h1
  case h_8 h => exact absurd (BitVec.eq_of_toNat_eq h) h2
  all_goals first
    | rfl
    | (unfold chipReadConfirm; repeat' split) <;> rfl

/-- A byte latched with CLE low is no command. -/
theorem chipLatch_attached {lvl : Levels} (hc : lvl.cle ≠ .high ∨ lvl.ale ≠ .low) (v : Byte) (ch : Chip) :
    (chipLatch lvl v ch).attached = ch.attached := by
  unfold chipLatch
  split
  · rcases hc with hc | hc <;> exact absurd ‹_› hc
  · unfold chipAddress chipAddressed; split <;> rfl
  · unfold chipData; split <;> rfl
  · rfl

@[simp] theorem chipReadAdvance_attached (ch : Chip) : (chipReadAdvance ch).attached = ch.attached := by
  unfold chipReadAdvance; split <;> rfl

/-! ### The array changes only on a program or erase confirm -/

theorem chipCommand_arr (c : Byte) (ch : Chip) (h1 : c ≠ 0x10#8) (h2 : c ≠ 0xD0#8) :
    (chipCommand c ch).arr = ch.arr := by
  unfold chipCommand
  split
  case h_6 h => exact absurd (BitVec.eq_of_toNat_eq h) h1
  case h_8 h => exact absurd (BitVec.eq_of_toNat_eq h) h2
  all_goals first
    | rfl
    | (unfold chipReadConfirm; repeat' split) <;> rfl

theorem chipAddress_arr (v : Byte) (ch : Chip) : (chipAddress v ch).arr = ch.arr := by
  unfold chipAddress chipAddressed; split <;> rfl

theorem chipData_arr (v : Byte) (ch : Chip) : (chipData v ch).arr = ch.arr := by
  unfold chipData; split <;> rfl

theorem chipReadAdvance_arr (ch : Chip) : (chipReadAdvance ch).arr = ch.arr := by
  unfold chipReadAdvance; split <;> rfl

/-! ### Every reaction keeps the array's canonical form -/

theorem chipCommand_wf (c : Byte) (ch : Chip) (h : ch.arr.wf) : (chipCommand c ch).arr.wf := by
  by_cases h1 : c = 0x10#8
  · subst h1
    show (chipProgramConfirm ch).arr.wf
    unfold chipProgramConfirm
    split
    · split
      · exact wf_program h _ _
      · exact h
    · exact h
  · by_cases h2 : c = 0xD0#8
    · subst h2
      show (chipEraseConfirm ch).arr.wf
      unfold chipEraseConfirm
      split
      · split
        · exact wf_eraseRange h _ _
        · exact h
      · exact h
    · rw [chipCommand_arr c ch h1 h2]; exact h

theorem chipLatch_wf (lvl : Levels) (v : Byte) (ch : Chip) (h : ch.arr.wf) : (chipLatch lvl v ch).arr.wf := by
  unfold chipLatch
  split
  · exact chipCommand_wf v ch h
  · rw [chipAddress_arr]; exact h
  · rw [chipData_arr]; exact h
  · exact h

/-! ### Answers -/

@[simp] theorem drawByte_chip (env : Env) : env.drawByte.2.chip = env.chip := by
  unfold Env.drawByte; split <;> rfl
@[simp] theorem drawByte_rbDraws (env : Env) : env.drawByte.2.rbDraws = env.rbDraws := by
  unfold Env.drawByte; split <;> rfl
@[simp] theorem drawByte_heldBusy (env : Env) : env.drawByte.2.heldBusy = env.heldBusy := by
  unfold Env.drawByte; split <;> rfl
@[simp] theorem drawReady_chip (env : Env) : env.drawReady.2.chip = env.chip := by
  unfold Env.drawReady; split <;> rfl

@[simp] theorem answerBus_chip (lvl : Levels) (dir : Direction) (env : Env) :
    (env.answerBus lvl dir).2.chip = env.chip := by
  unfold Env.answerBus; split
  · split <;> simp
  · simp
@[simp] theorem answerBus_rbDraws (lvl : Levels) (dir : Direction) (env : Env) :
    (env.answerBus lvl dir).2.rbDraws = env.rbDraws := by
  unfold Env.answerBus; split
  · split <;> simp
  · simp
@[simp] theorem answerBus_heldBusy (lvl : Levels) (dir : Direction) (env : Env) :
    (env.answerBus lvl dir).2.heldBusy = env.heldBusy := by
  unfold Env.answerBus; split
  · split <;> simp
  · simp

theorem answerReady_arr (lvl : Levels) (env : Env) : (env.answerReady lvl).2.chip.arr = env.chip.arr := by
  unfold Env.answerReady; split
  · rfl
  · split
    · rfl
    · rfl
    · simp

/-- A bus sample of an external chip is a draw (R16). -/
theorem answerBus_external {env : Env} (h : env.chip.attached = false) (lvl : Levels) (dir : Direction) :
    env.answerBus lvl dir = env.drawByte := by
  simp [Env.answerBus, Env.selected, h]

@[simp] theorem lanes_chip (dir : Direction) (dout : DataLatch) (env : Env) :
    (env.lanes dir dout).2.chip = env.chip := by
  unfold Env.lanes; split <;> simp

/-! ### Reactions -/

/-- The oracle takes an input while it is selected (R81). -/
def Env.latched (lvl : Levels) (f : Chip → Chip) (env : Env) : Env :=
  if env.selected lvl then { env with chip := f env.chip } else env

/-- Events other than rising strobe edges leave the answers alone. -/
theorem react_quiet (lvl : Levels) (dir : Direction) (dout : DataLatch) (e : Event) (env : Env)
    (h1 : e ≠ .ctl .weN true) (h2 : e ≠ .ctl .reN true) : env.react lvl dir dout e = env := by
  unfold Env.react
  split
  · split
    · exact absurd rfl h1
    · exact absurd rfl h2
    · rfl
  · rfl

@[simp] theorem react_gate (lvl : Levels) (dir : Direction) (dout : DataLatch) (g : Gate) (env : Env) :
    env.react lvl dir dout (.gate g) = env := react_quiet _ _ _ _ _ (by simp) (by simp)
@[simp] theorem react_dir (lvl : Levels) (dir : Direction) (dout : DataLatch) (d : LaneDir) (env : Env) :
    env.react lvl dir dout (.dir d) = env := react_quiet _ _ _ _ _ (by simp) (by simp)
@[simp] theorem react_drive (lvl : Levels) (dir : Direction) (dout : DataLatch) (v : Byte) (env : Env) :
    env.react lvl dir dout (.drive v) = env := react_quiet _ _ _ _ _ (by simp) (by simp)
@[simp] theorem react_cfgPins (lvl : Levels) (dir : Direction) (dout : DataLatch) (env : Env) :
    env.react lvl dir dout .cfgPins = env := react_quiet _ _ _ _ _ (by simp) (by simp)
@[simp] theorem react_sampBus (lvl : Levels) (dir : Direction) (dout : DataLatch) (v : Byte) (env : Env) :
    env.react lvl dir dout (.sampBus v) = env := react_quiet _ _ _ _ _ (by simp) (by simp)
@[simp] theorem react_sampRB (lvl : Levels) (dir : Direction) (dout : DataLatch) (r : Bool) (env : Env) :
    env.react lvl dir dout (.sampRB r) = env := react_quiet _ _ _ _ _ (by simp) (by simp)
@[simp] theorem react_ctl_low (lvl : Levels) (dir : Direction) (dout : DataLatch) (l : Line) (env : Env) :
    env.react lvl dir dout (.ctl l false) = env := react_quiet _ _ _ _ _ (by simp) (by simp)
@[simp] theorem react_ctl_cle (lvl : Levels) (dir : Direction) (dout : DataLatch) (env : Env) :
    env.react lvl dir dout (.ctl .cle true) = env := react_quiet _ _ _ _ _ (by simp) (by simp)
@[simp] theorem react_ctl_ale (lvl : Levels) (dir : Direction) (dout : DataLatch) (env : Env) :
    env.react lvl dir dout (.ctl .ale true) = env := react_quiet _ _ _ _ _ (by simp) (by simp)
@[simp] theorem react_ctl_ceN (lvl : Levels) (dir : Direction) (dout : DataLatch) (env : Env) :
    env.react lvl dir dout (.ctl .ceN true) = env := react_quiet _ _ _ _ _ (by simp) (by simp)
@[simp] theorem react_ctl_wpN (lvl : Levels) (dir : Direction) (dout : DataLatch) (env : Env) :
    env.react lvl dir dout (.ctl .wpN true) = env := react_quiet _ _ _ _ _ (by simp) (by simp)

/-- A rising WE_N edge while the block drives the lanes latches the driven byte (R81). -/
theorem react_weN_rise {lvl : Levels} (h : lvl.weN = .low) (v : Byte) (env : Env) :
    env.react lvl .output (.byte v) (.ctl .weN true) = env.latched lvl (chipLatch lvl v) := by
  simp [Env.react, Env.latched, Env.lanes, h]

/-- A rising RE_N edge advances the oracle (R83). -/
theorem react_reN_rise {lvl : Levels} (h : lvl.reN = .low) (dir : Direction) (dout : DataLatch) (env : Env) :
    env.react lvl dir dout (.ctl .reN true) = env.latched lvl chipReadAdvance := by
  simp [Env.react, Env.latched, h]

/-- A WE_N that is not low has no rising edge. -/
theorem react_weN_same {lvl : Levels} (h : lvl.weN ≠ .low) (dir : Direction) (dout : DataLatch) (env : Env) :
    env.react lvl dir dout (.ctl .weN true) = env := by
  simp [Env.react, h]

/-- A RE_N that is not low has no rising edge. -/
theorem react_reN_same {lvl : Levels} (h : lvl.reN ≠ .low) (dir : Direction) (dout : DataLatch) (env : Env) :
    env.react lvl dir dout (.ctl .reN true) = env := by
  simp [Env.react, h]

/-- Every reaction keeps the array's canonical form. -/
theorem react_wf (lvl : Levels) (dir : Direction) (dout : DataLatch) (e : Event) {env : Env}
    (h : env.chip.arr.wf) : (env.react lvl dir dout e).chip.arr.wf := by
  unfold Env.react
  split
  · split
    · split
      · exact chipLatch_wf _ _ _ (by simpa using h)
      · exact h
    · split
      · rw [chipReadAdvance_arr]; exact h
      · exact h
    · exact h
  · exact h

/-! ### latched -/

@[simp] theorem latched_busDraws (lvl : Levels) (f : Chip → Chip) (env : Env) :
    (env.latched lvl f).busDraws = env.busDraws := by unfold Env.latched; split <;> rfl
@[simp] theorem latched_rbDraws (lvl : Levels) (f : Chip → Chip) (env : Env) :
    (env.latched lvl f).rbDraws = env.rbDraws := by unfold Env.latched; split <;> rfl
@[simp] theorem latched_heldBusy (lvl : Levels) (f : Chip → Chip) (env : Env) :
    (env.latched lvl f).heldBusy = env.heldBusy := by unfold Env.latched; split <;> rfl

/-- An external chip takes no input. -/
theorem latched_external {env : Env} (h : env.chip.attached = false) (lvl : Levels) (f : Chip → Chip) :
    env.latched lvl f = env := by simp [Env.latched, Env.selected, h]

/-- A selected oracle takes its input. -/
theorem latched_selected {lvl : Levels} {env : Env} (h : env.selected lvl = true) (f : Chip → Chip) :
    env.latched lvl f = { env with chip := f env.chip } := by simp [Env.latched, h]

/-- The oracle's selection depends on CE_N alone among the levels. -/
theorem latched_congr {l1 l2 : Levels} (h : l1.ceN = l2.ceN) (f : Chip → Chip) (env : Env) :
    env.latched l1 f = env.latched l2 f := by simp [Env.latched, Env.selected, h]

/-- Selection survives an input that keeps the parameters. -/
theorem selected_latched {lvl : Levels} {f : Chip → Chip} (hf : ∀ ch, (f ch).attached = ch.attached) (l : Levels)
    (env : Env) : (env.latched l f).selected lvl = env.selected lvl := by
  unfold Env.latched; split <;> simp [Env.selected, hf]

/-- An input that leaves the array alone. -/
theorem latched_arr {lvl : Levels} {f : Chip → Chip} {env : Env} (hf : (f env.chip).arr = env.chip.arr) :
    (env.latched lvl f).chip.arr = env.chip.arr := by
  unfold Env.latched; split
  · exact hf
  · rfl

end Sys2Proof.Machine
end

