-- ==== Sys2Proof/Laws/Decode.lean ====
section
/-! SUPPORT. The operation word's bytes and fields (spec/30_encoding.md R101, R113): each is given by its value, and
each reads back what was put there. -/

namespace Sys2Proof

/-! ### Values -/

/-- Bits below a shifted value add up. -/
theorem shift_or (a b n : Nat) (h : b < 2 ^ n) : a <<< n ||| b = a * 2 ^ n + b := by
  rw [← Nat.shiftLeft_add_eq_or_of_lt h, Nat.shiftLeft_eq]

theorem toNat_wordOfBytes (b0 b1 b2 b3 : Byte) :
    (wordOfBytes b0 b1 b2 b3).toNat = b3.toNat * 2 ^ 24 + b2.toNat * 2 ^ 16 + b1.toNat * 2 ^ 8 + b0.toNat := by
  have h0 := b0.isLt
  have h1 := b1.isLt
  have h2 := b2.isLt
  simp only [wordOfBytes, BitVec.toNat_append]
  have e1 := shift_or b1.toNat b0.toNat 8 h0
  have e2 := shift_or b2.toNat (b1.toNat <<< 8 ||| b0.toNat) (8 + 8) (by omega)
  rw [shift_or b3.toNat _ _ (by omega)]
  omega

theorem toNat_makeWord (op : Byte) (arg : Arg24) : (makeWord op arg).toNat = arg.toNat * 256 + op.toNat := by
  simp only [makeWord, BitVec.toNat_append]
  exact shift_or _ _ _ op.isLt

theorem toNat_opField (w : OpWord) : (opField w).toNat = w.toNat % 256 := by
  simp [opField, BitVec.extractLsb'_toNat]

theorem toNat_argField (w : OpWord) : (argField w).toNat = w.toNat / 256 := by
  have := w.isLt
  simp only [argField, BitVec.extractLsb'_toNat, Nat.shiftRight_eq_div_pow]
  omega

theorem toNat_countA (w : OpWord) : countA w = w.toNat / 256 % 8 := by
  simp [countA, BitVec.extractLsb'_toNat, toNat_argField]

/-! ### Round trips -/

theorem wordOfBytes_bytes (w : OpWord) :
    wordOfBytes (w.extractLsb' 0 8) (w.extractLsb' 8 8) (w.extractLsb' 16 8) (w.extractLsb' 24 8) = w := by
  apply BitVec.eq_of_toNat_eq
  have := w.isLt
  simp only [toNat_wordOfBytes, BitVec.extractLsb'_toNat, Nat.shiftRight_eq_div_pow]
  omega

theorem makeWord_op (op : Byte) (arg : Arg24) : opField (makeWord op arg) = op := by
  apply BitVec.eq_of_toNat_eq
  have := op.isLt
  rw [toNat_opField, toNat_makeWord]
  omega

theorem makeWord_arg (op : Byte) (arg : Arg24) : argField (makeWord op arg) = arg := by
  apply BitVec.eq_of_toNat_eq
  have := op.isLt
  rw [toNat_argField, toNat_makeWord]
  omega

theorem makeWord_fields (w : OpWord) : makeWord (opField w) (argField w) = w := by
  apply BitVec.eq_of_toNat_eq
  rw [toNat_makeWord, toNat_opField, toNat_argField]
  omega

theorem toNat_argB (v : Byte) : (argB v).toNat = v.toNat := by
  simp only [argB, BitVec.toNat_append]
  simp

/-- Format B reads back what was written. -/
theorem formatB_makeWord (op v : Byte) : formatB (makeWord op (argB v)) = some v := by
  have h1 : (argB v).extractLsb' 8 16 = 0#16 := by
    apply BitVec.eq_of_toNat_eq
    have := v.isLt
    simp only [BitVec.extractLsb'_toNat, toNat_argB, Nat.shiftRight_eq_div_pow, BitVec.toNat_ofNat]
    omega
  have h2 : (argB v).extractLsb' 0 8 = v := by
    apply BitVec.eq_of_toNat_eq
    have := v.isLt
    simp only [BitVec.extractLsb'_toNat, toNat_argB, Nat.shiftRight_eq_div_pow]
    omega
  rw [formatB, makeWord_arg, if_pos h1, h2]

/-! ### The host port -/

/-- The host port on a word with the payload it asks for, and more bytes after it (R104, R113). -/
theorem decodeRequest_word (w : OpWord) (payload rest : List Byte) (h : payload.length = payloadLen w) :
    decodeRequest (bytesOfWord w ++ payload ++ rest) =
      match decodeWord w payload with
      | .ok i => .ok (i, rest)
      | .error why => .error (.word why w rest) := by
  simp only [bytesOfWord, List.cons_append, List.nil_append, decodeRequest, wordOfBytes_bytes]
  rw [← h]
  simp only [List.length_append, Nat.not_lt.mpr (Nat.le_add_right _ _), if_false, List.take_left, List.drop_left]
  all_goals cases decodeWord w payload <;> rfl

end Sys2Proof
end

