-- ==== Sys2Proof/Laws/Driver.lean ====
section
/-! SUPPORT. The host procedures issue only their own operations, each framed (spec/48_host_procedures.md R279),
and what beginning a unit and committing one change. -/

namespace Sys2Proof.Machine

/-- A move of the host procedures: it keeps `writeReady`, and it issues only their own framed operations (R279). -/
def GoodMove (m : DriverMove) : Prop :=
  match m with
  | .act d io => d.writeReady ∧ ∀ i, io = some i → hostIssues i = true ∧ i.framed = true
  | .outOfRange => True

theorem mapM_id_length {l : List (Option Byte)} {r} (h : l.mapM id = some r) : r.length = l.length := by
  induction l generalizing r with
  | nil => simp at h; subst h; rfl
  | cons a l ih =>
    simp only [List.mapM_cons, id] at h
    cases a with
    | none => simp at h
    | some a =>
      cases hl : l.mapM id with
      | none => simp [hl] at h
      | some r' => simp [hl] at h; subst h; simp [ih hl]

theorem readRegion_length {f : List (Option Byte)} {o n : Nat} {r} (h : readRegion f o n = some r) : r.length = n := by
  unfold readRegion at h
  split at h
  · rw [mapM_id_length h]; assumption
  · simp at h

theorem goodMove_fatal (d : Driver) (w) : GoodMove (d.fatal w) := ⟨fun a b _ => by simp, by simp⟩

theorem goodMove_finishRun (d : Driver) : GoodMove d.finishRun := ⟨fun a b _ => by simp, by simp⟩

theorem goodMove_beginAttempt (d : Driver) (h : ∀ a b, d.cmd = .writeFull a b → d.buf.length = pageSize) : GoodMove d.beginAttempt :=
  ⟨fun a b hc => ⟨by simp, by simp, fun _ => h a b hc⟩, by rintro i ⟨⟩; exact ⟨rfl, rfl⟩⟩

theorem goodMove_access (d : Driver) (w) {g : Driver → DriverMove} (hg : ∀ d, GoodMove (g d)) : GoodMove (d.access w g) := by
  unfold Driver.access
  split
  · exact goodMove_fatal _ _
  · exact hg _

theorem goodMove_beginUnit (d : Driver) (u) : GoodMove (d.beginUnit u) := by
  unfold Driver.beginUnit
  split
  · exact goodMove_finishRun _
  · split
    · trivial
    · split
      · refine goodMove_access _ _ fun d => ?_
        split
        · exact goodMove_beginAttempt _ fun a b _ => readRegion_length ‹_›
        · exact goodMove_fatal _ _
      · exact goodMove_beginAttempt _ fun a b h => absurd h (by simpa using ‹∀ _ _, d.cmd = _ → False› a b)

theorem goodMove_nextUnit (d : Driver) : GoodMove d.nextUnit := goodMove_beginUnit _ _

theorem goodMove_commit (d : Driver) (x) : GoodMove (d.commit x) := by
  exact goodMove_access _ _ fun d => goodMove_nextUnit _

theorem goodMove_beginBatch (d : Driver) : GoodMove d.beginBatch := by
  unfold Driver.beginBatch
  split <;> first | exact goodMove_beginUnit _ _ | exact goodMove_access _ _ fun d => goodMove_beginUnit _ _

theorem goodMove_countFailure (d : Driver) (g) (hg : ∀ d, GoodMove (g d)) (h : ∀ a b, d.cmd = .writeFull a b → d.buf.length = pageSize) : GoodMove (d.countFailure g) := by
  unfold Driver.countFailure
  split
  · exact hg _
  · exact goodMove_beginAttempt _ h

theorem goodMove_reply (d : Driver) (f : Frame) (h : d.writeReady) : GoodMove (d.reply f) := by
  unfold Driver.reply
  split
  all_goals rename_i hc
  · exact ⟨h, by simp⟩
  · exact ⟨h, by simp⟩
  · exact ⟨h, by simp⟩
  · exact ⟨fun a b _ => by simp, by rintro i ⟨⟩; exact ⟨rfl, rfl⟩⟩
  · split
    · exact goodMove_fatal _ _
    · unfold Driver.start
      split
      · exact goodMove_finishRun _
      · exact goodMove_beginBatch _
  · have hb : ∀ a b, d.cmd = .writeFull a b → d.buf.length = pageSize := fun a b h1 => (h a b h1).2.2 (.inl hc)
    split
    · unfold Driver.attempt
      split
      · rename_i a b h1
        exact ⟨fun a b hh => ⟨by simp, by simp, fun _ => hb _ _ h1⟩, by rintro i ⟨⟩; exact ⟨rfl, decide_eq_true (hb _ _ h1)⟩⟩
      · rename_i a b h1
        exact ⟨fun a b hh => by simp [h1] at hh, by rintro i ⟨⟩; exact ⟨rfl, rfl⟩⟩
      · rename_i h1 h2
        exact ⟨fun a b hh => absurd hh (by simpa using h1 a b), by rintro i ⟨⟩; exact ⟨rfl, rfl⟩⟩
    · exact goodMove_beginAttempt _ hb
  · exact ⟨fun a b hh => absurd hc (h a b hh).1, by rintro i ⟨⟩; exact ⟨rfl, rfl⟩⟩
  · split
    · exact goodMove_commit _ _
    · exact goodMove_countFailure _ _ (fun _ => goodMove_commit _ _) fun a b hh => absurd hc (h a b hh).2.1
  · split
    · exact goodMove_nextUnit _
    · exact goodMove_countFailure _ _ goodMove_nextUnit fun a b hh => (h a b hh).2.2 (.inr (.inl hc))
  · split
    · exact goodMove_nextUnit _
    · exact goodMove_countFailure _ _ goodMove_nextUnit fun a b hh => (h a b hh).2.2 (.inr (.inr hc))

/-! ### Where a move leads -/

/-- An access to the file: an abort, with nothing else changed, or what comes after a success (R276). -/
theorem access_act {d d' : Driver} {w i} {g : Driver → DriverMove} (h : d.access w g = .act d' i) :
    (d.fileFails = some 0 ∧ i = none ∧
      d' = { d with ctl := .finished false, reports := d.reports ++ [.fatal w] }) ∨
    (d.fileFails ≠ some 0 ∧ g { d with fileFails := d.fileFails.map (· - 1) } = .act d' i) := by
  unfold Driver.access at h
  split at h
  · injection h with h1 h2; exact .inl ⟨‹_›, h2.symm, h1.symm⟩
  · exact .inr ⟨‹_›, h⟩

/-- What beginning a unit keeps, and where it leads: an identity check, the end of the run, or an abort for a file that
cannot be read (R268, R272, R274). -/
theorem beginUnit_act (d d' : Driver) (u) (i) (h : d.beginUnit u = .act d' i) :
    d'.log = d.log ∧ d'.file = d.file ∧ d'.id0 = d.id0 ∧ d'.cmd = d.cmd ∧ (∃ r, d'.reports = d.reports ++ r) ∧
      ((i = some .readId ∧ d'.ctl = .awaitCheck ∧ d'.unit = u ∧ d'.fails = 0) ∨
        (i = none ∧ d'.ctl = .finished true) ∨
        (i = none ∧ d'.ctl = .finished false ∧ .fatal .fileRead ∈ d'.reports)) := by
  unfold Driver.beginUnit at h
  split at h
  · injection h with h1 h2; subst h1 h2
    exact ⟨rfl, rfl, rfl, rfl, ⟨_, rfl⟩, .inr (.inl ⟨rfl, rfl⟩)⟩
  · split at h
    · simp at h
    · split at h
      · rcases access_act h with ⟨-, rfl, rfl⟩ | ⟨-, h⟩
        · exact ⟨rfl, rfl, rfl, rfl, ⟨_, rfl⟩, .inr (.inr ⟨rfl, rfl, by simp⟩)⟩
        · split at h
          · injection h with h1 h2; subst h1 h2
            exact ⟨rfl, rfl, rfl, rfl, ⟨[], by simp⟩, .inl ⟨rfl, rfl, rfl, rfl⟩⟩
          · injection h with h1 h2; subst h1 h2
            exact ⟨rfl, rfl, rfl, rfl, ⟨_, rfl⟩, .inr (.inr ⟨rfl, rfl, by simp⟩)⟩
      · injection h with h1 h2; subst h1 h2
        exact ⟨rfl, rfl, rfl, rfl, ⟨[], by simp⟩, .inl ⟨rfl, rfl, rfl, rfl⟩⟩

/-- What a commit does: an abort if the file cannot be written, else one region of the file changes and the next unit
begins (R276, R277). -/
theorem commit_act (d d' : Driver) (x) (i) (h : d.commit x = .act d' i) :
    (d.fileFails = some 0 ∧ i = none ∧
      d' = { d with ctl := .finished false, reports := d.reports ++ [.fatal .fileWrite] }) ∨
    (d.fileFails ≠ some 0 ∧ d'.log = d.log ∧
      d'.file = writeRegion d.file (d.fileOffset d.unit) (x.take d.cmd.unitBytes) ∧
      ((i = some .readId ∧ d'.ctl = .awaitCheck ∧ d'.unit = d.unit + 1 ∧ d'.fails = 0) ∨
        (i = none ∧ d'.ctl = .finished true) ∨
        (i = none ∧ d'.ctl = .finished false ∧ .fatal .fileRead ∈ d'.reports))) := by
  rcases access_act h with h1 | ⟨h1, h⟩
  · exact .inl h1
  · obtain ⟨h2, h3, -, -, -, h6⟩ := beginUnit_act _ _ _ _ h
    exact .inr ⟨h1, h2, h3, h6⟩

end Sys2Proof.Machine
end

