-- ==== Sys2Proof/Laws/Keep.lean ====
section
/-! SUPPORT. A relation between states that every event, sample and phase write keeps is kept by every procedure, from
any state and however the run ends. -/

namespace Sys2Proof.Machine

/-- The state a run leaves, whether it ended or stopped. -/
def Run.state {α : Type} : Run α → State
  | .ok _ s => s
  | .stop _ s => s

/-- A reflexive and transitive relation that an event without a hazard, a sample and a write of `S.PH` keep. -/
structure Kept (P : State → State → Prop) : Prop where
  refl : ∀ s, P s s
  trans : ∀ s t u, P s t → P t u → P s u
  event : ∀ e s, s.resetAfter ≠ some 0 → hazard e s = none → P s (record e s)
  bus : ∀ s, s.resetAfter ≠ some 0 → P s (record (.sampBus (s.env.answerBus s.lvl s.dir).1)
    { s with env := (s.env.answerBus s.lvl s.dir).2 })
  ready : ∀ s, s.resetAfter ≠ some 0 → P s (record (.sampRB (s.env.answerReady s.lvl).1)
    { s with env := (s.env.answerReady s.lvl).2 })
  phase : ∀ p s, P s (s.setPhase p)

section
variable {P : State → State → Prop} (k : Kept P)
include k

theorem kept_bind {α β : Type} {s : State} {r : Run α} {f : α → State → Run β} (h1 : P s r.state)
    (h2 : ∀ a t, P t (f a t).state) : P s (r.bind f).state := by
  cases r with
  | ok a t => exact k.trans _ _ _ h1 (h2 a t)
  | stop w t => exact h1

theorem kept_andThen {α β : Type} {s : State} {r : Run α} {f : State → Run β} (h1 : P s r.state)
    (h2 : ∀ t, P t (f t).state) : P s (r.andThen f).state := kept_bind k h1 fun _ t => h2 t

theorem kept_emit (e : Event) (s : State) : P s (emit e s).state := by
  unfold emit
  split
  · exact k.refl s
  · split
    · exact k.refl s
    · exact k.event e s ‹_› ‹_›

theorem kept_emitAll (es : List Event) (s : State) : P s (emitAll es s).state := by
  induction es generalizing s with
  | nil => exact k.refl s
  | cons e es ih => exact kept_andThen k (kept_emit k e s) ih

theorem kept_sampleBus (s : State) : P s (sampleBus s).state := by
  unfold sampleBus
  split
  · exact k.refl s
  · exact k.bus s ‹_›

theorem kept_sampleReady (s : State) : P s (sampleReady s).state := by
  unfold sampleReady
  split
  · exact k.refl s
  · exact k.ready s ‹_›

theorem kept_requireIdle (s : State) : P s (requireIdle s).state := by
  unfold requireIdle; split <;> exact k.refl s

theorem kept_complete (a : Reply) (s : State) : P s (complete a s).state :=
  k.trans _ _ _ (k.phase .done s) (k.phase .idle _)

theorem kept_rePulse (s : State) : P s (rePulse s).state :=
  kept_andThen k (kept_emitAll k _ s) fun t =>
    kept_bind k (kept_sampleBus k t) fun _ u => kept_andThen k (kept_emitAll k _ u) fun v => k.refl v

theorem kept_cmdPhase (c : Byte) (s : State) : P s (cmdPhase c s).state :=
  k.trans _ _ _ (k.phase .command s) (kept_emitAll k _ _)

theorem kept_addrPhase (a : List Byte) (s : State) : P s (addrPhase a s).state := by
  unfold addrPhase
  split
  · exact k.refl s
  · exact k.trans _ _ _ (k.phase .address s) (kept_emitAll k _ _)

theorem kept_doutPhase (buf : List Byte) (s : State) : P s (doutPhase buf s).state := by
  unfold doutPhase
  split
  · exact k.refl s
  · exact k.trans _ _ _ (k.phase .dataOut s) (kept_emitAll k _ _)

theorem kept_readPulses (n : Nat) (s : State) : P s (readPulses n s).state := by
  induction n generalizing s with
  | zero => exact k.refl s
  | succ n ih =>
    exact kept_bind k (kept_rePulse k s) fun _ t => kept_bind k (ih t) fun _ u => k.refl u

theorem kept_dinPhase (n : Nat) (s : State) : P s (dinPhase n s).state := by
  unfold dinPhase
  split
  · exact k.refl s
  · exact kept_andThen k (k.trans _ _ _ (k.phase .dataIn s) (kept_emitAll k _ _)) fun t => kept_readPulses k n t

theorem kept_poll (n : Nat) (s : State) : P s (poll n s).state := by
  induction n generalizing s with
  | zero => exact kept_sampleReady k s
  | succ n ih =>
    refine kept_bind k (kept_sampleReady k s) fun r t => ?_
    cases r
    · exact ih t
    · exact k.refl t

theorem kept_awaitReady (op : BusyOp) (s : State) : P s (awaitReady op s).state := by
  refine kept_bind k (kept_poll k _ s) fun r t => ?_
  cases r
  · rw [if_neg (by simp)]
    exact k.refl t
  · rw [if_pos rfl]
    exact kept_emit k _ t

theorem kept_busyPhase (op : BusyOp) (s : State) : P s (busyPhase op s).state :=
  kept_andThen k (k.trans _ _ _ (k.phase .busyWait s) (kept_emit k _ _)) (kept_awaitReady k op)

theorem kept_statusTxn (s : State) : P s (statusTxn s).state :=
  kept_andThen k (kept_cmdPhase k _ s) fun t => kept_dinPhase k 1 t

theorem kept_sequenced {phase : State → Run (List Byte)} (h : ∀ t, P t (phase t).state) (s : State) :
    P s (sequenced phase s).state :=
  kept_andThen k (kept_requireIdle k s) fun t => kept_bind k (h t) fun _ u => kept_complete k _ u

theorem kept_silent {phase : State → Run Unit} (h : ∀ t, P t (phase t).state) (s : State) :
    P s (silent phase s).state := kept_andThen k (h s) fun t => k.refl t

theorem kept_afterBusy (op : BusyOp) (s : State) : P s (afterBusy op s).state := by
  cases op
  · exact kept_complete k _ s
  · exact kept_bind k (kept_dinPhase k _ s) fun _ t => kept_complete k _ t
  · exact kept_bind k (kept_statusTxn k s) fun _ t => kept_complete k _ t
  · exact kept_bind k (kept_statusTxn k s) fun _ t => kept_complete k _ t

theorem kept_eventOperation (e : Event) (s : State) : P s (eventOperation e s).state :=
  kept_andThen k (kept_emit k e s) fun t => k.refl t

theorem kept_busWriteBody (v : Byte) (s : State) : P s (busWriteBody v s).state := by
  unfold busWriteBody
  split
  · exact kept_eventOperation k _ s
  · exact k.refl s

theorem kept_busReadBody (s : State) : P s (busReadBody s).state := by
  unfold busReadBody
  split
  · exact kept_bind k (kept_sampleBus k s) fun _ t => k.refl t
  · exact k.refl s

theorem kept_rbReadBody (s : State) : P s (rbReadBody s).state :=
  kept_bind k (kept_sampleReady k s) fun _ t => k.refl t

theorem kept_busyWaitBody (s : State) : P s (busyWaitBody s).state :=
  kept_andThen k (kept_busyPhase k _ s) fun t => kept_complete k _ t

theorem kept_readPageBody (p : Arg24) (s : State) : P s (readPageBody p s).state :=
  kept_andThen k (kept_requireIdle k s) fun t => kept_andThen k (kept_cmdPhase k _ t) fun t =>
    kept_andThen k (kept_addrPhase k _ t) fun t => kept_andThen k (kept_cmdPhase k _ t) fun t =>
      kept_andThen k (kept_busyPhase k _ t) fun t => kept_afterBusy k _ t

theorem kept_writePageBody (p : Arg24) (buf : List Byte) (s : State) : P s (writePageBody p buf s).state :=
  kept_andThen k (kept_requireIdle k s) fun t => kept_andThen k (kept_cmdPhase k _ t) fun t =>
    kept_andThen k (kept_addrPhase k _ t) fun t => kept_andThen k (kept_doutPhase k _ t) fun t =>
      kept_andThen k (kept_cmdPhase k _ t) fun t =>
        kept_andThen k (kept_busyPhase k _ t) fun t => kept_afterBusy k _ t

theorem kept_eraseBlockBody (b : Arg24) (s : State) : P s (eraseBlockBody b s).state :=
  kept_andThen k (kept_requireIdle k s) fun t => kept_andThen k (kept_cmdPhase k _ t) fun t =>
    kept_andThen k (kept_addrPhase k _ t) fun t => kept_andThen k (kept_cmdPhase k _ t) fun t =>
      kept_andThen k (kept_busyPhase k _ t) fun t => kept_afterBusy k _ t

theorem kept_readIdBody (s : State) :
    P s (sequenced (fun s => (cmdPhase 0x90#8 s).andThen fun s =>
      (addrPhase addrId s).andThen (dinPhase idLen)) s).state :=
  kept_sequenced k (fun t => kept_andThen k (kept_cmdPhase k _ t) fun t =>
    kept_andThen k (kept_addrPhase k _ t) fun t => kept_dinPhase k _ t) s

end

/-! ### The instructions -/

/-- The body of a host operation: what runs after the checks of R301. -/
def bodyOf : Instr → State → Run Reply
  | .sessionInit => sessionInitBody
  | .sessionEnd => fun s => .ok (.ok, []) { s with sst := .uninit }
  | .busDir d => eventOperation (.dir d)
  | .busWrite v => busWriteBody v
  | .busRead => busReadBody
  | .ctlSet l b => eventOperation (.ctl l b)
  | .rbRead => rbReadBody
  | .delayNs x => eventOperation (.gate (.ns x.toNat))
  | .shortPause => eventOperation (.gate .short)
  | .cmdCycle c => sequenced (silent (cmdPhase c))
  | .addrCycle a => sequenced (silent (addrPhase a))
  | .dataOut buf => sequenced (silent (doutPhase buf))
  | .dataIn x => sequenced (dinPhase x.toNat)
  | .busyWait => busyWaitBody
  | .readId => sequenced fun s => (cmdPhase 0x90#8 s).andThen fun s => (addrPhase addrId s).andThen (dinPhase idLen)
  | .readPage p => readPageBody p
  | .writePage p buf => writePageBody p buf
  | .eraseBlock b => eraseBlockBody b
  | .readStatus => sequenced statusTxn
  | .nandReadId | .nandReadSetup | .nandReadConfirm | .nandProgramSetup
  | .nandProgramConfirm | .nandEraseSetup | .nandEraseConfirm | .nandReadStatus => fun s => .ok (.ok, []) s

/-- The command byte of a NAND row (R107). -/
def commandOf : Instr → Option Byte
  | .nandReadId => some 0x90#8
  | .nandReadSetup => some 0x00#8
  | .nandReadConfirm => some 0x30#8
  | .nandProgramSetup => some 0x80#8
  | .nandProgramConfirm => some 0x10#8
  | .nandEraseSetup => some 0x60#8
  | .nandEraseConfirm => some 0xD0#8
  | .nandReadStatus => some 0x70#8
  | .sessionInit | .sessionEnd | .busDir _ | .busWrite _ | .busRead | .ctlSet _ _ | .rbRead | .delayNs _
  | .shortPause | .cmdCycle _ | .addrCycle _ | .dataOut _ | .dataIn _ | .busyWait | .readId | .readPage _
  | .writePage _ _ | .eraseBlock _ | .readStatus => none

/-- Every instruction is a framed host operation, a WRITE_PAGE whose payload is no page, or a command byte. -/
theorem exec_cases (i : Instr) (s : State) :
    (i.port = .host ∧ i.framed = true ∧ exec i s = operation i (bodyOf i) s) ∨
      (i.framed = false ∧ i.port = .host ∧ (exec i s = operation i (bodyOf i) s ∨ exec i s = .refused .misframedRequest)) ∨
      (i.port = .bus ∧ ∃ c, commandOf i = some c ∧ exec i s = busCommand c s) := by
  cases i
  case writePage p buf =>
    by_cases h : (Instr.writePage p buf).framed = true
    · exact .inl ⟨rfl, h, by rw [exec, execWritePage, if_pos h]; rfl⟩
    · exact .inr (.inl ⟨by simpa using h, rfl, .inr (by rw [exec, execWritePage, if_neg h])⟩)
  case addrCycle a =>
    by_cases h : (Instr.addrCycle a).framed = true
    · exact .inl ⟨rfl, h, rfl⟩
    · exact .inr (.inl ⟨by simpa using h, rfl, .inl rfl⟩)
  case dataOut a =>
    by_cases h : (Instr.dataOut a).framed = true
    · exact .inl ⟨rfl, h, rfl⟩
    · exact .inr (.inl ⟨by simpa using h, rfl, .inl rfl⟩)
  all_goals first
    | exact .inl ⟨rfl, rfl, rfl⟩
    | exact .inr (.inr ⟨rfl, _, rfl, rfl⟩)

/-- A framed host operation is its body behind the checks of R301. -/
theorem exec_host {i : Instr} (h : i.port = .host) (hf : i.framed = true) (s : State) :
    exec i s = operation i (bodyOf i) s := by
  rcases exec_cases i s with h1 | h1 | h1
  · exact h1.2.2
  · rw [hf] at h1; exact absurd h1.1 (by simp)
  · rw [h] at h1; exact absurd h1.1 (by simp)

/-- How the end of an operation becomes a next state: its frame, or the reset that came first (R105, R331). -/
theorem deliver_next {a : Reply} {s t : State} (h : deliver a s = .next t) :
    (s.resetAfter = some 0 ∧ t = s.applyReset) ∨ (s.resetAfter ≠ some 0 ∧ t = s.tick.answer a.1 a.2) := by
  unfold deliver at h
  split at h
  · exact .inl ⟨‹_›, by simpa using h.symm⟩
  · exact .inr ⟨‹_›, by simpa using h.symm⟩

/-- With no reset announced, an operation ends in its frame (R105). -/
theorem deliver_none {s : State} (h : s.resetAfter = none) (a : Reply) : deliver a s = .next (s.answer a.1 a.2) := by
  simp [deliver, h, tick_none h]

/-- A model fault goes on only to the reset that is announced (R322). -/
theorem raiseFault_next {f : Fault} {s t : State} (h : raiseFault f s = .next t) :
    s.resetAfter ≠ none ∧ t = { s with fault := some f } := by
  unfold raiseFault at h
  split at h
  · simp at h
  · rename_i hn; exact ⟨by simp [hn], by simpa using h.symm⟩

/-- With no reset announced, a model fault ends the run (R322). -/
theorem raiseFault_none {s : State} (h : s.resetAfter = none) (f : Fault) : raiseFault f s = .fault f := by
  simp [raiseFault, h]

/-- How a run becomes a next state (R105, R180, R322, R362). -/
theorem finish_next {r : Run Reply} {t : State} (h : finish r = .next t) :
    (∃ a u, r = .ok a u ∧ u.resetAfter ≠ some 0 ∧ t = u.tick.answer a.1 a.2) ∨
      (∃ u, ((∃ a, r = .ok a u ∧ u.resetAfter = some 0) ∨ r = .stop .reset u) ∧ t = u.applyReset) ∨
      (∃ f u, r = .stop (.fault f) u ∧ u.resetAfter ≠ none ∧ t = { u with fault := some f }) ∨
      ∃ op u, r = .stop (.waiting op) u ∧ t = { u with pending := some op } := by
  unfold finish at h
  split at h
  · rcases deliver_next h with ⟨h1, h2⟩ | ⟨h1, h2⟩
    · exact .inr (.inl ⟨_, .inl ⟨_, rfl, h1⟩, h2⟩)
    · exact .inl ⟨_, _, rfl, h1, h2⟩
  · exact .inr (.inr (.inl ⟨_, _, rfl, raiseFault_next h⟩))
  · exact .inr (.inl ⟨_, .inr rfl, by simpa using h.symm⟩)
  · exact .inr (.inr (.inr ⟨_, _, rfl, by simpa using h.symm⟩))

/-- How a host operation comes to a next state: the reset that is due, a rejection, or its body's end (R331, R301,
R302). -/
theorem operation_next {i : Instr} {body : State → Run Reply} {s t : State} (h : operation i body s = .next t) :
    (s.resetAfter = some 0 ∧ t = s.applyReset) ∨
      (s.resetAfter ≠ some 0 ∧ s.sst = .uninit ∧ i ≠ .sessionInit ∧ t = s.tick.answer .notInit []) ∨
      (s.resetAfter ≠ some 0 ∧ (s.sst = .ready ∨ i = .sessionInit) ∧ i.operandsOk = false ∧
        t = s.tick.answer .badOperand []) ∨
      (s.resetAfter ≠ some 0 ∧ (s.sst = .ready ∨ i = .sessionInit) ∧ i.operandsOk = true ∧
        finish (body s) = .next t) := by
  unfold operation at h
  split at h
  · exact .inl ⟨‹_›, by simpa using h.symm⟩
  rename_i h0
  have hd : ∀ rc, reject rc s = .next t → t = s.tick.answer rc [] := fun rc h =>
    (deliver_next h).elim (fun h => absurd h.1 h0) fun h => h.2
  split at h
  · rename_i ha
    have ha' : s.sst = .ready ∨ i = .sessionInit := by simpa [sessionAdmits] using ha
    split at h
    · exact .inr (.inr (.inr ⟨h0, ha', ‹_›, h⟩))
    · rename_i ho
      exact .inr (.inr (.inl ⟨h0, ha', eq_false_of_ne_true ho, hd _ h⟩))
  · rename_i ha
    have ha' : s.sst ≠ .ready ∧ i ≠ .sessionInit := by simpa [sessionAdmits] using ha
    refine .inr (.inl ⟨h0, ?_, ha'.2, hd _ h⟩)
    cases hs : s.sst
    · rfl
    · exact absurd hs ha'.1

/-- Events never wait. -/
theorem emitAll_not_waiting (es : List Event) (s u : State) (op : BusyOp) : emitAll es s ≠ .stop (.waiting op) u := by
  induction es generalizing s with
  | nil => intro h; simp [emitAll] at h
  | cons e es ih =>
    intro h
    simp only [emitAll, emit] at h
    split at h
    · simp at h
    · split at h
      · simp at h
      · exact ih _ h

/-- How a command byte of the bus port comes to a next state (R331, R243, R173, R174). -/
theorem busCommand_next {c : Byte} {s t : State} (h : busCommand c s = .next t) :
    (s.resetAfter = some 0 ∧ t = s.applyReset) ∨ (s.sst = .uninit ∧ t = s) ∨
      (s.sst = .ready ∧
        ((s.strobesIdle = true ∧ ∃ u, cmdPhase c s = .ok () u ∧ t = { u with ph := .idle }) ∨
          (s.strobesIdle = true ∧ ∃ u, cmdPhase c s = .stop .reset u ∧ t = u.applyReset) ∨
          ∃ f u, ((s.strobesIdle = false ∧ u = s) ∨ cmdPhase c s = .stop (.fault f) u) ∧ u.resetAfter ≠ none ∧
            t = { u with fault := some f })) := by
  unfold busCommand at h
  split at h
  · exact .inl ⟨‹_›, by simpa using h.symm⟩
  refine .inr ?_
  split at h
  · refine .inr ⟨‹_›, ?_⟩
    cases hi : s.strobesIdle
    · simp only [requireIdle, hi, Bool.false_eq_true, if_false, andThen_stop, finishBus] at h
      exact .inr (.inr ⟨_, s, .inl ⟨rfl, rfl⟩, raiseFault_next h⟩)
    · simp only [requireIdle, hi, if_true, andThen_ok] at h
      rcases hc : cmdPhase c s with ⟨_, u⟩ | ⟨w, u⟩
      · rw [hc] at h
        exact .inl ⟨rfl, u, rfl, by simpa [finishBus, State.setPhase] using h.symm⟩
      · rw [hc] at h
        cases w with
        | fault f => exact .inr (.inr ⟨f, u, .inr rfl, raiseFault_next h⟩)
        | reset => exact .inr (.inl ⟨rfl, u, rfl, by simpa [finishBus] using h.symm⟩)
        | waiting op => exact absurd hc (emitAll_not_waiting _ _ _ _)
  · refine .inl ⟨?_, by simpa using h.symm⟩
    cases hs : s.sst
    · rfl
    · exact absurd hs ‹_›

/-- A relation is kept by the body of every host operation but the two that change the session. -/
theorem kept_bodyOf_inner {P : State → State → Prop} (k : Kept P) {i : Instr} (h1 : i ≠ .sessionInit)
    (h2 : i ≠ .sessionEnd) (s : State) : P s (bodyOf i s).state := by
  cases i
  case sessionInit => exact absurd rfl h1
  case sessionEnd => exact absurd rfl h2
  case busDir d => exact kept_eventOperation k _ s
  case busWrite v => exact kept_busWriteBody k v s
  case busRead => exact kept_busReadBody k s
  case ctlSet l b => exact kept_eventOperation k _ s
  case rbRead => exact kept_rbReadBody k s
  case delayNs x => exact kept_eventOperation k _ s
  case shortPause => exact kept_eventOperation k _ s
  case cmdCycle c => exact kept_sequenced k (fun t => kept_silent k (kept_cmdPhase k c) t) s
  case addrCycle a => exact kept_sequenced k (fun t => kept_silent k (kept_addrPhase k a) t) s
  case dataOut b => exact kept_sequenced k (fun t => kept_silent k (kept_doutPhase k b) t) s
  case dataIn x => exact kept_sequenced k (fun t => kept_dinPhase k _ t) s
  case busyWait => exact kept_busyWaitBody k s
  case readId => exact kept_readIdBody k s
  case readPage p => exact kept_readPageBody k p s
  case writePage p b => exact kept_writePageBody k p b s
  case eraseBlock b => exact kept_eraseBlockBody k b s
  case readStatus => exact kept_sequenced k (kept_statusTxn k) s
  all_goals exact k.refl s

/-- A relation that a change of the session state keeps too is kept by every host operation's body. -/
theorem kept_bodyOf {P : State → State → Prop} (k : Kept P) (hs : ∀ s x, P s { s with sst := x }) (i : Instr)
    (s : State) : P s (bodyOf i s).state := by
  by_cases h1 : i = .sessionInit
  · subst h1
    exact kept_andThen k (kept_emitAll k _ s) fun t =>
      k.trans _ _ _ (hs t .ready) (k.phase .idle { t with sst := .ready })
  · by_cases h2 : i = .sessionEnd
    · subst h2; exact hs s .uninit
    · exact kept_bodyOf_inner k h1 h2 s

/-- What a relation must keep besides the procedures: the frame, a model fault's mark, the wait, and reset. -/
structure Around (P : State → State → Prop) : Prop where
  answer : ∀ s rc pl, P s (s.tick.answer rc pl)
  fault : ∀ s f, P s { s with fault := some f }
  pending : ∀ s op, P s { s with pending := some op }
  reset : ∀ s : State, P s s.applyReset

/-- A relation that the procedures and the frame around them keep is kept by every run that goes on. -/
theorem kept_finish {P : State → State → Prop} (k : Kept P) (w : Around P) {s t : State} {r : Run Reply}
    (hk : P s r.state) (h : finish r = .next t) : P s t := by
  rcases finish_next h with ⟨a, u, rfl, -, rfl⟩ | ⟨u, ⟨a, rfl, -⟩ | rfl, rfl⟩ | ⟨f, u, rfl, -, rfl⟩ | ⟨op, u, rfl, rfl⟩
  · exact k.trans _ _ _ hk (w.answer _ _ _)
  · exact k.trans _ _ _ hk (w.reset _)
  · exact k.trans _ _ _ hk (w.reset _)
  · exact k.trans _ _ _ hk (w.fault _ _)
  · exact k.trans _ _ _ hk (w.pending _ _)

/-- The same for a command byte of the bus port. -/
theorem kept_busCommand {P : State → State → Prop} (k : Kept P) (w : Around P) {c : Byte} {s t : State}
    (h : busCommand c s = .next t) : P s t := by
  have hk := kept_cmdPhase k c s
  rcases busCommand_next h with ⟨-, rfl⟩ | ⟨-, rfl⟩ |
    ⟨-, ⟨-, u, hu, rfl⟩ | ⟨-, u, hu, rfl⟩ | ⟨f, u, ⟨-, rfl⟩ | hu, -, rfl⟩⟩
  · exact w.reset _
  · exact k.refl _
  · rw [hu] at hk; exact k.trans _ _ _ hk (k.phase .idle u)
  · rw [hu] at hk; exact k.trans _ _ _ hk (w.reset _)
  · exact w.fault _ _
  · rw [hu] at hk; exact k.trans _ _ _ hk (w.fault _ _)

/-- A relation that the changes around a body keep too is kept by every instruction that goes on. -/
theorem kept_exec {P : State → State → Prop} (k : Kept P) (hs : ∀ s x, P s { s with sst := x }) (w : Around P)
    {i : Instr} {s t : State} (h : exec i s = .next t) : P s t := by
  have hop : operation i (bodyOf i) s = .next t → P s t := by
    intro h
    rcases operation_next h with ⟨-, rfl⟩ | ⟨-, -, -, rfl⟩ | ⟨-, -, -, rfl⟩ | ⟨-, -, -, h⟩
    · exact w.reset _
    · exact w.answer _ _ _
    · exact w.answer _ _ _
    · exact kept_finish k w (kept_bodyOf k hs i s) h
  rcases exec_cases i s with ⟨_, _, h1⟩ | ⟨_, _, h1 | h1⟩ | ⟨_, c, _, h1⟩ <;> rw [h1] at h
  · exact hop h
  · exact hop h
  · simp at h
  · exact kept_busCommand k w h

/-- The rest of a waiting operation. -/
theorem kept_resume {P : State → State → Prop} (k : Kept P) (op : BusyOp) (s : State) :
    P s ((awaitReady op s).andThen (afterBusy op)).state :=
  kept_andThen k (kept_awaitReady k op s) (kept_afterBusy k op)

end Sys2Proof.Machine
end

