-- ==== Sys2Proof/Laws/Phases.lean ====
section
/-! SUPPORT. What each phase procedure does, said once: from idle strobes and with no reset announced, the exact
state it leaves. -/

namespace Sys2Proof.Machine

/-! ### Events -/

/-- An event without a hazard, with no reset announced, takes place. -/
theorem emit_ok {e : Event} {s : State} (hr : s.resetAfter = none) (hz : hazard e s = none) :
    emit e s = .ok () (record e s) := by simp [emit, hr, hz]

/-- Events in two parts. -/
theorem emitAll_append (es fs : List Event) (s : State) :
    emitAll (es ++ fs) s = (emitAll es s).andThen (emitAll fs) := by
  induction es generalizing s with
  | nil => rfl
  | cons e es ih =>
    simp only [List.cons_append, emitAll, andThen_andThen]
    congr 1
    funext s
    exact ih s

/-- `WePulse(v)` up to the rising edge, with the strobes high and the lanes driven (R170). -/
theorem emitAll_wePulse_low (v : Byte) (s : State) (hr : s.resetAfter = none) (hre : s.lvl.reN = .high) :
    emitAll [.drive v, .gate .short, .ctl .weN false, .gate .wc] s =
      .ok () { s with
        dout := .byte v, lvl := { s.lvl with weN := .low }
        trace := [.gate .wc, .ctl .weN false, .gate .short, .drive v] ++ s.trace } := by
  obtain ⟨sst, ph, dir, dout, ⟨ceN, weN, reN, cle, ale, wpN⟩, oe, pending, ra, tr, rq, bc, fr, env, drv⟩ := s
  simp only at hr hre
  subst hr hre
  simp only [emitAll, emit, hazard, record, applyEvent, Levels.set, Level.ofBool, andThen_ok, react_drive,
    react_ctl_low, react_gate, reduceCtorEq, if_false, Option.map_none, List.cons_append, List.nil_append]

/-- `WePulse(v)` from the rising edge on (R170, R81): the oracle latches what the lanes show. -/
theorem emitAll_wePulse_high (v : Byte) (s : State) (hr : s.resetAfter = none) (hd : s.dir = .output)
    (ho : s.dout = .byte v) (hw : s.lvl.weN = .low) :
    emitAll [.ctl .weN true, .gate .hold, .gate .short] s =
      .ok () { s with
        lvl := { s.lvl with weN := .high }, trace := [.gate .short, .gate .hold, .ctl .weN true] ++ s.trace
        env := s.env.latched s.lvl (chipLatch s.lvl v) } := by
  obtain ⟨sst, ph, dir, dout, ⟨ceN, weN, reN, cle, ale, wpN⟩, oe, pending, ra, tr, rq, bc, fr, env, drv⟩ := s
  simp only at hr hd ho hw
  subst hr hd ho hw
  simp only [emitAll, emit, hazard, record, applyEvent, Levels.set, Level.ofBool, andThen_ok, react_gate,
    reduceCtorEq, if_false, Option.map_none, react_weN_rise, List.cons_append, List.nil_append]

/-- `WePulse(v)` with the strobes high and the lanes driven (R170): the latch takes v, the events are added, and the
oracle latches v. -/
theorem emitAll_wePulse (v : Byte) (s : State) (hr : s.resetAfter = none) (hd : s.dir = .output)
    (hw : s.lvl.weN = .high) (hre : s.lvl.reN = .high) :
    emitAll (wePulse v) s =
      .ok () { s with
        dout := .byte v, trace := (wePulse v).reverse ++ s.trace
        env := s.env.latched s.lvl (chipLatch s.lvl v) } := by
  have hs : wePulse v = [.drive v, .gate .short, .ctl .weN false, .gate .wc] ++
      [.ctl .weN true, .gate .hold, .gate .short] := rfl
  rw [hs, emitAll_append, emitAll_wePulse_low v s hr hre, andThen_ok]
  obtain ⟨sst, ph, dir, dout, ⟨ceN, weN, reN, cle, ale, wpN⟩, oe, pending, ra, tr, rq, bc, fr, env, drv⟩ := s
  simp only at hr hd hw
  subst hr hd hw
  rw [emitAll_wePulse_high v _ rfl rfl rfl rfl]
  simp [Env.latched, Env.selected, chipLatch]

/-- The oracle's input from a list of write pulses (R81). -/
def Env.latchAll (lvl : Levels) (vs : List Byte) (env : Env) : Env :=
  vs.foldl (fun e v => e.latched lvl (chipLatch lvl v)) env

/-- The output latch after driving a list of bytes. -/
def latchAfter (d : DataLatch) (vs : List Byte) : DataLatch := vs.foldl (fun _ v => .byte v) d

/-- A list of write pulses (R175, R176). -/
theorem emitAll_wePulses (vs : List Byte) (s : State) (hr : s.resetAfter = none) (hd : s.dir = .output)
    (hw : s.lvl.weN = .high) (hre : s.lvl.reN = .high) :
    emitAll (vs.flatMap wePulse) s =
      .ok () { s with
        dout := latchAfter s.dout vs, trace := (vs.flatMap wePulse).reverse ++ s.trace
        env := s.env.latchAll s.lvl vs } := by
  induction vs generalizing s with
  | nil => rfl
  | cons v vs ih =>
    rw [List.flatMap_cons, emitAll_append, emitAll_wePulse v s hr hd hw hre, andThen_ok,
      ih { s with dout := .byte v, trace := (wePulse v).reverse ++ s.trace,
                  env := s.env.latched s.lvl (chipLatch s.lvl v) } hr hd hw hre]
    simp [latchAfter, Env.latchAll]

/-! ### Phases -/

/-- `CmdPhase(c)` from idle strobes (R174). -/
theorem cmdPhase_idle (c : Byte) (s : State) (hr : s.resetAfter = none) (hi : s.strobesIdle = true) :
    cmdPhase c s =
      .ok () { s with
        ph := .command, dir := .output, dout := .byte c, trace := (cmdEvents c).reverse ++ s.trace
        env := s.env.latched s.lvl (chipCommand c) } := by
  obtain ⟨sst, ph, dir, dout, ⟨ceN, weN, reN, cle, ale, wpN⟩, oe, pending, ra, tr, rq, bc, fr, env, drv⟩ := s
  obtain ⟨rfl, rfl, rfl, rfl⟩ := (strobesIdle_iff _).mp hi
  simp only at hr
  subst hr
  simp only [cmdPhase, cmdEvents, emitAll_append, andThen_andThen]
  simp only [emitAll, emit, hazard, record, applyEvent, Levels.set, Level.ofBool, State.setPhase,
    Direction.ofLaneDir, andThen_ok, react_dir, react_ctl_cle, react_gate, reduceCtorEq, if_false, Option.map_none]
  rw [emitAll_wePulse c _ rfl rfl rfl rfl]
  simp [Env.latched, Env.selected, chipLatch]

/-- `AddrPhase(a)` with at least one byte, from idle strobes (R175). -/
theorem addrPhase_idle (a : List Byte) (ha : a ≠ []) (s : State) (hr : s.resetAfter = none)
    (hi : s.strobesIdle = true) :
    addrPhase a s =
      .ok () { s with
        ph := .address, dir := .output, dout := latchAfter s.dout a, trace := (addrEvents a).reverse ++ s.trace
        env := s.env.latchAll { s.lvl with ale := .high } a } := by
  obtain ⟨sst, ph, dir, dout, ⟨ceN, weN, reN, cle, ale, wpN⟩, oe, pending, ra, tr, rq, bc, fr, env, drv⟩ := s
  obtain ⟨rfl, rfl, rfl, rfl⟩ := (strobesIdle_iff _).mp hi
  simp only at hr
  subst hr
  simp only [addrPhase, addrEvents, if_neg ha, emitAll_append, andThen_andThen]
  simp only [emitAll, emit, hazard, record, applyEvent, Levels.set, Level.ofBool, State.setPhase,
    Direction.ofLaneDir, andThen_ok, react_dir, react_ctl_ale, react_gate, reduceCtorEq, if_false, Option.map_none]
  rw [emitAll_wePulses _ _ rfl rfl rfl rfl]
  simp

/-- `DoutPhase(buf)` with at least one byte, from idle strobes (R176). -/
theorem doutPhase_idle (buf : List Byte) (hb : buf ≠ []) (s : State) (hr : s.resetAfter = none)
    (hi : s.strobesIdle = true) :
    doutPhase buf s =
      .ok () { s with
        ph := .dataOut, dir := .output, dout := latchAfter s.dout buf, trace := (doutEvents buf).reverse ++ s.trace
        env := s.env.latchAll s.lvl buf } := by
  obtain ⟨sst, ph, dir, dout, ⟨ceN, weN, reN, cle, ale, wpN⟩, oe, pending, ra, tr, rq, bc, fr, env, drv⟩ := s
  obtain ⟨rfl, rfl, rfl, rfl⟩ := (strobesIdle_iff _).mp hi
  simp only at hr
  subst hr
  simp only [doutPhase, doutEvents, if_neg hb, emitAll_append]
  simp only [emitAll, emit, hazard, record, applyEvent, State.setPhase,
    Direction.ofLaneDir, andThen_ok, react_dir, reduceCtorEq, if_false, Option.map_none]
  rw [emitAll_wePulses _ _ rfl rfl rfl rfl]
  simp

/-! ### Reading -/

/-- One read cycle as the answers see it: a sample with RE_N low, then the rising edge (R171, R83). -/
def Env.readCycle (lvl : Levels) (env : Env) : Byte × Env :=
  ((env.answerBus { lvl with reN := .low } .input).1,
    (env.answerBus { lvl with reN := .low } .input).2.latched lvl chipReadAdvance)

/-- n read cycles. -/
def Env.readCycles (lvl : Levels) : Nat → Env → List Byte × Env
  | 0, env => ([], env)
  | n + 1, env =>
    ((env.readCycle lvl).1 :: (Env.readCycles lvl n (env.readCycle lvl).2).1,
      (Env.readCycles lvl n (env.readCycle lvl).2).2)

/-- The events of one read pulse that samples v (R171). -/
def rePulseEvents (v : Byte) : List Event := rePulseHead ++ [.sampBus v] ++ rePulseTail

/-- `RePulse()` with the strobes high and the lanes inputs (R171). -/
theorem rePulse_idle (s : State) (hr : s.resetAfter = none) (hd : s.dir = .input) (hw : s.lvl.weN = .high)
    (hre : s.lvl.reN = .high) :
    rePulse s =
      .ok (s.env.readCycle s.lvl).1
        { s with
          trace := (rePulseEvents (s.env.readCycle s.lvl).1).reverse ++ s.trace
          env := (s.env.readCycle s.lvl).2 } := by
  obtain ⟨sst, ph, dir, dout, ⟨ceN, weN, reN, cle, ale, wpN⟩, oe, pending, ra, tr, rq, bc, fr, env, drv⟩ := s
  simp only at hr hd hw hre
  subst hr hd hw hre
  simp only [rePulse, rePulseHead, rePulseTail, emitAll, emit, hazard, record, applyEvent, Levels.set, Level.ofBool,
    sampleBus, andThen_ok, bind_ok, react_ctl_low, react_gate, react_sampBus, reduceCtorEq, if_false, Option.map_none]
  rw [react_reN_rise rfl]
  simp [rePulseEvents, rePulseHead, rePulseTail, Env.readCycle, Env.latched, Env.selected]

/-- n read pulses (R177). -/
theorem readPulses_idle (n : Nat) (s : State) (hr : s.resetAfter = none) (hd : s.dir = .input)
    (hw : s.lvl.weN = .high) (hre : s.lvl.reN = .high) :
    readPulses n s =
      .ok (s.env.readCycles s.lvl n).1
        { s with
          trace := ((s.env.readCycles s.lvl n).1.flatMap rePulseEvents).reverse ++ s.trace
          env := (s.env.readCycles s.lvl n).2 } := by
  induction n generalizing s with
  | zero => rfl
  | succ n ih =>
    rw [readPulses, rePulse_idle s hr hd hw hre, bind_ok,
      ih { s with trace := (rePulseEvents (s.env.readCycle s.lvl).1).reverse ++ s.trace,
                  env := (s.env.readCycle s.lvl).2 } hr hd hw hre]
    simp [Env.readCycles]

/-- The events of a data-in phase that read the given bytes (R177). -/
def dinEvents (bytes : List Byte) : List Event := dinHead ++ bytes.flatMap rePulseEvents

/-- `DinPhase(n)` for n ≥ 1, from idle strobes (R177). -/
theorem dinPhase_idle (n : Nat) (hn : n ≠ 0) (s : State) (hr : s.resetAfter = none) (hi : s.strobesIdle = true) :
    dinPhase n s =
      .ok (s.env.readCycles s.lvl n).1
        { s with
          ph := .dataIn, dir := .input
          trace := (dinEvents (s.env.readCycles s.lvl n).1).reverse ++ s.trace
          env := (s.env.readCycles s.lvl n).2 } := by
  obtain ⟨hw, hre, -, -⟩ := (strobesIdle_iff _).mp hi
  rw [dinPhase, if_neg hn]
  have h0 : emitAll dinHead (s.setPhase .dataIn) =
      .ok () { s with ph := .dataIn, dir := .input, trace := dinHead.reverse ++ s.trace } := by
    simp [dinHead, emitAll, emit, hazard, record, applyEvent, State.setPhase, Direction.ofLaneDir, hr]
  rw [h0, andThen_ok, readPulses_idle n _ (by exact hr) rfl (by exact hw) (by exact hre)]
  simp [dinEvents]

/-- n read cycles give n bytes. -/
theorem readCycles_length (lvl : Levels) (n : Nat) (env : Env) : (env.readCycles lvl n).1.length = n := by
  induction n generalizing env with
  | zero => rfl
  | succ n ih => simp [Env.readCycles, ih]

/-- Reading leaves the array alone (R72). -/
theorem readCycles_arr (lvl : Levels) (n : Nat) (env : Env) : (env.readCycles lvl n).2.chip.arr = env.chip.arr := by
  induction n generalizing env with
  | zero => rfl
  | succ n ih =>
    simp only [Env.readCycles, ih, Env.readCycle]
    rw [latched_arr (chipReadAdvance_arr _), answerBus_chip]

/-- The read cycles of an external chip are the supplied draws in order (R16, R177). -/
theorem readCycles_external (lvl : Levels) (n : Nat) {env : Env} (ha : env.chip.attached = false)
    (hn : n ≤ env.busDraws.length) :
    env.readCycles lvl n = (env.busDraws.take n, { env with busDraws := env.busDraws.drop n }) := by
  induction n generalizing env with
  | zero => simp [Env.readCycles]
  | succ n ih =>
    obtain ⟨chip, bus, rb, held, bf, rf⟩ := env
    cases bus with
    | nil => simp at hn
    | cons v vs =>
      have h1 : Env.readCycle lvl ⟨chip, v :: vs, rb, held, bf, rf⟩ = (v, ⟨chip, vs, rb, held, bf, rf⟩) := by
        simp only [Env.readCycle, answerBus_external ha, Env.drawByte]
        rw [latched_external (by exact ha)]
      have h2 := ih (env := ⟨chip, vs, rb, held, bf, rf⟩) ha (by simpa using hn)
      simp only at h2
      simp [Env.readCycles, h1, h2]

/-! ### Busy wait -/

/-- The samples that `poll` takes, in order, and the answers after them. -/
def Env.pollAnswers (lvl : Levels) : Nat → Env → List Bool × Env
  | 0, env => ([(env.answerReady lvl).1], (env.answerReady lvl).2)
  | n + 1, env =>
    if (env.answerReady lvl).1 then ([true], (env.answerReady lvl).2)
    else
      (false :: (Env.pollAnswers lvl n (env.answerReady lvl).2).1,
        (Env.pollAnswers lvl n (env.answerReady lvl).2).2)

/-- `poll` with no reset announced: its value is its last sample. -/
theorem poll_eq (n : Nat) (s : State) (hr : s.resetAfter = none) :
    poll n s =
      .ok ((s.env.pollAnswers s.lvl n).1.getLastD false)
        { s with
          trace := ((s.env.pollAnswers s.lvl n).1.map Event.sampRB).reverse ++ s.trace
          env := (s.env.pollAnswers s.lvl n).2 } := by
  induction n generalizing s with
  | zero => simp [poll, sampleReady, hr, record, applyEvent, Env.pollAnswers]
  | succ n ih =>
    have hs : sampleReady s = .ok (s.env.answerReady s.lvl).1
        { s with
          trace := .sampRB (s.env.answerReady s.lvl).1 :: s.trace
          env := (s.env.answerReady s.lvl).2 } := by
      simp [sampleReady, hr, record, applyEvent]
    rw [poll, hs, bind_ok, Env.pollAnswers]
    cases h : (s.env.answerReady s.lvl).1
    · rw [if_neg (by simp), if_neg (by simp),
        ih { s with trace := .sampRB false :: s.trace, env := (s.env.answerReady s.lvl).2 } hr]
      have hne : (Env.pollAnswers s.lvl n (s.env.answerReady s.lvl).2).1 ≠ [] := by
        cases n <;> simp only [Env.pollAnswers, ne_eq]
        · simp
        · split <;> simp
      obtain ⟨x, xs, hx⟩ := List.exists_cons_of_ne_nil hne
      simp [hx]
    · simp

/-- A busy wait with no reset announced (R179): the first settle gate, the samples, and, if the last one reads
ready, the second settle gate; otherwise the operation waits. -/
theorem busyPhase_eq (op : BusyOp) (s : State) (hr : s.resetAfter = none) :
    busyPhase op s =
      if (s.env.pollAnswers s.lvl (s.env.knownReady s.lvl)).1.getLastD false then
        .ok () { s with
          ph := .busyWait
          trace := .gate .settle ::
            (((s.env.pollAnswers s.lvl (s.env.knownReady s.lvl)).1.map Event.sampRB).reverse ++
              .gate .settle :: s.trace)
          env := (s.env.pollAnswers s.lvl (s.env.knownReady s.lvl)).2 }
      else
        .stop (.waiting op) { s with
          ph := .busyWait
          trace := ((s.env.pollAnswers s.lvl (s.env.knownReady s.lvl)).1.map Event.sampRB).reverse ++
            .gate .settle :: s.trace
          env := (s.env.pollAnswers s.lvl (s.env.knownReady s.lvl)).2 } := by
  have h0 : emit (.gate .settle) (s.setPhase .busyWait) =
      .ok () { s with ph := .busyWait, trace := .gate .settle :: s.trace } := by
    simp [emit, hazard, record, applyEvent, State.setPhase, hr]
  rw [busyPhase, h0, andThen_ok, awaitReady, poll_eq _ _ (by exact hr), bind_ok]
  split
  · simp [emit, hazard, record, applyEvent, hr]
  · rfl

/-- Polling leaves the array alone. -/
theorem pollAnswers_arr (lvl : Levels) (n : Nat) (env : Env) :
    (env.pollAnswers lvl n).2.chip.arr = env.chip.arr := by
  induction n generalizing env with
  | zero => simp [Env.pollAnswers, answerReady_arr]
  | succ n ih =>
    simp only [Env.pollAnswers]
    split
    · simp [answerReady_arr]
    · simp [ih, answerReady_arr]

end Sys2Proof.Machine
end

