-- ==== Sys2Proof/Laws/Runs.lean ====
section
/-! SUPPORT. What the frame around an operation does, how long a busy wait polls, and what the transactions have done
when they come to their busy wait. -/

namespace Sys2Proof.Machine

/-! ### The frame -/

/-- While a session is open, an operation with legal operands runs its body (R301). -/
theorem operation_ready {i : Instr} {body : State → Run Reply} {s : State} (hs : s.sst = .ready)
    (ho : i.operandsOk = true) (hr : s.resetAfter = none) : operation i body s = finish (body s) := by
  simp [operation, sessionAdmits, hs, ho, hr]

/-- Strobes idle at entry: the composite operation goes on (R173). -/
theorem requireIdle_ok {s : State} (h : s.strobesIdle = true) : requireIdle s = .ok () s := by
  simp [requireIdle, h]

/-- Strobes not idle at entry: the composite operation faults (R173). -/
theorem requireIdle_fault {s : State} (h : s.strobesIdle = false) :
    requireIdle s = .stop (.fault .strobeNotIdle) s := by
  simp [requireIdle, h]

/-- The end of an operation, with its result frame (R181, R105). -/
theorem finish_complete (a : Reply) (s : State) (hr : s.resetAfter = none) :
    finish (complete a s) = .next { s with ph := .idle, frames := s.frames ++ [⟨a.1, a.2⟩] } :=
  deliver_none (s := (s.setPhase .done).setPhase .idle) hr a

/-- The result of one status byte (R222). -/
theorem resultOfStatusBytes_single (b : Byte) :
    resultOfStatusBytes [b] = (if b.getLsbD 0 then .statusError else .ok, [b]) := by
  cases h : b.getLsbD 0 <;> simp only [resultOfStatusBytes, resultOfStatus, statusFailed, h] <;> rfl

/-! ### Write pulses -/

/-- The output latch keeps the last byte driven. -/
theorem latchAfter_getLast (d : DataLatch) (vs : List Byte) (h : vs ≠ []) :
    latchAfter d vs = .byte (vs.getLast h) := by
  induction vs generalizing d with
  | nil => exact absurd rfl h
  | cons v vs ih =>
    by_cases h1 : vs = []
    · subst h1; rfl
    · rw [List.getLast_cons h1, ← ih (.byte v) h1]; rfl

/-- A chip that is not selected takes no input. -/
theorem latched_unselected {lvl : Levels} {env : Env} (h : env.selected lvl = false) (f : Chip → Chip) :
    env.latched lvl f = env := by simp [Env.latched, h]

/-- A chip that is not selected takes no input from write pulses. -/
theorem latchAll_unselected {lvl : Levels} (vs : List Byte) {env : Env} (h : env.selected lvl = false) :
    env.latchAll lvl vs = env := by
  induction vs with
  | nil => rfl
  | cons v vs ih => rw [Env.latchAll, List.foldl_cons, latched_unselected h]; exact ih

/-- An external chip takes no input from write pulses. -/
theorem latchAll_external (lvl : Levels) (vs : List Byte) {env : Env} (h : env.chip.attached = false) :
    env.latchAll lvl vs = env := by
  induction vs with
  | nil => rfl
  | cons v vs ih => rw [Env.latchAll, List.foldl_cons, latched_external h]; exact ih

/-- Write pulses that are no command leave the array alone. -/
theorem latchAll_arr {lvl : Levels} (hl : ¬(lvl.cle = .high ∧ lvl.ale = .low)) (vs : List Byte) (env : Env) :
    (env.latchAll lvl vs).chip.arr = env.chip.arr := by
  induction vs generalizing env with
  | nil => rfl
  | cons v vs ih =>
    show ((env.latched lvl (chipLatch lvl v)).latchAll lvl vs).chip.arr = _
    rw [ih, latched_arr]
    unfold chipLatch
    split
    · exact absurd ⟨‹_›, ‹_›⟩ hl
    · exact chipAddress_arr _ _
    · exact chipData_arr _ _
    · rfl

@[simp] theorem latchAll_rbDraws (lvl : Levels) (vs : List Byte) (env : Env) :
    (env.latchAll lvl vs).rbDraws = env.rbDraws := by
  induction vs generalizing env with
  | nil => rfl
  | cons v vs ih => exact (ih _).trans (latched_rbDraws _ _ _)

@[simp] theorem latchAll_busDraws (lvl : Levels) (vs : List Byte) (env : Env) :
    (env.latchAll lvl vs).busDraws = env.busDraws := by
  induction vs generalizing env with
  | nil => rfl
  | cons v vs ih => exact (ih _).trans (latched_busDraws _ _ _)

@[simp] theorem latchAll_heldBusy (lvl : Levels) (vs : List Byte) (env : Env) :
    (env.latchAll lvl vs).heldBusy = env.heldBusy := by
  induction vs generalizing env with
  | nil => rfl
  | cons v vs ih => exact (ih _).trans (latched_heldBusy _ _ _)

/-- Write pulses keep the parameters of the oracle. -/
theorem latchAll_params (lvl : Levels) (vs : List Byte) (env : Env) :
    (env.latchAll lvl vs).chip.params = env.chip.params := by
  induction vs generalizing env with
  | nil => rfl
  | cons v vs ih =>
    refine (ih _).trans ?_
    show (env.latched lvl (chipLatch lvl v)).chip.params = _
    unfold Env.latched
    split
    · exact chipLatch_params _ _ _
    · rfl

/-- One command byte keeps the parameters of the oracle. -/
theorem latched_command_params (lvl : Levels) (c : Byte) (env : Env) :
    (env.latched lvl (chipCommand c)).chip.params = env.chip.params := by
  unfold Env.latched
  split
  · exact chipCommand_params _ _
  · rfl

/-! ### Busy waits -/

/-- The samples of a poll are zero or more that read busy, then one. -/
theorem pollAnswers_shape (lvl : Levels) (n : Nat) (env : Env) :
    ∃ k r, (env.pollAnswers lvl n).1 = List.replicate k false ++ [r] ∧ k ≤ n ∧ (r = false → k = n) := by
  induction n generalizing env with
  | zero => exact ⟨0, _, rfl, le_refl _, fun _ => rfl⟩
  | succ n ih =>
    simp only [Env.pollAnswers]
    split
    · exact ⟨0, true, rfl, by omega, by simp⟩
    · obtain ⟨k, r, h1, h2, h3⟩ := ih (env.answerReady lvl).2
      exact ⟨k + 1, r, by simp [h1, List.replicate_succ], by omega, fun h => by rw [h3 h]⟩

/-- A selected oracle with a known busy count answers for the line. -/
theorem busyCount_known {lvl : Levels} {env : Env} {n : Nat} (hs : env.selected lvl = true)
    (hb : env.chip.busy = some n) : env.busyCount lvl = some n := by rw [Env.busyCount, if_pos hs, hb]

/-- An oracle that is not selected does not answer for the line. -/
theorem busyCount_unselected {lvl : Levels} {env : Env} (h : env.selected lvl = false) : env.busyCount lvl = none := by
  simp [Env.busyCount, h]

/-- Where the oracle answers for the line, it is selected and its busy count is known. -/
theorem busyCount_some {lvl : Levels} {env : Env} {n : Nat} (h : env.busyCount lvl = some n) :
    env.selected lvl = true ∧ env.chip.busy = some n := by
  unfold Env.busyCount at h
  split at h
  · exact ⟨‹_›, h⟩
  · simp at h

/-- Where the oracle does not answer for the line and nothing holds it, a sample is a draw (R16). -/
theorem answerReady_drawn {lvl : Levels} {env : Env} (h : env.busyCount lvl = none) (hh : env.heldBusy = false) :
    env.answerReady lvl = env.drawReady := by
  simp [Env.answerReady, h, hh]

/-- Where the answers are drawn, a poll ends at the first supplied ready answer (R16, R179). -/
theorem pollAnswers_drawn {lvl : Levels} {env : Env} (ha : env.busyCount lvl = none)
    (hh : env.heldBusy = false) (hr : true ∈ env.rbDraws) :
    env.pollAnswers lvl env.rbDraws.length =
      (List.replicate (env.rbDraws.idxOf true) false ++ [true],
        { env with rbDraws := env.rbDraws.drop (env.rbDraws.idxOf true + 1) }) := by
  induction hrb : env.rbDraws generalizing env with
  | nil => simp [hrb] at hr
  | cons r rb ih =>
    have h1 : env.answerReady lvl = (r, { env with rbDraws := rb }) := by
      rw [answerReady_drawn ha hh, Env.drawReady, hrb]
    simp only [List.length_cons, Env.pollAnswers, h1]
    cases r
    · have h2 := ih (env := { env with rbDraws := rb }) ha hh (by simpa [hrb] using hr) rfl
      simp [h2, List.replicate_succ]
    · simp

/-- Where the oracle answers, a poll ends when its busy count has run out (R83). -/
theorem pollAnswers_counted {lvl : Levels} {env : Env} {n : Nat} (hs : env.busyCount lvl = some n)
    (hh : env.heldBusy = false) :
    env.pollAnswers lvl n =
      (List.replicate n false ++ [true], { env with chip := { env.chip with busy := some 0 } }) := by
  induction n generalizing env with
  | zero =>
    have h1 : env.answerReady lvl = (true, env) := by simp [Env.answerReady, hs, hh]
    have h2 : { env with chip := { env.chip with busy := some 0 } } = env := by rw [← (busyCount_some hs).2]
    simp [Env.pollAnswers, h1, h2]
  | succ n ih =>
    have h1 : env.answerReady lvl = (false, { env with chip := { env.chip with busy := some n } }) := by
      simp [Env.answerReady, hs, hh]
    have h2 := ih (env := { env with chip := { env.chip with busy := some n } })
      (busyCount_known (by exact (busyCount_some hs).1) (by rfl)) hh
    simp only [Env.pollAnswers, h1]
    simp [h2, List.replicate_succ]

/-- A chip that holds the line gives one sample that reads busy (R180). -/
theorem pollAnswers_held (lvl : Levels) {env : Env} (hh : env.heldBusy = true) :
    env.pollAnswers lvl 0 = ([false], env) := by
  simp [Env.pollAnswers, Env.answerReady, hh]

/-- How many samples of a busy wait read busy before the first that reads ready. -/
def Env.busySamples (lvl : Levels) (env : Env) : Nat := (env.busyCount lvl).getD (env.rbDraws.idxOf true)

/-- The answers after a busy wait that ended. -/
def Env.waited (lvl : Levels) (env : Env) : Env :=
  match env.busyCount lvl with
  | some _ => { env with chip := { env.chip with busy := some 0 } }
  | none => { env with rbDraws := env.rbDraws.drop (env.rbDraws.idxOf true + 1) }

/-- A poll where a ready sample comes. -/
theorem pollAnswers_ready {lvl : Levels} {env : Env} (hh : env.heldBusy = false)
    (hc : (env.busyCount lvl).isSome = true ∨ true ∈ env.rbDraws) :
    env.pollAnswers lvl (env.knownReady lvl) =
      (List.replicate (env.busySamples lvl) false ++ [true], env.waited lvl) := by
  cases hs : env.busyCount lvl
  · simpa [Env.knownReady, Env.busySamples, Env.waited, hs, hh] using
      pollAnswers_drawn hs hh (by simpa [hs] using hc)
  · simpa [Env.knownReady, Env.busySamples, Env.waited, hs, hh] using pollAnswers_counted hs hh

/-- The rest of a busy wait, after its first settle gate, where a ready sample comes (R179). -/
theorem awaitReady_ready (op : BusyOp) {s : State} (hr : s.resetAfter = none) (hh : s.env.heldBusy = false)
    (hc : (s.env.busyCount s.lvl).isSome = true ∨ true ∈ s.env.rbDraws) :
    awaitReady op s =
      .ok () { s with
        trace := .gate .settle :: .sampRB true ::
          (List.replicate (s.env.busySamples s.lvl) (Event.sampRB false) ++ s.trace)
        env := s.env.waited s.lvl } := by
  rw [awaitReady, poll_eq _ _ hr, bind_ok, pollAnswers_ready hh hc]
  simp [emit, hazard, record, applyEvent, hr]

/-- The rest of a busy wait while the chip holds the line: one busy sample, and the operation still waits (R180). -/
theorem awaitReady_held (op : BusyOp) {s : State} (hr : s.resetAfter = none) (hh : s.env.heldBusy = true) :
    awaitReady op s = .stop (.waiting op) { s with trace := .sampRB false :: s.trace } := by
  have hk : s.env.knownReady s.lvl = 0 := by simp [Env.knownReady, hh]
  rw [awaitReady, hk, poll_eq _ _ hr, bind_ok, pollAnswers_held _ hh]
  simp

/-- The first settle gate of a busy wait (R179). -/
theorem busyPhase_start (op : BusyOp) {s : State} (hr : s.resetAfter = none) :
    busyPhase op s = awaitReady op { s with ph := .busyWait, trace := .gate .settle :: s.trace } := by
  have h0 : emit (.gate .settle) (s.setPhase .busyWait) =
      .ok () { s with ph := .busyWait, trace := .gate .settle :: s.trace } := by
    simp [emit, hazard, record, applyEvent, State.setPhase, hr]
  rw [busyPhase, h0, andThen_ok]

theorem waited_arr (lvl : Levels) (env : Env) : (env.waited lvl).chip.arr = env.chip.arr := by
  unfold Env.waited; split <;> rfl
@[simp] theorem waited_busDraws (lvl : Levels) (env : Env) : (env.waited lvl).busDraws = env.busDraws := by
  unfold Env.waited; split <;> rfl
theorem waited_params (lvl : Levels) (env : Env) : (env.waited lvl).chip.params = env.chip.params := by
  unfold Env.waited; split <;> rfl

/-! ### Transactions up to their busy wait -/

/-- The answers after a command, an address and a second command (R200). -/
def Env.addressed (lvl : Levels) (c : Byte) (a : List Byte) (c2 : Byte) (env : Env) : Env :=
  Env.latched lvl (chipCommand c2) (Env.latchAll { lvl with ale := .high } a (env.latched lvl (chipCommand c)))

/-- The answers after a command, an address, data and a second command (R200). -/
def Env.programmed (lvl : Levels) (c : Byte) (a buf : List Byte) (c2 : Byte) (env : Env) : Env :=
  Env.latched lvl (chipCommand c2)
    (Env.latchAll lvl buf (Env.latchAll { lvl with ale := .high } a (env.latched lvl (chipCommand c))))

/-- A command, an address and a second command from idle strobes: the start of Read-Page and Erase-Block (R200). -/
theorem addressed_run {α : Type} (c : Byte) (a : List Byte) (ha : a ≠ []) (c2 : Byte) (f : State → Run α) (s : State)
    (hr : s.resetAfter = none) (hi : s.strobesIdle = true) :
    ((cmdPhase c s).andThen fun s => (addrPhase a s).andThen fun s => (cmdPhase c2 s).andThen f) =
      f { s with
        ph := .command, dir := .output, dout := .byte c2
        trace := (cmdEvents c ++ addrEvents a ++ cmdEvents c2).reverse ++ s.trace
        env := s.env.addressed s.lvl c a c2 } := by
  rw [cmdPhase_idle c s hr hi, andThen_ok, addrPhase_idle a ha _ (by exact hr) (by exact hi), andThen_ok,
    cmdPhase_idle c2 _ (by exact hr) (by exact hi), andThen_ok]
  simp [Env.addressed]

/-- A command, an address, data and a second command from idle strobes: the start of Write-Page (R200). -/
theorem programmed_run {α : Type} (c : Byte) (a : List Byte) (ha : a ≠ []) (buf : List Byte) (hb : buf ≠ [])
    (c2 : Byte) (f : State → Run α) (s : State) (hr : s.resetAfter = none) (hi : s.strobesIdle = true) :
    ((cmdPhase c s).andThen fun s => (addrPhase a s).andThen fun s => (doutPhase buf s).andThen fun s =>
        (cmdPhase c2 s).andThen f) =
      f { s with
        ph := .command, dir := .output, dout := .byte c2
        trace := (cmdEvents c ++ addrEvents a ++ doutEvents buf ++ cmdEvents c2).reverse ++ s.trace
        env := s.env.programmed s.lvl c a buf c2 } := by
  rw [cmdPhase_idle c s hr hi, andThen_ok, addrPhase_idle a ha _ (by exact hr) (by exact hi), andThen_ok,
    doutPhase_idle buf hb _ (by exact hr) (by exact hi), andThen_ok,
    cmdPhase_idle c2 _ (by exact hr) (by exact hi), andThen_ok]
  simp [Env.programmed]

/-- `StatusTxn()` from idle strobes: one byte (R202). -/
theorem statusTxn_idle (s : State) (hr : s.resetAfter = none) (hi : s.strobesIdle = true) :
    statusTxn s =
      .ok [((s.env.latched s.lvl (chipCommand 0x70#8)).readCycle s.lvl).1]
        { s with
          ph := .dataIn, dir := .input, dout := .byte 0x70#8
          trace := (cmdEvents 0x70#8 ++
            dinEvents [((s.env.latched s.lvl (chipCommand 0x70#8)).readCycle s.lvl).1]).reverse ++ s.trace
          env := ((s.env.latched s.lvl (chipCommand 0x70#8)).readCycle s.lvl).2 } := by
  rw [statusTxn, cmdPhase_idle _ s hr hi, andThen_ok, dinPhase_idle 1 (by decide) _ (by exact hr) (by exact hi)]
  simp [Env.readCycles]

/-- A chip that is not selected takes nothing from these cycles. -/
theorem addressed_unselected {lvl : Levels} (c : Byte) (a : List Byte) (c2 : Byte) {env : Env}
    (h : env.selected lvl = false) : env.addressed lvl c a c2 = env := by
  rw [Env.addressed, latched_unselected h, latchAll_unselected _ (by exact h), latched_unselected h]

/-- A chip that is not selected takes nothing from these cycles. -/
theorem programmed_unselected {lvl : Levels} (c : Byte) (a buf : List Byte) (c2 : Byte) {env : Env}
    (h : env.selected lvl = false) : env.programmed lvl c a buf c2 = env := by
  have h1 : env.latchAll { lvl with ale := .high } a = env := latchAll_unselected _ (by exact h)
  rw [Env.programmed, latched_unselected h, h1, latchAll_unselected _ h, latched_unselected h]

/-- An external chip is not selected. -/
theorem selected_external {env : Env} (h : env.chip.attached = false) (lvl : Levels) : env.selected lvl = false := by
  simp [Env.selected, h]

@[simp] theorem addressed_rbDraws (lvl : Levels) (c : Byte) (a : List Byte) (c2 : Byte) (env : Env) :
    (env.addressed lvl c a c2).rbDraws = env.rbDraws := by simp [Env.addressed]
@[simp] theorem addressed_busDraws (lvl : Levels) (c : Byte) (a : List Byte) (c2 : Byte) (env : Env) :
    (env.addressed lvl c a c2).busDraws = env.busDraws := by simp [Env.addressed]
@[simp] theorem addressed_heldBusy (lvl : Levels) (c : Byte) (a : List Byte) (c2 : Byte) (env : Env) :
    (env.addressed lvl c a c2).heldBusy = env.heldBusy := by simp [Env.addressed]
@[simp] theorem programmed_rbDraws (lvl : Levels) (c : Byte) (a buf : List Byte) (c2 : Byte) (env : Env) :
    (env.programmed lvl c a buf c2).rbDraws = env.rbDraws := by simp [Env.programmed]
@[simp] theorem programmed_busDraws (lvl : Levels) (c : Byte) (a buf : List Byte) (c2 : Byte) (env : Env) :
    (env.programmed lvl c a buf c2).busDraws = env.busDraws := by simp [Env.programmed]
@[simp] theorem programmed_heldBusy (lvl : Levels) (c : Byte) (a buf : List Byte) (c2 : Byte) (env : Env) :
    (env.programmed lvl c a buf c2).heldBusy = env.heldBusy := by simp [Env.programmed]

theorem addressed_params (lvl : Levels) (c : Byte) (a : List Byte) (c2 : Byte) (env : Env) :
    (env.addressed lvl c a c2).chip.params = env.chip.params :=
  (latched_command_params _ _ _).trans ((latchAll_params _ _ _).trans (latched_command_params _ _ _))

theorem programmed_params (lvl : Levels) (c : Byte) (a buf : List Byte) (c2 : Byte) (env : Env) :
    (env.programmed lvl c a buf c2).chip.params = env.chip.params :=
  (latched_command_params _ _ _).trans
    ((latchAll_params _ _ _).trans ((latchAll_params _ _ _).trans (latched_command_params _ _ _)))

end Sys2Proof.Machine
end

