-- ==== Sys2Proof/Laws/Oracle.lean ====
section
/-! SUPPORT. What the reference chip oracle holds after the cycles of each transaction (spec/20_memory.md R82, R83). -/

namespace Sys2Proof.Machine

/-! ### Rows -/

/-- The row bytes of a page address carry the page (R63). -/
theorem rowOfBytes_page (p : Arg24) :
    rowOfBytes (p.extractLsb' 0 8) (p.extractLsb' 8 8) (p.extractLsb' 16 8) = p.toNat := by
  simp only [rowOfBytes, BitVec.extractLsb'_toNat]
  have := p.isLt
  omega

/-- A legal block's row does not wrap (R110). -/
theorem blockRow_toNat {b : Arg24} (h : b.toNat * 64 < 2 ^ 24) : (blockRow b).toNat = b.toNat * 64 := by
  simp only [blockRow, pagesPerBlock, BitVec.toNat_mul, BitVec.toNat_ofNat]
  omega

/-! ### The oracle through the cycles of a transaction -/

/-- Write pulses that are no command leave the oracle attached. -/
theorem foldl_chipLatch_attached {lvl : Levels} (hc : lvl.cle ≠ .high ∨ lvl.ale ≠ .low) (vs : List Byte) (ch : Chip) :
    (vs.foldl (fun ch v => chipLatch lvl v ch) ch).attached = ch.attached := by
  induction vs generalizing ch with
  | nil => rfl
  | cons v vs ih => exact (ih _).trans (chipLatch_attached hc v ch)

/-- Write pulses that are no command, to a selected oracle. -/
theorem latchAll_selected {lvl : Levels} (hc : lvl.cle ≠ .high ∨ lvl.ale ≠ .low) (vs : List Byte) {env : Env}
    (h : env.selected lvl = true) :
    env.latchAll lvl vs = { env with chip := vs.foldl (fun ch v => chipLatch lvl v ch) env.chip } := by
  induction vs generalizing env with
  | nil => rfl
  | cons v vs ih =>
    show (env.latched lvl (chipLatch lvl v)).latchAll lvl vs = _
    rw [latched_selected h, ih (by simpa [Env.selected, chipLatch_attached hc] using h)]
    rfl

/-- The page register after data cycles from a column (R81). -/
theorem data_cycles {lvl : Levels} (hc : lvl.cle = .low) (ha : lvl.ale = .low) (vs : List Byte) (ch : Chip)
    (hm : ch.mode = .prog) (hl : ch.col + vs.length ≤ ch.preg.length) :
    vs.foldl (fun ch v => chipLatch lvl v ch) ch =
      { ch with
        preg := ch.preg.take ch.col ++ vs ++ ch.preg.drop (ch.col + vs.length)
        col := ch.col + vs.length } := by
  induction vs generalizing ch with
  | nil => simp
  | cons v vs ih =>
    have h1 : chipLatch lvl v ch = { ch with preg := ch.preg.set ch.col v, col := ch.col + 1 } := by
      simp [chipLatch, hc, ha, chipData, hm]
    simp only [List.length_cons] at hl
    rw [List.foldl_cons, h1, ih _ (by exact hm) (by simp only [List.length_set]; omega)]
    have h2 : (ch.preg.set ch.col v).take (ch.col + 1) = ch.preg.take ch.col ++ [v] := by
      rw [List.take_add_one, List.take_set_of_le (le_refl _), List.getElem?_set_self (by omega)]
      rfl
    have h3 : (ch.preg.set ch.col v).drop (ch.col + 1 + vs.length) =
        ch.preg.drop (ch.col + (vs.length + 1)) := by
      rw [List.drop_set_of_lt (by omega)]
      congr 1; omega
    simp only [h2, h3, List.append_assoc, List.singleton_append, List.length_cons]
    congr 1; omega

/-- A whole page of data cycles after a program setup and address fills the page register (R82). -/
theorem data_cycles_page {lvl : Levels} (hc : lvl.cle = .low) (ha : lvl.ale = .low) (vs : List Byte)
    (hv : vs.length = pageSize) (ch : Chip) (hm : ch.mode = .prog) (h0 : ch.col = 0)
    (hp : ch.preg.length = pageSize) :
    vs.foldl (fun ch v => chipLatch lvl v ch) ch = { ch with preg := vs, col := pageSize } := by
  rw [data_cycles hc ha vs ch hm (by omega)]
  simp [h0, hv, hp]

/-- Read-Page up to its confirm: the address is complete, and the confirm comes (R82). -/
theorem addressed_page {lvl : Levels} (hi : lvl.strobesIdle = true) {env : Env} (h : env.selected lvl = true)
    (p : Arg24) :
    env.addressed lvl 0x00#8 (addrPage p) 0x30#8 =
      { env with chip := chipReadConfirm { env.chip with mode := .readSetup, abuf := addrPage p } } := by
  obtain ⟨-, -, hc, -⟩ := (strobesIdle_iff _).mp hi
  have hs : ∀ e : Env, e.chip.attached = env.chip.attached → e.selected { lvl with ale := .high } = true :=
    fun e he => by simp only [Env.selected, he] at h ⊢; exact h
  have hs' : ∀ e : Env, e.chip.attached = env.chip.attached → e.selected lvl = true :=
    fun e he => by simp only [Env.selected, he] at h ⊢; exact h
  rw [Env.addressed, latched_selected h,
    latchAll_selected (.inr (by simp)) _ (hs _ (chipCommand_attached (by decide) (by decide) _)),
    latched_selected (hs' _ ?_)]
  · simp [chipLatch, hc, chipAddress, chipAddressed, chipCommand, addrPage]
  · exact (foldl_chipLatch_attached (.inr (by simp)) _ _).trans (chipCommand_attached (by decide) (by decide) _)

/-- The oracle at the busy wait of Read-Page (R82). -/
theorem addressed_read {lvl : Levels} (hi : lvl.strobesIdle = true) {env : Env} (h : env.selected lvl = true)
    {p : Arg24} (hn : p.toNat < env.chip.numPages) :
    env.addressed lvl 0x00#8 (addrPage p) 0x30#8 =
      { env with chip := { env.chip with
          mode := .read, abuf := addrPage p, col := 0, busy := some env.chip.kRead
          preg := env.chip.arr.page p.toNat } } := by
  rw [addressed_page hi h p]
  simp [addrPage, chipReadConfirm, rowOfBytes_page, colOfBytes, hn]

/-- An oracle that does not have the page: no busy count is known, and no byte to drive (R73). -/
theorem addressed_read_absent {lvl : Levels} (hi : lvl.strobesIdle = true) {env : Env}
    (h : env.selected lvl = true) {p : Arg24} (hn : ¬p.toNat < env.chip.numPages) :
    env.addressed lvl 0x00#8 (addrPage p) 0x30#8 =
      { env with chip := { env.chip with mode := .read, abuf := addrPage p, col := 0, busy := none, preg := [] } } := by
  rw [addressed_page hi h p]
  simp [addrPage, chipReadConfirm, rowOfBytes_page, colOfBytes, hn]

/-- The oracle at the busy wait of Erase-Block (R82). -/
theorem addressed_erase {lvl : Levels} (hi : lvl.strobesIdle = true) {env : Env} (h : env.selected lvl = true)
    {b : Arg24} (hb : b.toNat * 64 < 2 ^ 24) (hn : b.toNat * 64 < env.chip.numPages) :
    env.addressed lvl 0x60#8 (addrRow b) 0xD0#8 =
      { env with chip := { env.chip with
          mode := .none, abuf := addrRow b, busy := some env.chip.kErase
          stat := chipStatus env.chip.failErase (b.toNat * 64)
          arr := env.chip.arr.eraseRange (byteAddress (b.toNat * 64) 0)
            (byteAddress (blockEnd env.chip.numPages b.toNat) 0) } } := by
  obtain ⟨-, -, hc, -⟩ := (strobesIdle_iff _).mp hi
  have hs : ∀ e : Env, e.chip.attached = env.chip.attached → e.selected { lvl with ale := .high } = true :=
    fun e he => by simp only [Env.selected, he] at h ⊢; exact h
  have hs' : ∀ e : Env, e.chip.attached = env.chip.attached → e.selected lvl = true :=
    fun e he => by simp only [Env.selected, he] at h ⊢; exact h
  have hd : b.toNat * 64 / pagesPerBlock = b.toNat := by simp [pagesPerBlock]
  rw [Env.addressed, latched_selected h,
    latchAll_selected (.inr (by simp)) _ (hs _ (chipCommand_attached (by decide) (by decide) _)),
    latched_selected (hs' _ ?_)]
  · simp [chipLatch, hc, chipAddress, chipAddressed, chipCommand, addrRow, chipEraseConfirm, rowOfBytes_page,
      blockRow_toNat hb, hd, hn]
    rfl
  · exact (foldl_chipLatch_attached (.inr (by simp)) _ _).trans (chipCommand_attached (by decide) (by decide) _)

/-- An oracle that does not have the row answers no more once its erase is confirmed, and its array is as before (R73). -/
theorem addressed_erase_absent {lvl : Levels} (hi : lvl.strobesIdle = true) {env : Env} (h : env.selected lvl = true)
    {b : Arg24} (hb : b.toNat * 64 < 2 ^ 24) (hn : ¬b.toNat * 64 < env.chip.numPages) :
    env.addressed lvl 0x60#8 (addrRow b) 0xD0#8 =
      { env with chip := { env.chip with mode := .eraseSetup, abuf := addrRow b, attached := false } } := by
  obtain ⟨-, -, hc, -⟩ := (strobesIdle_iff _).mp hi
  have hs : ∀ e : Env, e.chip.attached = env.chip.attached → e.selected { lvl with ale := .high } = true :=
    fun e he => by simp only [Env.selected, he] at h ⊢; exact h
  have hs' : ∀ e : Env, e.chip.attached = env.chip.attached → e.selected lvl = true :=
    fun e he => by simp only [Env.selected, he] at h ⊢; exact h
  rw [Env.addressed, latched_selected h,
    latchAll_selected (.inr (by simp)) _ (hs _ (chipCommand_attached (by decide) (by decide) _)),
    latched_selected (hs' _ ?_)]
  · simp [chipLatch, hc, chipAddress, chipAddressed, chipCommand, addrRow, chipEraseConfirm, rowOfBytes_page,
      blockRow_toNat hb, hn, chipUnknown]
  · exact (foldl_chipLatch_attached (.inr (by simp)) _ _).trans (chipCommand_attached (by decide) (by decide) _)

/-- Write-Page up to its confirm: the page register holds the bytes, and the confirm comes (R82). -/
theorem programmed_page {lvl : Levels} (hi : lvl.strobesIdle = true) {env : Env} (h : env.selected lvl = true)
    (p : Arg24) {buf : List Byte} (hb : buf.length = pageSize) :
    env.programmed lvl 0x80#8 (addrPage p) buf 0x10#8 =
      { env with
        chip := chipCommand 0x10#8
          { env.chip with mode := .prog, abuf := addrPage p, preg := buf, col := pageSize } } := by
  obtain ⟨-, -, hc, ha⟩ := (strobesIdle_iff _).mp hi
  have hs : ∀ e : Env, e.chip.attached = env.chip.attached → e.selected { lvl with ale := .high } = true :=
    fun e he => by simp only [Env.selected, he] at h ⊢; exact h
  have hs' : ∀ e : Env, e.chip.attached = env.chip.attached → e.selected lvl = true :=
    fun e he => by simp only [Env.selected, he] at h ⊢; exact h
  have h1 : (addrPage p).foldl (fun ch v => chipLatch { lvl with ale := .high } v ch)
      (chipCommand 0x80#8 env.chip) =
      { env.chip with
        mode := .prog, abuf := addrPage p, col := 0, preg := List.replicate pageSize Memory.unlisted } := by
    simp [chipLatch, hc, chipAddress, chipAddressed, chipCommand, addrPage, chipProgramSetup, colOfBytes]
  rw [Env.programmed, latched_selected h,
    latchAll_selected (.inr (by simp)) _ (hs _ (chipCommand_attached (by decide) (by decide) _))]
  simp only [h1]
  rw [latchAll_selected (.inl (by simp [hc])) _ (hs' _ (by rfl)), latched_selected (hs' _ ?_)]
  all_goals rw [data_cycles_page hc ha buf hb _ (by rfl) (by rfl) (by simp)]

/-- The oracle at the busy wait of Write-Page (R82). -/
theorem programmed_write {lvl : Levels} (hi : lvl.strobesIdle = true) {env : Env} (h : env.selected lvl = true)
    {p : Arg24} {buf : List Byte} (hb : buf.length = pageSize) (hn : p.toNat < env.chip.numPages) :
    env.programmed lvl 0x80#8 (addrPage p) buf 0x10#8 =
      { env with chip := { env.chip with
          mode := .none, abuf := addrPage p, busy := some env.chip.kProg, preg := buf, col := pageSize
          stat := chipStatus env.chip.failProg p.toNat
          arr := env.chip.arr.program (byteAddress p.toNat 0) buf } } := by
  have ht : buf.take pageSize = buf := by rw [← hb, List.take_length]
  rw [programmed_page hi h p hb]
  simp [chipCommand, chipProgramConfirm, addrPage, rowOfBytes_page, ht, hn]

/-- An oracle that does not have the page answers no more once its program is confirmed, and its array is as before
(R73). -/
theorem programmed_write_absent {lvl : Levels} (hi : lvl.strobesIdle = true) {env : Env}
    (h : env.selected lvl = true) {p : Arg24} {buf : List Byte} (hb : buf.length = pageSize)
    (hn : ¬p.toNat < env.chip.numPages) :
    env.programmed lvl 0x80#8 (addrPage p) buf 0x10#8 =
      { env with chip := { env.chip with
          mode := .prog, abuf := addrPage p, preg := buf, col := pageSize, attached := false } } := by
  rw [programmed_page hi h p hb]
  simp [chipCommand, chipProgramConfirm, addrPage, rowOfBytes_page, hn, chipUnknown]

/-- A ready sample comes after a read confirm of a page that the oracle has, or where a supplied answer reads ready. -/
theorem addressed_read_ready {lvl : Levels} (hi : lvl.strobesIdle = true) {env : Env} {p : Arg24}
    (hc : (env.selected lvl = true ∧ p.toNat < env.chip.numPages) ∨ true ∈ env.rbDraws) :
    let e := env.addressed lvl 0x00#8 (addrPage p) 0x30#8
    (e.busyCount lvl).isSome = true ∨ true ∈ e.rbDraws := by
  rcases hc with ⟨h, hn⟩ | h
  · exact .inl (by rw [addressed_read hi h hn, busyCount_known (by exact h) (by rfl)]; rfl)
  · exact .inr (by simpa using h)

/-- The same after an erase confirm. -/
theorem addressed_erase_ready {lvl : Levels} (hi : lvl.strobesIdle = true) {env : Env} {b : Arg24}
    (hb : b.toNat * 64 < 2 ^ 24)
    (hc : (env.selected lvl = true ∧ b.toNat * 64 < env.chip.numPages) ∨ true ∈ env.rbDraws) :
    let e := env.addressed lvl 0x60#8 (addrRow b) 0xD0#8
    (e.busyCount lvl).isSome = true ∨ true ∈ e.rbDraws := by
  rcases hc with ⟨h, hn⟩ | h
  · exact .inl (by rw [addressed_erase hi h hb hn, busyCount_known (by exact h) (by rfl)]; rfl)
  · exact .inr (by simpa using h)

/-- The same after a program confirm. -/
theorem programmed_write_ready {lvl : Levels} (hi : lvl.strobesIdle = true) {env : Env} {p : Arg24} {buf : List Byte}
    (hb : buf.length = pageSize)
    (hc : (env.selected lvl = true ∧ p.toNat < env.chip.numPages) ∨ true ∈ env.rbDraws) :
    let e := env.programmed lvl 0x80#8 (addrPage p) buf 0x10#8
    (e.busyCount lvl).isSome = true ∨ true ∈ e.rbDraws := by
  rcases hc with ⟨h, hn⟩ | h
  · exact .inl (by rw [programmed_write hi h hb hn, busyCount_known (by exact h) (by rfl)]; rfl)
  · exact .inr (by simpa using h)

/-- Programming leaves every address outside its range alone. -/
theorem read_program_outside (m : Memory) (a : Nat) (vs : List Byte) {b : Nat} (h : b < a ∨ a + vs.length ≤ b) :
    (m.program a vs).read b = m.read b := by
  induction vs generalizing m a with
  | nil => rfl
  | cons v vs ih =>
    simp only [List.length_cons] at h
    rw [Memory.program, ih _ _ (by omega), read_write_other _ _ (by omega)]

/-! ### What a selected oracle answers -/

/-- One read cycle of a selected oracle that has a byte to drive (R83). -/
theorem readCycle_selected {lvl : Levels} {env : Env} (h : env.selected lvl = true) {v : Byte}
    (ho : chipOutput env.chip = some v) :
    env.readCycle lvl = (v, { env with chip := chipReadAdvance env.chip }) := by
  have h1 : env.answerBus { lvl with reN := .low } .input = (v, env) := by
    have h2 : env.selected { lvl with reN := .low } = true := h
    simp [Env.answerBus, h2, ho]
  rw [Env.readCycle, h1]
  simp only [latched_selected h]

/-- Read-Page: the page register's bytes from the column on (R83). -/
theorem readCycles_page {lvl : Levels} (n : Nat) {env : Env} (h : env.selected lvl = true)
    (hm : env.chip.mode = .read) (hp : env.chip.preg.length = pageSize) (hc : env.chip.col + n ≤ pageSize) :
    (env.readCycles lvl n).1 = (env.chip.preg.drop env.chip.col).take n := by
  induction n generalizing env with
  | zero => simp [Env.readCycles]
  | succ n ih =>
    have hlt : env.chip.col < env.chip.preg.length := by omega
    have ho : chipOutput env.chip = some env.chip.preg[env.chip.col] := by
      simp [chipOutput, hm, show env.chip.col < pageSize by omega, hlt]
    have ha : chipReadAdvance env.chip = { env.chip with col := env.chip.col + 1 } := by
      simp [chipReadAdvance, hm]
    rw [Env.readCycles, readCycle_selected h ho, ha]
    simp only
    rw [ih (by exact h) (by exact hm) (by exact hp) (by show env.chip.col + 1 + n ≤ _; omega)]
    simp only
    rw [List.drop_eq_getElem_cons hlt, List.take_succ_cons]

/-- Read-Status: the status byte (R82, R83). -/
theorem readCycle_status {lvl : Levels} {env : Env} (h : env.selected lvl = true) :
    ((env.latched lvl (chipCommand 0x70#8)).readCycle lvl).1 = env.chip.stat := by
  rw [latched_selected h]
  exact congrArg Prod.fst (readCycle_selected (lvl := lvl) (env := { env with chip := chipCommand 0x70#8 env.chip })
    (by exact h) (v := env.chip.stat) rfl)

/-- Read-ID: the identity bytes from the index on (R82, R83). -/
theorem readCycles_id {lvl : Levels} (n : Nat) {env : Env} (h : env.selected lvl = true)
    (hm : env.chip.mode = .id) (hl : env.chip.id.length = idLen) (hc : env.chip.idx + n ≤ idLen) :
    (env.readCycles lvl n).1 = (env.chip.id.drop env.chip.idx).take n := by
  induction n generalizing env with
  | zero => simp [Env.readCycles]
  | succ n ih =>
    have hlt : env.chip.idx < env.chip.id.length := by omega
    have ho : chipOutput env.chip = some env.chip.id[env.chip.idx] := by
      simp [chipOutput, hm, show env.chip.idx < idLen by omega, hlt]
    have ha : chipReadAdvance env.chip = { env.chip with idx := env.chip.idx + 1 } := by
      simp [chipReadAdvance, hm]
    rw [Env.readCycles, readCycle_selected h ho, ha]
    simp only
    rw [ih (by exact h) (by exact hm) (by exact hl) (by show env.chip.idx + 1 + n ≤ _; omega)]
    simp only
    rw [List.drop_eq_getElem_cons hlt, List.take_succ_cons]

end Sys2Proof.Machine
end

