-- ==== Sys2Proof/Laws/PerInstr.lean ====
section
/-! SUPPORT. The families of statements made once for each instruction. -/

namespace Sys2Proof.Laws

/-- An instruction's bytes frame themselves (spec/30_encoding.md R104, R107, R113): one command byte at the bus port;
at the host port one operation word and exactly the payload that this word's own bits ask for. -/
def Framing.Statement (i : Instr) : Prop :=
  i.wellFormed = true →
    match i.port with
    | .bus => ∃ c, encode i = [c]
    | .host => ∃ w payload, encode i = bytesOfWord w ++ payload ∧ payload.length = payloadLen w

/-- A word that asks for no payload. -/
theorem framing_word {i : Instr} {op : Byte} {arg : Arg24} (hp : i.port = .host)
    (he : encode i = bytesOfWord (makeWord op arg)) (hl : payloadLen (makeWord op arg) = 0) : Framing.Statement i := by
  intro _
  rw [hp]
  exact ⟨makeWord op arg, [], by rw [he, List.append_nil], by rw [hl]; rfl⟩

/-- The payload length depends on OP, and for two operations on ARG (R104). -/
theorem payloadLen_zero {op : Byte} (arg : Arg24) (h1 : op ≠ 0x21#8) (h2 : op ≠ 0x22#8) (h3 : op ≠ 0x32#8) :
    payloadLen (makeWord op arg) = 0 := by
  have h : ∀ d : Byte, op ≠ d → op.toNat ≠ d.toNat := fun d hne heq => hne (BitVec.eq_of_toNat_eq heq)
  unfold payloadLen
  rw [makeWord_op]
  split
  · exact absurd ‹_› (h _ h1)
  · exact absurd ‹_› (h _ h2)
  · exact absurd ‹_› (h _ h3)
  · rfl

theorem Framing.sessionInit : Framing.Statement .sessionInit :=
  framing_word rfl rfl (payloadLen_zero _ (by decide) (by decide) (by decide))
theorem Framing.sessionEnd : Framing.Statement .sessionEnd :=
  framing_word rfl rfl (payloadLen_zero _ (by decide) (by decide) (by decide))
theorem Framing.busDir (d : LaneDir) : Framing.Statement (.busDir d) :=
  framing_word rfl rfl (payloadLen_zero _ (by decide) (by decide) (by decide))
theorem Framing.busWrite (v : Byte) : Framing.Statement (.busWrite v) :=
  framing_word rfl rfl (payloadLen_zero _ (by decide) (by decide) (by decide))
theorem Framing.busRead : Framing.Statement .busRead :=
  framing_word rfl rfl (payloadLen_zero _ (by decide) (by decide) (by decide))
theorem Framing.ctlSet (line : Line) (high : Bool) : Framing.Statement (.ctlSet line high) :=
  framing_word rfl rfl (payloadLen_zero _ (by decide) (by decide) (by decide))
theorem Framing.rbRead : Framing.Statement .rbRead :=
  framing_word rfl rfl (payloadLen_zero _ (by decide) (by decide) (by decide))
theorem Framing.delayNs (x : Arg24) : Framing.Statement (.delayNs x) :=
  framing_word rfl rfl (payloadLen_zero _ (by decide) (by decide) (by decide))
theorem Framing.shortPause : Framing.Statement .shortPause :=
  framing_word rfl rfl (payloadLen_zero _ (by decide) (by decide) (by decide))
theorem Framing.cmdCycle (c : Byte) : Framing.Statement (.cmdCycle c) :=
  framing_word rfl rfl (payloadLen_zero _ (by decide) (by decide) (by decide))
theorem Framing.addrCycle (a : List Byte) : Framing.Statement (.addrCycle a) := by
  intro h
  have hl : a.length < 2 ^ 3 := of_decide_eq_true (Bool.and_eq_true_iff.mp h).1
  refine ⟨_, a, rfl, ?_⟩
  rw [payloadLen, makeWord_op]
  show a.length = countA _
  rw [toNat_countA, toNat_makeWord]
  simp only [BitVec.toNat_ofNat]
  omega
theorem Framing.dataOut (buf : List Byte) : Framing.Statement (.dataOut buf) := by
  intro h
  have hl : buf.length < 2 ^ 24 := of_decide_eq_true (Bool.and_eq_true_iff.mp h).1
  refine ⟨_, buf, rfl, ?_⟩
  rw [payloadLen, makeWord_op]
  show buf.length = (argField _).toNat
  rw [makeWord_arg, BitVec.toNat_ofNat]
  omega
theorem Framing.dataIn (x : Arg24) : Framing.Statement (.dataIn x) :=
  framing_word rfl rfl (payloadLen_zero _ (by decide) (by decide) (by decide))
theorem Framing.busyWait : Framing.Statement .busyWait :=
  framing_word rfl rfl (payloadLen_zero _ (by decide) (by decide) (by decide))
theorem Framing.readId : Framing.Statement .readId :=
  framing_word rfl rfl (payloadLen_zero _ (by decide) (by decide) (by decide))
theorem Framing.readPage (p : Arg24) : Framing.Statement (.readPage p) :=
  framing_word rfl rfl (payloadLen_zero _ (by decide) (by decide) (by decide))
theorem Framing.writePage (p : Arg24) (buf : List Byte) : Framing.Statement (.writePage p buf) := by
  intro h
  have hl : buf.length = pageSize := of_decide_eq_true (Bool.and_eq_true_iff.mp h).1
  refine ⟨_, buf, rfl, ?_⟩
  rw [payloadLen, makeWord_op]
  exact hl
theorem Framing.eraseBlock (b : Arg24) : Framing.Statement (.eraseBlock b) :=
  framing_word rfl rfl (payloadLen_zero _ (by decide) (by decide) (by decide))
theorem Framing.readStatus : Framing.Statement .readStatus :=
  framing_word rfl rfl (payloadLen_zero _ (by decide) (by decide) (by decide))
theorem Framing.nandReadId : Framing.Statement .nandReadId := fun _ => ⟨_, rfl⟩
theorem Framing.nandReadSetup : Framing.Statement .nandReadSetup := fun _ => ⟨_, rfl⟩
theorem Framing.nandReadConfirm : Framing.Statement .nandReadConfirm := fun _ => ⟨_, rfl⟩
theorem Framing.nandProgramSetup : Framing.Statement .nandProgramSetup := fun _ => ⟨_, rfl⟩
theorem Framing.nandProgramConfirm : Framing.Statement .nandProgramConfirm := fun _ => ⟨_, rfl⟩
theorem Framing.nandEraseSetup : Framing.Statement .nandEraseSetup := fun _ => ⟨_, rfl⟩
theorem Framing.nandEraseConfirm : Framing.Statement .nandEraseConfirm := fun _ => ⟨_, rfl⟩
theorem Framing.nandReadStatus : Framing.Statement .nandReadStatus := fun _ => ⟨_, rfl⟩

end Sys2Proof.Laws
end

