-- ==== Sys2Proof/Laws/Step.lean ====
section
/-! SUPPORT. What a step can do, said once, and the relations between a state and the next that the procedures keep. -/

namespace Sys2Proof.Machine

/-! ### Inversion of a step -/

/-- The answer to a word that is no legal operation is one frame, unless a reset comes first (R302, R331). -/
theorem rejectWord_eq (why : WordReject) (w : OpWord) (s : State) :
    ∃ rc, rejectWord why w s = reject rc s := by
  unfold rejectWord
  split
  · exact ⟨_, rfl⟩
  · split <;> exact ⟨_, rfl⟩

/-- What the host's move changes: its own state, the frames it takes, and at most one operation issued; with nothing to
do, an announced reset comes one instant nearer. -/
theorem driverStep_next {s t : State} (h : driverStep s = .next t) :
    t = s.tick ∨ ∃ d io fr, t = { s with
      driver := d, request := s.request ++ (match io with | some i => encode i | none => []), frames := fr } := by
  have hd : ∀ (s' : State) m, s'.driven m = .next t → ∃ d io, t = { s' with
      driver := d, request := s'.request ++ (match io with | some i => encode i | none => []) } := by
    intro s' m h
    unfold State.driven at h
    split at h
    · exact ⟨_, none, by simpa using h.symm⟩
    · exact ⟨_, some _, by simpa using h.symm⟩
    · simp at h
  unfold driverStep at h
  split at h
  · exact .inl (by simpa using h.symm)
  · exact .inl (by simpa using h.symm)
  · obtain ⟨d, io, rfl⟩ := hd _ _ h; exact .inr ⟨d, io, s.frames, rfl⟩
  · split at h
    · exact .inl (by simpa using h.symm)
    · obtain ⟨d, io, rfl⟩ := hd _ _ h; exact .inr ⟨d, io, _, rfl⟩

/-- What a step that goes on did: reset, due or out of a model fault; the rest of a waiting operation; an instruction of
one of the ports, accepted and its bytes consumed; an unnamed command byte; the answer to an illegal word; the host's
move; or nothing. -/
theorem step_cases {s t : State} (h : step s = .next t) :
    ((s.resetAfter = some 0 ∨ s.resetAfter ≠ none ∧ s.fault ≠ none) ∧ t = s.applyReset) ∨
      (s.resetAfter ≠ some 0 ∧ s.fault = none ∧
        ((∃ op, s.pending = some op ∧ resumeBusy op { s with pending := none } = .next t) ∨
          (∃ i rest, s.pending = none ∧ decode .bus s.busCmd = .ok (i, rest) ∧
            exec i (State.tick { s with busCmd := rest }) = .next t) ∨
          (∃ i rest, s.pending = none ∧ s.busCmd = [] ∧ decode .host s.request = .ok (i, rest) ∧
            exec i (State.tick { s with request := rest }) = .next t) ∨
          (∃ c rest, s.pending = none ∧ decode .bus s.busCmd = .error (.unnamedCommand c rest) ∧
            busCommand c (State.tick { s with busCmd := rest }) = .next t) ∨
          (∃ rc rest, s.pending = none ∧ s.busCmd = [] ∧
            reject rc (State.tick { s with request := rest }) = .next t) ∨
          (s.pending = none ∧ s.busCmd = [] ∧ s.request = [] ∧ driverStep s = .next t) ∨
          (s.pending = none ∧ t = s))) := by
  unfold step at h
  split at h
  · exact .inl ⟨.inl ‹_›, by simpa using h.symm⟩
  rename_i h0
  split at h
  · rename_i f hf
    unfold stuckStep at h
    split at h
    · simp at h
    · rename_i hn
      exact .inl ⟨.inr ⟨by simp [hn], by simp [hf]⟩, by simpa using h.symm⟩
  rename_i hf
  refine .inr ⟨h0, hf, ?_⟩
  split at h
  · exact .inl ⟨_, ‹_›, h⟩
  rename_i hp
  refine .inr ?_
  split at h
  · unfold busPortStep at h
    split at h
    · exact .inl ⟨_, _, hp, ‹_›, h⟩
    · exact .inr (.inr (.inl ⟨_, _, hp, ‹_›, h⟩))
    · exact .inr (.inr (.inr (.inr (.inr ⟨hp, by simpa using h.symm⟩))))
    · exact .inr (.inr (.inr (.inr (.inr ⟨hp, by simpa using h.symm⟩))))
  rename_i hb
  have hb : s.busCmd = [] := by simpa using hb
  split at h
  · unfold hostPortStep at h
    split at h
    · exact .inr (.inl ⟨_, _, hp, hb, ‹_›, h⟩)
    · rename_i why w rest _
      obtain ⟨rc, hr⟩ := rejectWord_eq why w (State.tick { s with request := rest })
      rw [hr] at h
      exact .inr (.inr (.inr (.inl ⟨rc, _, hp, hb, h⟩)))
    · simp at h
    · simp at h
  · rename_i hq
    have hq : s.request = [] := by simpa using hq
    exact .inr (.inr (.inr (.inr (.inl ⟨hp, hb, hq, h⟩))))

/-! ### Relations that the procedures keep -/

/-- Events leave the ports, the frames, the host, the wait, the fault mark and the later resets alone. -/
theorem kept_rest : Kept fun s t =>
    t.request = s.request ∧ t.busCmd = s.busCmd ∧ t.driver = s.driver ∧ t.frames = s.frames ∧ t.pending = s.pending ∧
      t.fault = s.fault ∧ t.laterResets = s.laterResets where
  refl := by simp
  trans := by
    rintro s t u ⟨a1, a2, a3, a4, a5, a6, a7⟩ ⟨b1, b2, b3, b4, b5, b6, b7⟩
    exact ⟨b1.trans a1, b2.trans a2, b3.trans a3, b4.trans a4, b5.trans a5, b6.trans a6, b7.trans a7⟩
  event := by intros; simp
  bus := by intros; simp
  ready := by intros; simp
  phase := by intros; simp

/-- Events leave the session state alone. -/
theorem kept_sst : Kept fun s t => t.sst = s.sst where
  refl := by simp
  trans := by intro s t u h1 h2; exact h2.trans h1
  event := by intros; simp
  bus := by intros; simp
  ready := by intros; simp
  phase := by intros; simp

/-- Events are only added to the trace. -/
theorem kept_trace : Kept fun s t => ∃ es, t.trace = es ++ s.trace where
  refl := fun _ => ⟨[], rfl⟩
  trans := by rintro s t u ⟨a, ha⟩ ⟨b, hb⟩; exact ⟨b ++ a, by rw [hb, ha, List.append_assoc]⟩
  event := fun e _ _ _ => ⟨[e], rfl⟩
  bus := fun _ _ => ⟨[_], rfl⟩
  ready := fun _ _ => ⟨[_], rfl⟩
  phase := fun _ _ => ⟨[], rfl⟩

/-- With no reset announced, none is announced by an event. -/
theorem kept_noReset : Kept fun s t => s.resetAfter = none → t.resetAfter = none where
  refl := fun _ h => h
  trans := fun _ _ _ h1 h2 h => h2 (h1 h)
  event := by intro e s _ _ h; simp [h]
  bus := by intro s _ h; simp [h]
  ready := by intro s _ h; simp [h]
  phase := by intros; simpa

/-- Every reaction of the oracle keeps the array's canonical form. -/
theorem kept_arr : Kept fun s t => s.env.chip.arr.wf → t.env.chip.arr.wf where
  refl := fun _ h => h
  trans := fun _ _ _ h1 h2 h => h2 (h1 h)
  event := fun e s _ _ h => react_wf _ _ _ _ h
  bus := fun s _ h => by
    show (Env.react _ _ _ _ _).chip.arr.wf
    rw [react_sampBus, answerBus_chip]; exact h
  ready := fun s _ h => by
    show (Env.react _ _ _ _ _).chip.arr.wf
    rw [react_sampRB, answerReady_arr]; exact h
  phase := fun _ _ h => h

end Sys2Proof.Machine
end

