-- ==== Sys2Proof/Laws/ResetInput.lean ====
section
/-! SUPPORT. The reset input only cuts a run: up to the cut, a run with a reset announced is the run without it (R360,
R362). -/

namespace Sys2Proof.Machine

/-- The state with no reset announced. -/
def State.quiet (s : State) : State := { s with resetAfter := none }

/-- The first run is the second one, unless the reset input, due at that point, cut it. -/
def CutOf {α : Type} (r r0 : Run α) : Prop :=
  match r with
  | .ok a t => r0 = .ok a t.quiet
  | .stop .reset t => t.resetAfter = some 0
  | .stop w t => r0 = .stop w t.quiet

theorem cutOf_bind {α β : Type} {r r0 : Run α} {f f0 : α → State → Run β} (h : CutOf r r0)
    (hf : ∀ a t, CutOf (f a t) (f0 a t.quiet)) : CutOf (r.bind f) (r0.bind f0) := by
  cases r with
  | ok a t => simp only [CutOf] at h; subst h; exact hf a t
  | stop w t =>
    cases w with
    | reset => exact h
    | fault f => simp only [CutOf] at h; subst h; rfl
    | waiting op => simp only [CutOf] at h; subst h; rfl

theorem cutOf_andThen {α β : Type} {r r0 : Run α} {f f0 : State → Run β} (h : CutOf r r0)
    (hf : ∀ t, CutOf (f t) (f0 t.quiet)) : CutOf (r.andThen f) (r0.andThen f0) := cutOf_bind h fun _ t => hf t

theorem hazard_quiet (e : Event) (s : State) : hazard e s.quiet = hazard e s := by
  unfold hazard; split <;> rfl

theorem record_quiet (e : Event) (s : State) : record e s.quiet = (record e s).quiet := by
  cases e <;> rfl

theorem cutOf_emit (e : Event) (s : State) : CutOf (emit e s) (emit e s.quiet) := by
  have h0 : s.quiet.resetAfter ≠ some 0 := by simp [State.quiet]
  unfold emit
  rw [if_neg h0, hazard_quiet]
  split
  · exact ‹_›
  · split
    · rfl
    · rw [record_quiet]; rfl

theorem cutOf_emitAll (es : List Event) (s : State) : CutOf (emitAll es s) (emitAll es s.quiet) := by
  induction es generalizing s with
  | nil => rfl
  | cons e es ih => exact cutOf_andThen (cutOf_emit e s) ih

theorem cutOf_sampleBus (s : State) : CutOf (sampleBus s) (sampleBus s.quiet) := by
  have h0 : s.quiet.resetAfter ≠ some 0 := by simp [State.quiet]
  unfold sampleBus
  rw [if_neg h0]
  split
  · exact ‹_›
  · rfl

theorem cutOf_sampleReady (s : State) : CutOf (sampleReady s) (sampleReady s.quiet) := by
  have h0 : s.quiet.resetAfter ≠ some 0 := by simp [State.quiet]
  unfold sampleReady
  rw [if_neg h0]
  split
  · exact ‹_›
  · rfl

theorem cutOf_requireIdle (s : State) : CutOf (requireIdle s) (requireIdle s.quiet) := by
  unfold requireIdle
  rw [show s.quiet.strobesIdle = s.strobesIdle from rfl]
  split <;> rfl

theorem cutOf_complete (a : Reply) (s : State) : CutOf (complete a s) (complete a s.quiet) := rfl

theorem cutOf_rePulse (s : State) : CutOf (rePulse s) (rePulse s.quiet) :=
  cutOf_andThen (cutOf_emitAll _ s) fun t =>
    cutOf_bind (cutOf_sampleBus t) fun _ u => cutOf_andThen (cutOf_emitAll _ u) fun _ => rfl

theorem cutOf_cmdPhase (c : Byte) (s : State) : CutOf (cmdPhase c s) (cmdPhase c s.quiet) :=
  cutOf_emitAll _ (s.setPhase .command)

theorem cutOf_addrPhase (a : List Byte) (s : State) : CutOf (addrPhase a s) (addrPhase a s.quiet) := by
  unfold addrPhase
  split
  · rfl
  · exact cutOf_emitAll _ (s.setPhase .address)

theorem cutOf_doutPhase (b : List Byte) (s : State) : CutOf (doutPhase b s) (doutPhase b s.quiet) := by
  unfold doutPhase
  split
  · rfl
  · exact cutOf_emitAll _ (s.setPhase .dataOut)

theorem cutOf_readPulses (n : Nat) (s : State) : CutOf (readPulses n s) (readPulses n s.quiet) := by
  induction n generalizing s with
  | zero => rfl
  | succ n ih => exact cutOf_bind (cutOf_rePulse s) fun _ t => cutOf_bind (ih t) fun _ _ => rfl

theorem cutOf_dinPhase (n : Nat) (s : State) : CutOf (dinPhase n s) (dinPhase n s.quiet) := by
  unfold dinPhase
  split
  · rfl
  · exact cutOf_andThen (cutOf_emitAll _ (s.setPhase .dataIn)) fun t => cutOf_readPulses n t

theorem cutOf_poll (n : Nat) (s : State) : CutOf (poll n s) (poll n s.quiet) := by
  induction n generalizing s with
  | zero => exact cutOf_sampleReady s
  | succ n ih =>
    refine cutOf_bind (cutOf_sampleReady s) fun r t => ?_
    cases r
    · exact ih t
    · rfl

theorem cutOf_awaitReady (op : BusyOp) (s : State) : CutOf (awaitReady op s) (awaitReady op s.quiet) := by
  refine cutOf_bind (cutOf_poll _ s) fun r t => ?_
  cases r
  · rfl
  · rw [if_pos rfl, if_pos rfl]
    exact cutOf_emit _ t

theorem cutOf_busyPhase (op : BusyOp) (s : State) : CutOf (busyPhase op s) (busyPhase op s.quiet) :=
  cutOf_andThen (cutOf_emit _ (s.setPhase .busyWait)) (cutOf_awaitReady op)

theorem cutOf_statusTxn (s : State) : CutOf (statusTxn s) (statusTxn s.quiet) :=
  cutOf_andThen (cutOf_cmdPhase _ s) fun t => cutOf_dinPhase 1 t

theorem cutOf_sequenced {phase : State → Run (List Byte)} (h : ∀ t, CutOf (phase t) (phase t.quiet)) (s : State) :
    CutOf (sequenced phase s) (sequenced phase s.quiet) :=
  cutOf_andThen (cutOf_requireIdle s) fun t => cutOf_bind (h t) fun _ u => cutOf_complete _ u

theorem cutOf_silent {phase : State → Run Unit} (h : ∀ t, CutOf (phase t) (phase t.quiet)) (s : State) :
    CutOf (silent phase s) (silent phase s.quiet) := cutOf_andThen (h s) fun _ => rfl

theorem cutOf_afterBusy (op : BusyOp) (s : State) : CutOf (afterBusy op s) (afterBusy op s.quiet) := by
  cases op
  · exact cutOf_complete _ s
  · exact cutOf_bind (cutOf_dinPhase _ s) fun _ t => cutOf_complete _ t
  · exact cutOf_bind (cutOf_statusTxn s) fun _ t => cutOf_complete _ t
  · exact cutOf_bind (cutOf_statusTxn s) fun _ t => cutOf_complete _ t

theorem cutOf_eventOperation (e : Event) (s : State) : CutOf (eventOperation e s) (eventOperation e s.quiet) := by
  refine cutOf_andThen (cutOf_emit e s) fun t => ?_
  rfl

/-- A host operation's body with a reset announced is its body without one, up to the cut. -/
theorem cutOf_bodyOf (i : Instr) (s : State) : CutOf (bodyOf i s) (bodyOf i s.quiet) := by
  cases i
  case sessionInit =>
    simp only [bodyOf, sessionInitBody]
    refine cutOf_andThen (cutOf_emitAll _ s) fun t => ?_
    rfl
  case busDir d => exact cutOf_eventOperation _ s
  case busWrite v =>
    simp only [bodyOf, busWriteBody]
    rw [show s.quiet.dir = s.dir from rfl]
    split
    · exact cutOf_eventOperation _ s
    · rfl
  case busRead =>
    simp only [bodyOf, busReadBody]
    rw [show s.quiet.dir = s.dir from rfl]
    split
    · refine cutOf_bind (cutOf_sampleBus s) fun _ t => ?_
      rfl
    · rfl
  case ctlSet l b => exact cutOf_eventOperation _ s
  case rbRead =>
    simp only [bodyOf, rbReadBody]
    refine cutOf_bind (cutOf_sampleReady s) fun _ t => ?_
    rfl
  case delayNs x => exact cutOf_eventOperation _ s
  case shortPause => exact cutOf_eventOperation _ s
  case cmdCycle c => exact cutOf_sequenced (cutOf_silent (cutOf_cmdPhase c)) s
  case addrCycle a => exact cutOf_sequenced (cutOf_silent (cutOf_addrPhase a)) s
  case dataOut b => exact cutOf_sequenced (cutOf_silent (cutOf_doutPhase b)) s
  case dataIn x => exact cutOf_sequenced (cutOf_dinPhase _) s
  case busyWait => exact cutOf_andThen (cutOf_busyPhase _ s) fun t => cutOf_complete _ t
  case readId =>
    exact cutOf_sequenced (fun t => cutOf_andThen (cutOf_cmdPhase _ t) fun t =>
      cutOf_andThen (cutOf_addrPhase _ t) fun t => cutOf_dinPhase _ t) s
  case readPage p =>
    exact cutOf_andThen (cutOf_requireIdle s) fun t => cutOf_andThen (cutOf_cmdPhase _ t) fun t =>
      cutOf_andThen (cutOf_addrPhase _ t) fun t => cutOf_andThen (cutOf_cmdPhase _ t) fun t =>
        cutOf_andThen (cutOf_busyPhase _ t) fun t => cutOf_afterBusy _ t
  case writePage p b =>
    exact cutOf_andThen (cutOf_requireIdle s) fun t => cutOf_andThen (cutOf_cmdPhase _ t) fun t =>
      cutOf_andThen (cutOf_addrPhase _ t) fun t => cutOf_andThen (cutOf_doutPhase _ t) fun t =>
        cutOf_andThen (cutOf_cmdPhase _ t) fun t =>
          cutOf_andThen (cutOf_busyPhase _ t) fun t => cutOf_afterBusy _ t
  case eraseBlock b =>
    exact cutOf_andThen (cutOf_requireIdle s) fun t => cutOf_andThen (cutOf_cmdPhase _ t) fun t =>
      cutOf_andThen (cutOf_addrPhase _ t) fun t => cutOf_andThen (cutOf_cmdPhase _ t) fun t =>
        cutOf_andThen (cutOf_busyPhase _ t) fun t => cutOf_afterBusy _ t
  case readStatus => exact cutOf_sequenced cutOf_statusTxn s
  all_goals rfl

/-- With no reset announced, no host operation is cut. -/
theorem bodyOf_not_reset {i : Instr} {s u : State} (h : s.resetAfter = none) : bodyOf i s ≠ .stop .reset u := by
  intro h1
  have h2 := cutOf_bodyOf i s
  have h3 := kept_bodyOf kept_noReset (fun _ _ h => h) i s
  rw [h1] at h2 h3
  have h4 : u.resetAfter = some 0 := h2
  rw [show u.resetAfter = none from h3 h] at h4
  simp at h4

/-- With no reset announced, no command cycle is cut. -/
theorem cmdPhase_not_reset {c : Byte} {s u : State} (h : s.resetAfter = none) : cmdPhase c s ≠ .stop .reset u := by
  intro h1
  have h2 := cutOf_cmdPhase c s
  have h3 := kept_cmdPhase kept_noReset c s
  rw [h1] at h2 h3
  have h4 : u.resetAfter = some 0 := h2
  rw [show u.resetAfter = none from h3 h] at h4
  simp at h4

/-- With no reset announced, the rest of a waiting operation is not cut. -/
theorem resume_not_reset {op : BusyOp} {s u : State} (h : s.resetAfter = none) :
    (awaitReady op s).andThen (afterBusy op) ≠ .stop .reset u := by
  intro h1
  have h2 : CutOf _ _ := cutOf_andThen (cutOf_awaitReady op s) (cutOf_afterBusy op)
  have h3 := kept_resume kept_noReset op s
  rw [h1] at h2 h3
  have h4 : u.resetAfter = some 0 := h2
  rw [show u.resetAfter = none from h3 h] at h4
  simp at h4

/-! ### Runs of events -/

/-- A reset announced right after the last event of a run, none of which faults, is due at its end (R331). -/
theorem emitAll_cut_end (es : List Event) (s t : State) (hs : s.resetAfter = none) (h : emitAll es s = .ok () t) :
    emitAll es { s with resetAfter := some es.length } = .ok () { t with resetAfter := some 0 } := by
  induction es generalizing s with
  | nil => cases h; rfl
  | cons e es ih =>
    simp only [emitAll] at h ⊢
    have hz : hazard e s = none := by
      cases hz : hazard e s with
      | none => rfl
      | some f => simp [emit, hs, hz] at h
    rw [emit_ok hs hz, andThen_ok] at h
    have hz2 : hazard e { s with resetAfter := some (es.length + 1) } = none := hz
    have h2 : emit e { s with resetAfter := some (es.length + 1) } =
        .ok () { record e s with resetAfter := some es.length } := by
      simp only [emit, hz2]
      have : record e { s with resetAfter := some (es.length + 1) } =
          { record e s with resetAfter := some es.length } := by cases e <;> rfl
      simp [this]
    rw [List.length_cons, h2, andThen_ok]
    exact ih (record e s) (by simp [record, hs]) h

/-- A reset announced after n events cuts a run of more events, none of which faults, after exactly n of them (R362). -/
theorem emitAll_cut (es : List Event) (s t : State) (n : Nat) (hn : n < es.length) (hs : s.resetAfter = none)
    (h : emitAll es s = .ok () t) :
    ∃ u, emitAll (es.take n) s = .ok () u ∧
      emitAll es { s with resetAfter := some n } = .stop .reset { u with resetAfter := some 0 } := by
  induction es generalizing s n with
  | nil => simp at hn
  | cons e es ih =>
    cases n with
    | zero => exact ⟨s, rfl, rfl⟩
    | succ n =>
      simp only [emitAll] at h ⊢
      have hz : hazard e s = none := by
        cases hz : hazard e s with
        | none => rfl
        | some f => simp [emit, hs, hz] at h
      rw [emit_ok hs hz, andThen_ok] at h
      have hz2 : hazard e { s with resetAfter := some (n+1) } = none := hz
      have h2 : emit e { s with resetAfter := some (n+1) } = .ok () { record e s with resetAfter := some n } := by
        simp only [emit, hz2]
        have : record e { s with resetAfter := some (n+1) } = { record e s with resetAfter := some n } := by
          cases e <;> rfl
        simp [this]
      have hr : (record e s).resetAfter = none := by simp [record, hs]
      obtain ⟨u, h3, h4⟩ := ih (record e s) n (by simpa using hn) hr h
      exact ⟨u, by simp only [List.take_succ_cons, emitAll, emit_ok hs hz, andThen_ok, h3], by rw [h2, andThen_ok]; exact h4⟩

/-- What events do to the fields that no event writes, and to the trace. -/
theorem emitAll_fields (es : List Event) (s u : State) (hs : s.resetAfter = none) (h : emitAll es s = .ok () u) :
    ∃ dir dout lvl oe env, u = { s with dir := dir, dout := dout, lvl := lvl, oe := oe, env := env, trace := es.reverse ++ s.trace } := by
  induction es generalizing s with
  | nil => cases h; exact ⟨_, _, _, _, _, rfl⟩
  | cons e es ih =>
    have hz : hazard e s = none := by
      cases hz : hazard e s with
      | none => rfl
      | some f => simp [emitAll, emit, hs, hz] at h
    rw [emitAll, emit_ok hs hz, andThen_ok] at h
    obtain ⟨d, o, l, oe, env, rfl⟩ := ih (record e s) (by simp [record, hs]) h
    cases e <;> exact ⟨d, o, l, oe, env, by simp [record, applyEvent, hs]⟩

end Sys2Proof.Machine
end

