-- ==== Sys2Proof/Laws/Smooth.lean ====
section
/-! SUPPORT. From idle strobes and with no reset announced, no composite operation stops but to wait for the chip, and
none changes a control line's level (spec/42_sequencer.md R182). -/

namespace Sys2Proof.Machine

/-- What a composite operation may have changed so far: the phase, the lanes, the trace and the answers. -/
def Moved (s t : State) : Prop :=
  ∃ ph dir dout tr env, t = { s with ph := ph, dir := dir, dout := dout, trace := tr ++ s.trace, env := env }

theorem moved_refl (s : State) : Moved s s := ⟨s.ph, s.dir, s.dout, [], s.env, rfl⟩

theorem moved_trans {s t u : State} (h1 : Moved s t) (h2 : Moved t u) : Moved s u := by
  obtain ⟨ph, dir, dout, tr, env, rfl⟩ := h1
  obtain ⟨ph', dir', dout', tr', env', rfl⟩ := h2
  exact ⟨ph', dir', dout', tr' ++ tr, env', by simp⟩

theorem moved_lvl {s t : State} (h : Moved s t) : t.lvl = s.lvl := by
  obtain ⟨ph, dir, dout, tr, env, rfl⟩ := h; rfl
theorem moved_strobesIdle {s t : State} (h : Moved s t) : t.strobesIdle = s.strobesIdle := by
  rw [State.strobesIdle, moved_lvl h]; rfl
theorem moved_resetAfter {s t : State} (h : Moved s t) : t.resetAfter = s.resetAfter := by
  obtain ⟨ph, dir, dout, tr, env, rfl⟩ := h; rfl
theorem moved_frames {s t : State} (h : Moved s t) : t.frames = s.frames := by
  obtain ⟨ph, dir, dout, tr, env, rfl⟩ := h; rfl
theorem moved_pending {s t : State} (h : Moved s t) : t.pending = s.pending := by
  obtain ⟨ph, dir, dout, tr, env, rfl⟩ := h; rfl

/-- The run ends with a value that has the property, or waits in the busy wait of the operation; nothing else. -/
def Smooth {α : Type} (s : State) (hang : Option BusyOp) (Q : α → State → Prop) (r : Run α) : Prop :=
  match r with
  | .ok a t => Moved s t ∧ Q a t
  | .stop (.waiting op) t => Moved s t ∧ hang = some op ∧ t.ph = .busyWait
  | .stop _ _ => False

theorem smooth_bind {α β : Type} {s : State} {hang : Option BusyOp} {Q : α → State → Prop} {Q' : β → State → Prop}
    {r : Run α} {f : α → State → Run β} (h : Smooth s hang Q r)
    (hf : ∀ a t, Moved s t → Q a t → Smooth t hang Q' (f a t)) : Smooth s hang Q' (r.bind f) := by
  cases r with
  | ok a t =>
    have h1 := hf a t h.1 h.2
    show Smooth s hang Q' (f a t)
    unfold Smooth at h1 ⊢
    split <;> simp only [*] at h1
    · exact ⟨moved_trans h.1 h1.1, h1.2⟩
    · exact ⟨moved_trans h.1 h1.1, h1.2⟩
  | stop w t => cases w <;> exact h

theorem smooth_andThen {α β : Type} {s : State} {hang : Option BusyOp} {Q : α → State → Prop}
    {Q' : β → State → Prop} {r : Run α} {f : State → Run β} (h : Smooth s hang Q r)
    (hf : ∀ t, Moved s t → Smooth t hang Q' (f t)) : Smooth s hang Q' (r.andThen f) :=
  smooth_bind h fun _ t h1 _ => hf t h1

section
variable {s : State} {hang : Option BusyOp} (hr : s.resetAfter = none) (hi : s.strobesIdle = true)
include hr hi

theorem smooth_cmdPhase (c : Byte) : Smooth s hang (fun _ _ => True) (cmdPhase c s) := by
  rw [cmdPhase_idle c s hr hi]; exact ⟨⟨_, _, _, _, _, rfl⟩, trivial⟩

theorem smooth_addrPhase (a : List Byte) : Smooth s hang (fun _ _ => True) (addrPhase a s) := by
  by_cases h : a = []
  · rw [addrPhase, if_pos h]; exact ⟨moved_refl s, trivial⟩
  · rw [addrPhase_idle a h s hr hi]; exact ⟨⟨_, _, _, _, _, rfl⟩, trivial⟩

theorem smooth_doutPhase (b : List Byte) : Smooth s hang (fun _ _ => True) (doutPhase b s) := by
  by_cases h : b = []
  · rw [doutPhase, if_pos h]; exact ⟨moved_refl s, trivial⟩
  · rw [doutPhase_idle b h s hr hi]; exact ⟨⟨_, _, _, _, _, rfl⟩, trivial⟩

theorem smooth_dinPhase (n : Nat) : Smooth s hang (fun bs _ => bs.length = n) (dinPhase n s) := by
  by_cases h : n = 0
  · rw [dinPhase, if_pos h]; exact ⟨moved_refl s, by simp [h]⟩
  · rw [dinPhase_idle n h s hr hi]; exact ⟨⟨_, _, _, _, _, rfl⟩, readCycles_length _ _ _⟩

theorem smooth_statusTxn : Smooth s hang (fun bs _ => ∃ b, bs = [b]) (statusTxn s) := by
  rw [statusTxn_idle s hr hi]; exact ⟨⟨_, _, _, _, _, rfl⟩, _, rfl⟩

end

theorem smooth_moved {α : Type} {s t : State} {hang : Option BusyOp} {Q : α → State → Prop} {r : Run α}
    (h : Moved s t) (h1 : Smooth t hang Q r) : Smooth s hang Q r := by
  unfold Smooth at h1 ⊢
  split <;> simp only [*] at h1
  · exact ⟨moved_trans h h1.1, h1.2⟩
  · exact ⟨moved_trans h h1.1, h1.2⟩

theorem smooth_awaitReady {s : State} (hr : s.resetAfter = none) (hp : s.ph = .busyWait) (op : BusyOp) :
    Smooth s (some op) (fun _ _ => True) (awaitReady op s) := by
  rw [awaitReady, poll_eq _ _ hr, bind_ok]
  generalize s.env.pollAnswers s.lvl (s.env.knownReady s.lvl) = pa
  split
  · rw [emit_ok (by exact hr) rfl]
    refine ⟨⟨s.ph, s.dir, s.dout, .gate .settle :: (pa.1.map Event.sampRB).reverse, pa.2, ?_⟩, trivial⟩
    simp [record, applyEvent, hr]
  · exact ⟨⟨_, _, _, _, _, rfl⟩, rfl, hp⟩

theorem smooth_busyPhase {s : State} (hr : s.resetAfter = none) (op : BusyOp) :
    Smooth s (some op) (fun _ _ => True) (busyPhase op s) := by
  rw [busyPhase_start op hr]
  exact smooth_moved ⟨.busyWait, s.dir, s.dout, [.gate .settle], s.env, rfl⟩
    (smooth_awaitReady (by exact hr) (by rfl) op)

theorem smooth_complete {s : State} {hang : Option BusyOp} (a : Reply) :
    Smooth s hang (fun b t => b = a ∧ t.ph = .idle) (complete a s) :=
  ⟨⟨.idle, s.dir, s.dout, [], s.env, rfl⟩, rfl, rfl⟩

/-- What an operation answers: OK and a payload of a known length, or STATUS_ERROR and the status byte. -/
def Answers (n : Nat) (mayFail : Bool) (a : Reply) (t : State) : Prop :=
  t.ph = .idle ∧ a.2.length = n ∧ (a.1 = .ok ∨ a.1 = .statusError ∧ mayFail = true)

theorem smooth_sequenced {s : State} (hi : s.strobesIdle = true) {hang : Option BusyOp}
    {n : Nat} {phase : State → Run (List Byte)} (h : Smooth s hang (fun bs _ => bs.length = n) (phase s)) :
    Smooth s hang (Answers n false) (sequenced phase s) := by
  rw [sequenced, requireIdle_ok hi, andThen_ok]
  exact smooth_bind h fun bs t _ hb => ⟨⟨.idle, t.dir, t.dout, [], t.env, rfl⟩, rfl, hb, .inl rfl⟩

theorem smooth_silent {s : State} {hang : Option BusyOp} {phase : State → Run Unit}
    (h : Smooth s hang (fun _ _ => True) (phase s)) :
    Smooth s hang (fun bs _ => bs.length = 0) (silent phase s) :=
  smooth_andThen h fun t _ => ⟨moved_refl t, rfl⟩

/-- The payload length of what is left of an operation after its busy wait (R105). -/
def BusyOp.bytes : BusyOp → Nat
  | .busyWait => 0
  | .readPage => pageSize
  | .writePage => 1
  | .eraseBlock => 1

/-- Whether an operation with a busy wait can answer STATUS_ERROR (R304). -/
def BusyOp.readsStatus : BusyOp → Bool
  | .busyWait => false
  | .readPage => false
  | .writePage => true
  | .eraseBlock => true

theorem smooth_afterBusy {s : State} (hr : s.resetAfter = none) (op : BusyOp)
    (hi : op ≠ .busyWait → s.strobesIdle = true) {hang : Option BusyOp} :
    Smooth s hang (Answers op.bytes op.readsStatus) (afterBusy op s) := by
  have hstat : ∀ (hi : s.strobesIdle = true), Smooth s hang (Answers 1 true)
      ((statusTxn s).bind fun b s => complete (resultOfStatusBytes b) s) := by
    intro hi
    refine smooth_bind (smooth_statusTxn hr hi) fun bs t _ hb => ?_
    obtain ⟨b, rfl⟩ := hb
    rw [resultOfStatusBytes_single]
    refine ⟨⟨.idle, t.dir, t.dout, [], t.env, rfl⟩, rfl, rfl, ?_⟩
    cases b.getLsbD 0
    · exact .inl rfl
    · exact .inr ⟨rfl, rfl⟩
  cases op
  · exact ⟨⟨.idle, s.dir, s.dout, [], s.env, rfl⟩, rfl, rfl, .inl rfl⟩
  · exact smooth_bind (smooth_dinPhase hr (hi (by simp)) _) fun bs t _ hb =>
      ⟨⟨.idle, t.dir, t.dout, [], t.env, rfl⟩, rfl, hb, .inl rfl⟩
  · exact hstat (hi (by simp))
  · exact hstat (hi (by simp))

/-- The busy wait of an instruction. -/
def hangOf : Instr → Option BusyOp
  | .busyWait => some .busyWait
  | .readPage _ => some .readPage
  | .writePage _ _ => some .writePage
  | .eraseBlock _ => some .eraseBlock
  | .sessionInit | .sessionEnd | .busDir _ | .busWrite _ | .busRead | .ctlSet _ _ | .rbRead | .delayNs _
  | .shortPause | .cmdCycle _ | .addrCycle _ | .dataOut _ | .dataIn _ | .readId | .readStatus | .nandReadId
  | .nandReadSetup | .nandReadConfirm | .nandProgramSetup | .nandProgramConfirm | .nandEraseSetup
  | .nandEraseConfirm | .nandReadStatus => none

/-- The result payload length of an operation (R105). -/
def answerBytes : Instr → Nat
  | .busRead | .rbRead | .readStatus | .writePage _ _ | .eraseBlock _ => 1
  | .dataIn x => x.toNat
  | .readId => idLen
  | .readPage _ => pageSize
  | .sessionInit | .sessionEnd | .busDir _ | .busWrite _ | .ctlSet _ _ | .delayNs _ | .shortPause
  | .cmdCycle _ | .addrCycle _ | .dataOut _ | .busyWait | .nandReadId | .nandReadSetup | .nandReadConfirm
  | .nandProgramSetup | .nandProgramConfirm | .nandEraseSetup | .nandEraseConfirm | .nandReadStatus => 0

/-- The operations that can answer STATUS_ERROR (R304). -/
def readsStatus : Instr → Bool
  | .writePage _ _ | .eraseBlock _ => true
  | .sessionInit | .sessionEnd | .busDir _ | .busWrite _ | .busRead | .ctlSet _ _ | .rbRead | .delayNs _
  | .shortPause | .cmdCycle _ | .addrCycle _ | .dataOut _ | .dataIn _ | .busyWait | .readId | .readPage _
  | .readStatus | .nandReadId | .nandReadSetup | .nandReadConfirm | .nandProgramSetup | .nandProgramConfirm
  | .nandEraseSetup | .nandEraseConfirm | .nandReadStatus => false

/-- The operations that check for idle strobes at entry (R173). -/
def checksIdle : Instr → Bool
  | .cmdCycle _ | .addrCycle _ | .dataOut _ | .dataIn _ | .readId | .readPage _ | .writePage _ _ | .eraseBlock _
  | .readStatus => true
  | .sessionInit | .sessionEnd | .busDir _ | .busWrite _ | .busRead | .ctlSet _ _ | .rbRead | .delayNs _
  | .shortPause | .busyWait | .nandReadId | .nandReadSetup | .nandReadConfirm | .nandProgramSetup
  | .nandProgramConfirm | .nandEraseSetup | .nandEraseConfirm | .nandReadStatus => false

/-- A composite operation or BUSY_WAIT, from idle strobes and with no reset announced, ends or waits (R182). -/
theorem smooth_bodyOf {s : State} (hr : s.resetAfter = none) (i : Instr) (hc : checksIdle i = true)
    (hi : s.strobesIdle = true) : Smooth s (hangOf i) (Answers (answerBytes i) (readsStatus i)) (bodyOf i s) := by
  have ht : ∀ {t u : State}, (t.resetAfter = none ∧ t.strobesIdle = true) → Moved t u →
      u.resetAfter = none ∧ u.strobesIdle = true :=
    fun h hm => ⟨(moved_resetAfter hm).trans h.1, (moved_strobesIdle hm).trans h.2⟩
  have h0 : s.resetAfter = none ∧ s.strobesIdle = true := ⟨hr, hi⟩
  cases i
  case cmdCycle c => exact smooth_sequenced hi (smooth_silent (smooth_cmdPhase hr hi c))
  case addrCycle a => exact smooth_sequenced hi (smooth_silent (smooth_addrPhase hr hi a))
  case dataOut b => exact smooth_sequenced hi (smooth_silent (smooth_doutPhase hr hi b))
  case dataIn x => exact smooth_sequenced hi (smooth_dinPhase hr hi _)
  case readId =>
    exact smooth_sequenced hi (smooth_andThen (smooth_cmdPhase hr hi _) fun t m =>
      have h1 := ht h0 m
      smooth_andThen (smooth_addrPhase h1.1 h1.2 _) fun u m =>
        have h2 := ht h1 m
        smooth_dinPhase h2.1 h2.2 _)
  case readStatus =>
    refine smooth_sequenced hi ?_
    rw [statusTxn_idle s hr hi]; exact ⟨⟨_, _, _, _, _, rfl⟩, rfl⟩
  case readPage p =>
    show Smooth s (some .readPage) (Answers pageSize false) _
    simp only [bodyOf, readPageBody]
    rw [requireIdle_ok hi, andThen_ok]
    exact smooth_andThen (smooth_cmdPhase hr hi _) fun t m =>
      have h1 := ht h0 m
      smooth_andThen (smooth_addrPhase h1.1 h1.2 _) fun u m =>
        have h2 := ht h1 m
        smooth_andThen (smooth_cmdPhase h2.1 h2.2 _) fun v m =>
          have h3 := ht h2 m
          smooth_andThen (smooth_busyPhase h3.1 _) fun w m =>
            have h4 := ht h3 m
            smooth_afterBusy h4.1 .readPage fun _ => h4.2
  case eraseBlock b =>
    show Smooth s (some .eraseBlock) (Answers 1 true) _
    simp only [bodyOf, eraseBlockBody]
    rw [requireIdle_ok hi, andThen_ok]
    exact smooth_andThen (smooth_cmdPhase hr hi _) fun t m =>
      have h1 := ht h0 m
      smooth_andThen (smooth_addrPhase h1.1 h1.2 _) fun u m =>
        have h2 := ht h1 m
        smooth_andThen (smooth_cmdPhase h2.1 h2.2 _) fun v m =>
          have h3 := ht h2 m
          smooth_andThen (smooth_busyPhase h3.1 _) fun w m =>
            have h4 := ht h3 m
            smooth_afterBusy h4.1 .eraseBlock fun _ => h4.2
  case writePage p b =>
    show Smooth s (some .writePage) (Answers 1 true) _
    simp only [bodyOf, writePageBody]
    rw [requireIdle_ok hi, andThen_ok]
    exact smooth_andThen (smooth_cmdPhase hr hi _) fun t m =>
      have h1 := ht h0 m
      smooth_andThen (smooth_addrPhase h1.1 h1.2 _) fun u m =>
        have h2 := ht h1 m
        smooth_andThen (smooth_doutPhase h2.1 h2.2 _) fun v m =>
          have h3 := ht h2 m
          smooth_andThen (smooth_cmdPhase h3.1 h3.2 _) fun w m =>
            have h4 := ht h3 m
            smooth_andThen (smooth_busyPhase h4.1 _) fun x m =>
              have h5 := ht h4 m
              smooth_afterBusy h5.1 .writePage fun _ => h5.2
  all_goals exact absurd hc Bool.false_ne_true

/-- A composite operation faults at once when the strobes are not idle (R173). -/
theorem bodyOf_notIdle {i : Instr} {s : State} (hc : checksIdle i = true) (hi : s.strobesIdle = false) :
    bodyOf i s = .stop (.fault .strobeNotIdle) s := by
  cases i
  all_goals first | exact absurd hc Bool.false_ne_true | skip
  all_goals simp [bodyOf, sequenced, readPageBody, writePageBody, eraseBlockBody, requireIdle_fault hi]

/-- BUSY_WAIT ends or waits from any strobe levels (R179). -/
theorem smooth_busyWaitBody {s : State} (hr : s.resetAfter = none) :
    Smooth s (some .busyWait) (Answers 0 false) (busyWaitBody s) :=
  smooth_andThen (smooth_busyPhase hr _) fun t _ =>
    ⟨⟨.idle, t.dir, t.dout, [], t.env, rfl⟩, rfl, rfl, .inl rfl⟩

end Sys2Proof.Machine
end

