-- ==== Sys2Proof/Tests/Slice0.lean ====
section
/-! SUPPORT. Tests: words of spec/95_test_vectors.md written out byte by byte, operands that the checks refuse, single
steps with the spec's expected results, and for each obligation with hypotheses a concrete state that meets them. -/

namespace Sys2Proof.Tests

open Sys2Proof.Machine Sys2Proof.Spec

/-! ### States -/

/-- The state after SESSION_INIT (L2: "READY, PH IDLE, DIR IN, DOUT 0x00, idle pins"), with an external chip that
answers 3C 5A A5 E1 E0 on the bus and 0, 0, 1 on the ready/busy line. -/
def ready : State :=
  { State.reset with
    sst := .ready, dir := .input, dout := .byte 0x00#8, oe := true
    lvl := { ceN := .low, weN := .high, reN := .high, cle := .low, ale := .low, wpN := .high }
    env := { Env.initial with
      busDraws := [0x3C#8, 0x5A#8, 0xA5#8, 0xE1#8, 0xE0#8], rbDraws := [false, false, true] } }

/-- The same with the reference chip oracle of L3 attached: 256 rows, all erased. -/
def attached : State :=
  { ready with
    env := { Env.initial with
      chip := { Chip.initial with
        attached := true, numPages := 256, kErase := 2, id := [0xEC#8, 0xDA#8, 0x10#8, 0x95#8, 0x44#8] } } }

/-- The same with supplied answers, for a row that the oracle does not have. -/
def absent : State := { attached with env := { attached.env with busDraws := [0x01#8], rbDraws := [false, true] } }

/-- The same with one control line at another level. -/
def withLine (l : Line) (v : Level) : State := { ready with lvl := ready.lvl.set l v }

/-- The same with the lanes outputs. -/
def outputs : State := { ready with dir := .output }

/-- The same with the busy count of the oracle at a number or not known. -/
def counting (n : Option Nat) : State :=
  { absent with env := { absent.env with chip := { absent.env.chip with busy := n } } }

/-- The oracle while RE_N is low, in a mode, with its identity index and the column of a page register of two bytes. -/
def reading (m : ChipMode) (idx col : Nat) : State :=
  { attached with
    lvl := attached.lvl.set .reN .low
    env := { attached.env with
      busDraws := [0x77#8]
      chip := { attached.env.chip with mode := m, idx := idx, col := col, preg := [0x11#8, 0x22#8] } } }

/-- The chip never releases the ready/busy line. -/
def held : State := { ready with env := { ready.env with heldBusy := true } }

/-- An operation waits for the chip, which then reads ready. -/
def waiting (op : BusyOp) : State :=
  { ready with ph := .busyWait, pending := some op, env := { ready.env with rbDraws := [false, true] } }

/-- A reset is announced after n instants, and the host streams the bytes. -/
def cut (n : Nat) (s : State) (bytes : List Byte) : State := { s with resetAfter := some n, request := bytes }

/-- A run that a model fault stopped, with a reset announced or not. -/
def stopped (r : Option Nat) : State := { ready with fault := some .dirMisuse, ph := .dataIn, resetAfter := r }

/-- A host that waits for a result. -/
def host (ctl : DriverCtl) (cmd : BatchCmd) : Driver :=
  { Driver.initial with
    ctl := ctl, cmd := cmd, unit := 7, id0 := [1#8, 2#8, 3#8, 4#8, 5#8], buf := [1#8] }

/-- A host whose read unit has a whole page in its buffer, and whose next accesses to the file succeed or fail so. -/
def hostPage (cmd : BatchCmd) (fails : Option Nat) : Driver :=
  { host .awaitSecond cmd with buf := List.replicate 2112 1#8, fileFails := fails }


/-- The machine where the host stands so, with these result frames to take and nothing else to do. -/
def moving (ctl : DriverCtl) (frames : List Frame) : State :=
  { ready with driver := host ctl (.readFull 0 4), frames := frames }

/-- What a test looks at: the frames and the events of the next state. -/
def seen (o : Host.Outcome State Fault Refusal) : Option (List Frame × List Event) :=
  match o with
  | .next t => some (t.frames, t.trace.reverse)
  | _ => none

/-- The fault an outcome names. -/
def faultOf (o : Host.Outcome State Fault Refusal) : Option Fault :=
  match o with
  | .fault f => some f
  | _ => none

/-- The run of a step from a state that streams the bytes. -/
def streamed (s : State) (bytes : List Byte) : Host.Outcome State Fault Refusal := step { s with request := bytes }

/-! ### Decoding: words of L2 and L3, least significant byte first -/

theorem test_decode_sessionInit : decode .host [0x01#8, 0x00#8, 0x00#8, 0x00#8] = .ok (.sessionInit, []) := by decide
theorem test_decode_sessionEnd : decode .host [0x02#8, 0x00#8, 0x00#8, 0x00#8] = .ok (.sessionEnd, []) := by decide
theorem test_decode_busDir : decode .host [0x10#8, 0x01#8, 0x00#8, 0x00#8] = .ok (.busDir .output, []) := by decide
theorem test_decode_busDir_in : decode .host [0x10#8, 0x00#8, 0x00#8, 0x00#8] = .ok (.busDir .input, []) := by decide
theorem test_decode_busWrite : decode .host [0x11#8, 0xA5#8, 0x00#8, 0x00#8] = .ok (.busWrite 0xA5#8, []) := by decide
theorem test_decode_busRead : decode .host [0x12#8, 0x00#8, 0x00#8, 0x00#8] = .ok (.busRead, []) := by decide
theorem test_decode_ctlSet : decode .host [0x13#8, 0x0B#8, 0x00#8, 0x00#8] = .ok (.ctlSet .cle true, []) := by decide
theorem test_decode_ctlSet_low : decode .host [0x13#8, 0x02#8, 0x00#8, 0x00#8] = .ok (.ctlSet .reN false, []) := by
  decide
theorem test_decode_rbRead : decode .host [0x14#8, 0x00#8, 0x00#8, 0x00#8] = .ok (.rbRead, []) := by decide
theorem test_decode_delayNs : decode .host [0x18#8, 0x64#8, 0x00#8, 0x00#8] = .ok (.delayNs 100#24, []) := by decide
theorem test_decode_shortPause : decode .host [0x19#8, 0x00#8, 0x00#8, 0x00#8] = .ok (.shortPause, []) := by decide
theorem test_decode_cmdCycle : decode .host [0x20#8, 0x90#8, 0x00#8, 0x00#8] = .ok (.cmdCycle 0x90#8, []) := by decide
theorem test_decode_addrCycle :
    decode .host [0x21#8, 0x03#8, 0x00#8, 0x00#8, 0x80#8, 0x00#8, 0x00#8] =
      .ok (.addrCycle [0x80#8, 0x00#8, 0x00#8], []) := by decide
theorem test_decode_dataOut :
    decode .host [0x22#8, 0x02#8, 0x00#8, 0x00#8, 0x11#8, 0x22#8, 0x34#8] =
      .ok (.dataOut [0x11#8, 0x22#8], [0x34#8]) := by decide
theorem test_decode_dataIn : decode .host [0x23#8, 0x40#8, 0x08#8, 0x00#8] = .ok (.dataIn 2112#24, []) := by decide
theorem test_decode_busyWait : decode .host [0x24#8, 0x00#8, 0x00#8, 0x00#8] = .ok (.busyWait, []) := by decide
theorem test_decode_readId : decode .host [0x30#8, 0x00#8, 0x00#8, 0x00#8] = .ok (.readId, []) := by decide
theorem test_decode_readPage : decode .host [0x31#8, 0x45#8, 0x23#8, 0x01#8] = .ok (.readPage 0x012345#24, []) := by
  decide
theorem test_decode_writePage (buf : List Byte) (h : buf.length = 2112) :
    decode .host ([0x32#8, 0x05#8, 0x00#8, 0x00#8] ++ buf) = .ok (.writePage 5#24 buf, []) := by
  have h1 := decodeRequest_word 0x00000532#32 buf [] (by rw [h]; decide)
  rw [List.append_nil] at h1
  exact h1
theorem test_decode_eraseBlock : decode .host [0x33#8, 0xFF#8, 0xFF#8, 0x03#8] = .ok (.eraseBlock 262143#24, []) := by
  decide
theorem test_decode_readStatus : decode .host [0x34#8, 0x00#8, 0x00#8, 0x00#8] = .ok (.readStatus, []) := by decide

/-- The eight command bytes of R107. -/
theorem test_decode_nand :
    [0x90#8, 0x00#8, 0x30#8, 0x80#8, 0x10#8, 0x60#8, 0xD0#8, 0x70#8].map decodeNandByte =
      [some .nandReadId, some .nandReadSetup, some .nandReadConfirm, some .nandProgramSetup,
        some .nandProgramConfirm, some .nandEraseSetup, some .nandEraseConfirm, some .nandReadStatus] := by decide

/-- Words of L2.1 that are no legal operation: OP 0x00, 0x15, 0xFF reserved; reserved bits; LINE 6 and 7; counts and
indices beyond their range. -/
theorem test_decode_rejects :
    [0x00000000#32, 0x00000015#32, 0x000000FF#32].map (fun w => decodeWord w []) =
        [.error .illegalOp, .error .illegalOp, .error .illegalOp] ∧
      [0x00000101#32, 0x00000210#32, 0x00000613#32, 0x00000713#32, 0x00010011#32, 0x00084123#32, 0x04000033#32,
          0x00000130#32].map (fun w => decodeWord w []) =
        [.error .badOperand, .error .badOperand, .error .badOperand, .error .badOperand, .error .badOperand,
          .error .badOperand, .error .badOperand, .error .badOperand] := by decide

/-- A stream that ends inside a word or inside a payload is rejected (R104). -/
theorem test_decode_incomplete :
    decode .host [0x01#8, 0x00#8, 0x00#8] = .error .incomplete ∧
      decode .host [0x21#8, 0x03#8, 0x00#8, 0x00#8, 0x80#8] = .error .incomplete := by decide

/-- The opcode table's words: a one-byte row goes to the bus port, a four-byte row to the host port. -/
theorem test_decodeTableWord :
    decodeTableWord 32 0x30 = some .readId ∧ decodeTableWord 8 0x30 = some .nandReadConfirm ∧
      decodeTableWord 32 0x321 = some (.addrCycle [0#8, 0#8, 0#8]) := by decide

/-! ### Well-formedness: one refused term for each check -/

theorem test_wellFormed_addr_count : (Instr.addrCycle [1#8, 2#8, 3#8, 4#8, 5#8]).wellFormed = true ∧
    (Instr.addrCycle [1#8, 2#8, 3#8, 4#8, 5#8, 6#8]).wellFormed = false := by decide
theorem test_framed_addr : (Instr.addrCycle (List.replicate 7 0#8)).framed = true ∧
    (Instr.addrCycle (List.replicate 8 0#8)).framed = false := by decide
theorem test_wellFormed_dataOut : (Instr.dataOut (List.replicate 2112 0#8)).wellFormed = true ∧
    (Instr.dataOut (List.replicate 2113 0#8)).wellFormed = false := by
  simp only [Instr.wellFormed, Instr.framed, Instr.operandsOk, List.length_replicate]
  decide
theorem test_wellFormed_dataIn : (Instr.dataIn 2112#24).wellFormed = true ∧
    (Instr.dataIn 2113#24).wellFormed = false := by decide
theorem test_wellFormed_eraseBlock : (Instr.eraseBlock 262143#24).wellFormed = true ∧
    (Instr.eraseBlock 262144#24).wellFormed = false := by decide
theorem test_wellFormed_writePage : (Instr.writePage 0#24 (List.replicate 2112 0#8)).wellFormed = true ∧
    (Instr.writePage 0#24 (List.replicate 2111 0#8)).wellFormed = false := by
  simp only [Instr.wellFormed, Instr.framed, Instr.operandsOk, List.length_replicate]
  decide

/-! ### One step each, expected results from L1 to L3 -/

/-- P5.1: READ_ID while UNINIT. -/
theorem test_step_notInit : seen (streamed State.reset [0x30#8, 0x00#8, 0x00#8, 0x00#8]) = some ([⟨.notInit, []⟩], []) := by
  decide
/-- P5.2: a reserved word. -/
theorem test_step_illegal :
    seen (streamed State.reset [0x00#8, 0x00#8, 0x00#8, 0x00#8]) = some ([⟨.illegalOp, []⟩], []) := by decide
/-- L2.1: ADDR_CYCLE with N = 6 while READY consumes its payload and answers E_BAD_OPERAND. -/
theorem test_step_badOperand :
    seen (streamed ready [0x21#8, 0x06#8, 0x00#8, 0x00#8, 1#8, 2#8, 3#8, 4#8, 5#8, 6#8]) =
      some ([⟨.badOperand, []⟩], []) := by decide
/-- L2.1: the same while UNINIT answers E_NOT_INIT. -/
theorem test_step_notInit_first :
    seen (streamed State.reset [0x21#8, 0x06#8, 0x00#8, 0x00#8, 1#8, 2#8, 3#8, 4#8, 5#8, 6#8]) =
      some ([⟨.notInit, []⟩], []) := by decide
/-- L2.2: BUS_READ with the draw 3C. -/
theorem test_step_busRead : seen (exec .busRead ready) = some ([⟨.ok, [0x3C#8]⟩], [.sampBus 0x3C#8]) := by decide
/-- L2.2: the four faults in their order. -/
theorem test_step_faults :
    [exec (.busWrite 0xA5#8) ready, exec .busRead outputs, exec (.ctlSet .reN false) outputs,
        exec (.busDir .output) (withLine .reN .low), exec (.ctlSet .reN false) (withLine .weN .low),
        exec (.ctlSet .reN false) { withLine .weN .low with dir := .output },
        exec (.ctlSet .ale true) (withLine .cle .high), exec .readStatus (withLine .weN .low)].map faultOf =
      [some .dirMisuse, some .dirMisuse, some .busContention, some .busContention, some .strobeConflict,
        some .busContention, some .strobeConflict, some .strobeNotIdle] := by decide
/-- L2.4: CMD_CYCLE 0xFF. -/
theorem test_step_cmdCycle : seen (exec (.cmdCycle 0xFF#8) ready) =
    some ([⟨.ok, []⟩],
      [.dir .output, .ctl .cle true, .gate .short, .drive 0xFF#8, .gate .short, .ctl .weN false, .gate .wc,
        .ctl .weN true, .gate .hold, .gate .short, .ctl .cle false, .gate .short]) := by decide
/-- L2.4: DATA_OUT of two bytes, 15 events. -/
theorem test_step_dataOut : (seen (exec (.dataOut [0x11#8, 0x22#8]) ready)).map (fun p => p.2.length) = some 15 := by
  decide
/-- L2.4: BUSY_WAIT with the draws 0, 0, 1. -/
theorem test_step_busyWait : seen (exec .busyWait ready) =
    some ([⟨.ok, []⟩], [.gate .settle, .sampRB false, .sampRB false, .sampRB true, .gate .settle]) := by decide
/-- L2.5: ERASE_BLOCK 2 with the draws 0, 0, 1 and a status whose bit 0 is 0: 75 events. -/
theorem test_step_eraseBlock : (seen (exec (.eraseBlock 2#24) ready)).map (fun p => (p.1, p.2.length)) =
    some ([⟨.ok, [0x3C#8]⟩], 75) := by decide +kernel
/-- L2.5: the full trace of READ_STATUS; here the draw is 3C. -/
theorem test_step_readStatus : seen (exec .readStatus ready) =
    some ([⟨.ok, [0x3C#8]⟩],
      [.dir .output, .ctl .cle true, .gate .short, .drive 0x70#8, .gate .short, .ctl .weN false, .gate .wc,
        .ctl .weN true, .gate .hold, .gate .short, .ctl .cle false, .gate .short, .dir .input, .gate .short,
        .ctl .reN false, .gate .wc, .sampBus 0x3C#8, .ctl .reN true, .gate .hold, .gate .short]) := by decide
/-- P1.2: READ_ID with the oracle. -/
theorem test_step_readId : (seen (exec .readId attached)).map (fun p => (p.1, p.2.length)) =
    some ([⟨.ok, [0xEC#8, 0xDA#8, 0x10#8, 0x95#8, 0x44#8]⟩], 56) := by decide +kernel
/-- P2.1: ERASE_BLOCK 2 with the oracle and K_ERASE = 2. -/
theorem test_step_eraseBlock_oracle : (seen (exec (.eraseBlock 2#24) attached)).map (fun p => (p.1, p.2.length)) =
    some ([⟨.ok, [0xE0#8]⟩], 75) := by decide +kernel
/-- L2.4: a busy wait that the chip never ends stays in progress, with no frame (R180). -/
theorem test_step_hang : seen (exec .busyWait held) = some ([], [.gate .settle, .sampRB false]) := by decide
/-- L2.6: SESSION_INIT from the reset state and from WE_N 0, CLE 1, DIR OUT: 12 events, the same levels. -/
theorem test_step_sessionInit :
    [exec .sessionInit State.reset,
        exec .sessionInit { withLine .weN .low with dir := .output }].map (fun o => (seen o).map fun p => p.2) =
      [some initEvents, some initEvents] := by decide
/-- L2.6: a reset due right after the operation's last event: the whole trace and no frame (R331, R360). -/
theorem test_step_reset_before_frame : seen (step (cut 2 ready (encode .shortPause))) = some ([], [.gate .short]) := by
  decide
/-- R360, R362: a reset right after DELAY_NS was accepted abandons it, with no event and no frame. -/
theorem test_step_reset_after_acceptance :
    seen (step (cut 1 ready (encode (.delayNs 100#24)))) = some ([], []) := by decide
/-- R360: a reset announced between operations comes, with nothing to do. -/
theorem test_step_reset_when_idle : ∃ t, step (cut 1 ready []) = .next t ∧ t.trace = [] ∧ step t = .next t.applyReset :=
  ⟨_, rfl, rfl, rfl⟩
/-- R322, R360: a model fault stops the run until the announced reset, which leaves it with no frame. -/
theorem test_step_reset_leaves_fault :
    (∃ t, step (cut 5 ready (encode (.busWrite 0xA5#8))) = .next t ∧ t.fault = some .dirMisuse ∧ t.frames = [] ∧
      step t = .next t.applyReset) ∧ (stopped (some 3)).applyReset.fault = none := ⟨⟨_, rfl, rfl, rfl, rfl⟩, rfl⟩
/-- R361: after a reset the host in progress restarts with SESSION_INIT. -/
theorem test_step_host_restarts : seen (step (State.applyReset { ready with driver := host .awaitCheck .readId })) =
    some ([], []) ∧ ∃ t, step (State.applyReset { ready with driver := host .awaitCheck .readId }) = .next t ∧
      t.request = [0x01#8, 0x00#8, 0x00#8, 0x00#8] := ⟨by decide, _, rfl, by decide⟩
/-- R73, I18: an erase of a row that the chip does not have answers draws only. -/
theorem test_step_absent_row : (seen (exec (.eraseBlock 4#24) absent)).map (fun p => (p.1, p.2.length)) =
    some ([⟨.statusError, [0x01#8]⟩], 74) := by decide +kernel
/-- R73, I18: after a read confirm of a row that the chip does not have, every ready/busy sample is a draw; a row it has
is busy for K_READ samples (R82). -/
theorem test_step_absent_read :
    (chipReadConfirm { attached.env.chip with mode := .readSetup, abuf := addrPage 256#24 }).busy = none ∧
      (chipReadConfirm { attached.env.chip with mode := .readSetup, abuf := addrPage 255#24 }).busy = some 1 ∧
      seen (exec .busyWait { absent with env := { absent.env with chip := { absent.env.chip with busy := none } } }) =
        some ([⟨.ok, []⟩], [.gate .settle, .sampRB false, .sampRB true, .gate .settle]) := by decide
/-- R276, R277: a run commits a unit, and the write of the next one fails; the file keeps the unit that was committed. -/
theorem test_reply_write_fails_later :
    ∃ d, Driver.reply { host .awaitSecond (.readFull 0 2) with unit := 0, fileFails := some 1 } ⟨.ok, [1#8]⟩ =
        .act d (some .readId) ∧ d.unit = 1 ∧ d.file = [some 1#8] ∧ Driver.reply { d with ctl := .awaitSecond } ⟨.ok, [1#8]⟩ =
        .act { d with ctl := .finished false, reports := d.reports ++ [.fatal .fileWrite] } none :=
  ⟨_, rfl, rfl, rfl, rfl⟩
/-- R107: 0x70 at the bus port is a command cycle, with no frame. -/
theorem test_step_nand : seen (step { ready with busCmd := [0x70#8] }) = some ([], C 0x70#8) := by decide
/-- L1.1: the address bytes of pages 130 and 0x012345, and of blocks 2 and 262143. -/
theorem test_address : addrPage 130#24 = [0x00#8, 0x00#8, 0x82#8, 0x00#8, 0x00#8] ∧
    addrPage 0x012345#24 = [0x00#8, 0x00#8, 0x45#8, 0x23#8, 0x01#8] ∧
    addrRow 2#24 = [0x80#8, 0x00#8, 0x00#8] ∧ addrRow 262143#24 = [0xC0#8, 0xFF#8, 0xFF#8] := by decide
/-- L2.3: 100 ns at CAL 1.2 are 120 cycles, 25 ns at CAL 0.7 are 18. -/
theorem test_gateCycles : gateCycles (12 / 10) 100 = 120 ∧ gateCycles (7 / 10) 25 = 18 := by
  constructor <;> norm_num [gateCycles] <;> rfl
/-- L2.8: write and erase log lines. -/
theorem test_log : (BatchCmd.writeFull 5 6).logLine 5 = .page 5 ∧ (BatchCmd.eraseBlocks 9 10).logLine 9 = .block 9 := by
  decide

/-! ### Witnesses: states and operands that meet an obligation's hypotheses -/

/-- An outcome that shows frames and events is a next state with them. -/
theorem next_of_seen {o : Host.Outcome State Fault Refusal} {fr : List Frame} {es : List Event}
    (h : seen o = some (fr, es)) : ∃ t, o = .next t ∧ t.frames = fr ∧ t.trace = es.reverse := by
  unfold seen at h
  split at h
  · rename_i t
    simp only [Option.some.injEq, Prod.mk.injEq] at h
    exact ⟨t, rfl, h.1, by rw [← h.2, List.reverse_reverse]⟩
  · simp at h

/-- An outcome that shows something is a next state. -/
theorem next_of_isSome {o : Host.Outcome State Fault Refusal} (h : (seen o).isSome = true) : ∃ t, o = .next t := by
  obtain ⟨p, hp⟩ := Option.isSome_iff_exists.mp h
  obtain ⟨t, ht, -⟩ := next_of_seen (fr := p.1) (es := p.2) hp
  exact ⟨t, ht⟩

theorem ready_settled : ready.settled := ⟨rfl, rfl, rfl, rfl⟩
theorem attached_settled : attached.settled := ⟨rfl, rfl, rfl, rfl⟩
theorem attached_oracle : oracle attached := ⟨rfl, rfl⟩
theorem ready_comes : readyComes ready := ⟨rfl, .inr (by decide)⟩
theorem attached_comes : readyComes attached := ⟨rfl, .inl ⟨rfl, rfl, by decide⟩⟩
theorem absent_settled : absent.settled := ⟨rfl, rfl, rfl, rfl⟩
theorem ready_comesFor (r : Nat) : readyComesFor r ready := ⟨rfl, .inr (by decide)⟩
theorem attached_comesFor {r : Nat} (h : r < 256) : readyComesFor r attached := ⟨rfl, .inl ⟨rfl, rfl, h⟩⟩
theorem absent_comesFor (r : Nat) : readyComesFor r absent := ⟨rfl, .inr (show true ∈ [false, true] by decide)⟩
theorem ready_inv : ready.inv := by
  refine ⟨fun _ => ⟨by decide, by decide, fun l => ?_, rfl⟩, ?_, rfl, ?_⟩
  · cases l <;> decide
  · exact ⟨by decide, by decide, by decide⟩
  · exact ⟨List.Pairwise.nil, by simp [ready, State.reset, Env.initial, Chip.initial]⟩

/-- READ_PAGE completes from a state whose ready sample comes, external chip or oracle. -/
theorem readPage_next (p : Arg24) {s : State} (hs : s.settled) (hh : s.env.heldBusy = false)
    (hc : (s.env.selected s.lvl = true ∧ p.toNat < s.env.chip.numPages) ∨ true ∈ s.env.rbDraws) :
    ∃ t f, exec (.readPage p) s = .next t ∧ t.frames = s.frames ++ [f] := by
  obtain ⟨h1, h2, -, h4⟩ := hs
  rw [exec, execReadPage, operation_ready h1 rfl h4, readPageBody, requireIdle_ok h2, andThen_ok,
    addressed_run _ _ (by simp [addrPage]) _ _ _ h4 h2, busyPhase_start _ (by exact h4),
    awaitReady_ready _ (by exact h4) (by simpa using hh) (by exact addressed_read_ready h2 hc), andThen_ok, afterBusy,
    dinPhase_idle _ (by decide) _ (by exact h4) (by exact h2), bind_ok, finish_complete _ _ (by exact h4)]
  generalize Env.readCycles _ _ _ = rc
  exact ⟨_, _, rfl, rfl⟩

/-- WRITE_PAGE completes from a state whose ready sample comes, external chip or oracle. -/
theorem writePage_next (p : Arg24) {buf : List Byte} (hb : buf.length = 2112) {s : State} (hs : s.settled)
    (hh : s.env.heldBusy = false)
    (hc : (s.env.selected s.lvl = true ∧ p.toNat < s.env.chip.numPages) ∨ true ∈ s.env.rbDraws) :
    ∃ t f, exec (.writePage p buf) s = .next t ∧ t.frames = s.frames ++ [f] := by
  obtain ⟨h1, h2, -, h4⟩ := hs
  have hne : buf ≠ [] := by rintro rfl; simp at hb
  have hf : (Instr.writePage p buf).framed = true := decide_eq_true hb
  rw [exec, execWritePage, if_pos hf, operation_ready h1 rfl h4, writePageBody]
  simp only [requireIdle_ok h2, andThen_ok]
  rw [programmed_run _ _ (by simp [addrPage]) _ hne _ _ _ h4 h2, busyPhase_start _ (by exact h4),
    awaitReady_ready _ (by exact h4) (by simpa using hh) (by exact programmed_write_ready h2 hb hc), andThen_ok,
    afterBusy, statusTxn_idle _ (by exact h4) (by exact h2), bind_ok, finish_complete _ _ (by exact h4)]
  generalize (Env.readCycle _ _) = rc
  exact ⟨_, _, rfl, rfl⟩

/-- What the statements over an instruction's added events assume, from its next state and the frame it added. -/
theorem added {i : Instr} {s t : State} {f : Frame} (h : exec i s = .next t) (hf : t.frames = s.frames ++ [f]) :
    ∃ es, t.trace = List.reverse es ++ s.trace ∧ t.frames ≠ s.frames := by
  obtain ⟨es, he⟩ := kept_exec kept_trace (fun _ _ => ⟨[], rfl⟩)
    ⟨fun _ _ _ => ⟨[], rfl⟩, fun _ _ => ⟨[], rfl⟩, fun _ _ => ⟨[], rfl⟩, fun _ => ⟨[], rfl⟩⟩ h
  exact ⟨es.reverse, by rw [List.reverse_reverse]; exact he, by rw [hf]; simp⟩

theorem witness_DecodeOfEncodeIsIdentity (buf : List Byte) (h : buf.length = 2112) :
    (Instr.addrCycle [1#8, 2#8, 3#8, 4#8, 5#8]).wellFormed = true ∧ (Instr.dataOut buf).wellFormed = true ∧
      (Instr.writePage 0xFFFFFF#24 buf).wellFormed = true ∧ (Instr.eraseBlock 262143#24).wellFormed = true ∧
      (Instr.dataIn 2112#24).wellFormed = true ∧ Instr.nandReadId.wellFormed = true := by
  refine ⟨by decide, ?_, ?_, by decide, by decide, by decide⟩ <;>
    simp [Instr.wellFormed, Instr.framed, Instr.operandsOk, pageSize, h]

/-- The four clauses, with no reset announced: a reserved OP at either end of a reserved range, a word while UNINIT, a failed operand check
while READY and for SESSION_INIT while UNINIT, and a legal word. -/
theorem witness_EveryWordIsCheckedInOrder :
    (fetches { State.reset with request := bytesOfWord 0x35#32 } ∧ reservedOp (0x35#32).toNat = true ∧
        reservedOp (0x2F#32).toNat = true ∧ payloadBytes (0x35#32).toNat = 0) ∧
      (fetches { State.reset with request := bytesOfWord 0x30#32 } ∧ State.reset.sst = .uninit ∧
        reservedOp (0x30#32).toNat = false ∧ (0x30#32).toNat % 256 ≠ 1) ∧
      (fetches { ready with request := bytesOfWord 0x621#32 ++ [1#8, 2#8, 3#8, 4#8, 5#8, 6#8] } ∧
        payloadBytes (0x621#32).toNat = 6 ∧ operandFails (0x621#32).toNat = true ∧
        reservedOp ((0x621#32).toNat % 256) = false ∧ ready.sst = .ready) ∧
      (operandFails (0x101#32).toNat = true ∧ reservedOp ((0x101#32).toNat % 256) = false ∧
        (0x101#32).toNat % 256 = 1) ∧
      (fetches { ready with request := bytesOfWord 0xFFFFFF31#32 } ∧ ready.resetAfter = none ∧
        State.reset.resetAfter = none ∧ operandFails (0xFFFFFF31#32).toNat = false ∧
        payloadBytes (0xFFFFFF31#32).toNat = 0) :=
  ⟨⟨⟨by decide, rfl, rfl⟩, by decide, by decide, by decide⟩, ⟨⟨by decide, rfl, rfl⟩, rfl, by decide, by decide⟩,
    ⟨⟨by decide, rfl, rfl⟩, by decide, by decide, by decide, rfl⟩, ⟨by decide, by decide, by decide⟩,
    ⟨⟨by decide, rfl, rfl⟩, rfl, rfl, by decide, by decide⟩⟩

theorem witness_StepRunsDecodedInstruction :
    (fetches { ready with busCmd := [0xD0#8, 0x70#8] } ∧
        decode .bus [0xD0#8, 0x70#8] = .ok (.nandEraseConfirm, [0x70#8])) ∧
      (fetches { ready with request := [0x31#8, 0x45#8, 0x23#8, 0x01#8] } ∧ ready.busCmd = [] ∧
        decode .host [0x31#8, 0x45#8, 0x23#8, 0x01#8] = .ok (.readPage 0x012345#24, [])) ∧
      fetches (cut 1 ready [0x31#8, 0x45#8, 0x23#8, 0x01#8]) :=
  ⟨⟨⟨by decide, rfl, rfl⟩, by decide⟩, ⟨⟨by decide, rfl, rfl⟩, rfl, by decide⟩, by decide, rfl, rfl⟩

theorem witness_UnnamedCommandByteIsSent :
    State.settled { ready with busCmd := [0xFF#8] } ∧ ready.fault = none ∧
      0xFF#8 ∉ [0x90#8, 0x00#8, 0x30#8, 0x80#8, 0x10#8, 0x60#8, 0xD0#8, 0x70#8] :=
  ⟨⟨rfl, rfl, rfl, rfl⟩, rfl, by decide⟩

theorem witness_UninitRejectsEveryOperation :
    Instr.readId.port = .host ∧ Instr.readId.framed = true ∧ Instr.readId ≠ .sessionInit ∧
      State.reset.sst = .uninit ∧ State.reset.resetAfter = none := by decide

theorem witness_ResultsOfEachOperation :
    (Instr.addrCycle (List.replicate 7 0#8)).port = .host ∧ (Instr.addrCycle (List.replicate 7 0#8)).framed = true ∧
      ready.resetAfter = none := by decide

/-- A rejection, and a result with its payload. -/
theorem witness_ResultPayloadLengths :
    (∃ t, exec (.dataIn 2113#24) ready = .next t ∧ t.frames = ready.frames ++ [⟨.badOperand, []⟩]) ∧
      ∃ t, exec .busRead ready = .next t ∧ t.frames = ready.frames ++ [⟨.ok, [0x3C#8]⟩] :=
  ⟨⟨_, rfl, rfl⟩, ⟨_, rfl, rfl⟩⟩

theorem witness_SessionInitOpensSession : State.reset.resetAfter = none ∧ ready.resetAfter = none := ⟨rfl, rfl⟩
theorem witness_SessionEndClosesSession : ready.sst = .ready ∧ ready.resetAfter = none := ⟨rfl, rfl⟩

/-- Into a session, out of it by SESSION_END, and out of it by reset, for an instruction and for a step; the steps of a
waiting operation, of an unnamed command byte and of the host among them. -/
theorem witness_SessionChangesOnlyBySessionOperations :
    (∃ t, exec .sessionInit State.reset = .next t ∧ State.reset.sst = .uninit ∧ t.sst = .ready) ∧
      (∃ t, exec .sessionEnd ready = .next t ∧ ready.sst = .ready ∧ t.sst = .uninit) ∧
      (∃ t, exec .shortPause { ready with resetAfter := some 0 } = .next t ∧ t.sst = .uninit) ∧
      (∃ t, step { State.reset with request := encode .sessionInit } = .next t ∧ t.sst = .ready) ∧
      (∃ t, step { ready with request := encode .sessionEnd } = .next t ∧ t.sst = .uninit) ∧
      (∃ t, step { waiting .busyWait with resetAfter := some 1 } = .next t ∧ t.sst = .uninit) ∧
      (∃ t, step { ready with busCmd := [0xFF#8] } = .next t) ∧
      ∃ t, step { ready with driver := host .invoked .readId } = .next t :=
  ⟨⟨_, rfl, rfl, rfl⟩, ⟨_, rfl, rfl, rfl⟩, ⟨_, rfl, rfl⟩, ⟨_, rfl, rfl⟩, ⟨_, rfl, rfl⟩, ⟨_, rfl, rfl⟩, ⟨_, rfl⟩, _, rfl⟩

theorem witness_BusDirSetsDirection :
    ready.sst = .ready ∧ ready.resetAfter = none ∧ ¬(LaneDir.output = .output ∧ ready.lvl.reN = .low) ∧
      ¬(LaneDir.input = .output ∧ (withLine .reN .low).lvl.reN = .low) := by decide
theorem witness_BusWriteDrivesByte : outputs.sst = .ready ∧ outputs.resetAfter = none ∧ outputs.dir = .output := by decide
/-- The oracle that drives an identity byte, a byte beyond the fifth, its status and a byte of the page register; the oracle
that drives none; and an external chip. -/
theorem witness_BusReadAnswersSample :
    (ready.sst = .ready ∧ ready.resetAfter = none ∧ ready.dir = .input) ∧
      (∀ m i c, (reading m i c).sst = .ready ∧ (reading m i c).resetAfter = none ∧ (reading m i c).dir = .input ∧
        oracle (reading m i c) ∧ (reading m i c).lvl.reN = .low ∧ (reading m i c).env.busDraws = [0x77#8]) ∧
      (oracleDrives (reading .id 4 0).env.chip 0x44#8 ∧ oracleDrives (reading .id 5 0).env.chip 0x00#8 ∧
        oracleDrives (reading .status 0 0).env.chip 0xE0#8 ∧ oracleDrives (reading .read 0 1).env.chip 0x22#8) ∧
      (∀ w, ¬oracleDrives (reading .none 0 0).env.chip w) ∧ (∀ w, ¬oracleDrives (reading .read 0 2).env.chip w) ∧
      ¬oracle ready := by
  refine ⟨by decide, fun _ _ _ => ⟨rfl, rfl, rfl, ⟨rfl, rfl⟩, rfl, rfl⟩, ?_, ?_, ?_, by simp [oracle, ready, State.reset, Env.initial, Chip.initial]⟩
  all_goals simp [oracleDrives, reading, attached, ready, State.reset, Env.initial, Chip.initial]
theorem witness_CtlSetDrivesLine :
    ready.sst = .ready ∧ ready.resetAfter = none ∧ ctlConflicts .weN true ready = false ∧
      ctlConflicts .reN false ready = false ∧ ctlConflicts .cle true ready = false ∧
      ctlConflicts .weN true (withLine .weN .low) = false := by decide
theorem witness_RbReadAnswersSample :
    (ready.sst = .ready ∧ ready.resetAfter = none ∧ ready.env.heldBusy = false ∧ oracleCount ready = none ∧
        ready.env.rbDraws = [false, false, true]) ∧
      (held.sst = .ready ∧ held.resetAfter = none ∧ held.env.heldBusy = true) ∧
      (∀ n, (counting n).sst = .ready ∧ (counting n).resetAfter = none ∧ (counting n).env.heldBusy = false ∧
        oracleCount (counting n) = n ∧ (counting n).env.rbDraws = [false, true]) :=
  ⟨by decide, by decide, fun _ => ⟨rfl, rfl, rfl, rfl, rfl⟩⟩

/-- One state for each clause. -/
theorem witness_RawPrimitiveMisuseFaults :
    (ready.sst = .ready ∧ ready.resetAfter = none) ∧ ready.dir ≠ .output ∧ outputs.dir ≠ .input ∧
      (withLine .reN .low).lvl.reN = .low ∧ outputs.dir = .output ∧ (withLine .weN .low).dir ≠ .output ∧
      (withLine .weN .low).lvl.weN = .low ∧ (withLine .ale .high).lvl.ale = .high ∧
      (withLine .cle .high).lvl.cle = .high ∧ (withLine .reN .low).sst = .ready := by decide

/-- One event and state for each branch. -/
theorem witness_HazardCheckStopsEvent :
    (withLine .reN .low).resetAfter = none ∧
      (Event.dir .output = .dir .output ∧ (withLine .reN .low).lvl.reN = .low) ∧
      (Event.ctl .reN false = .ctl .reN false ∧ outputs.dir = .output) ∧
      (Event.ctl .weN false = .ctl .weN false ∧ (withLine .reN .low).lvl.reN = .low) ∧
      (Event.ctl .reN false = .ctl .reN false ∧ (withLine .weN .low).lvl.weN = .low ∧ ready.dir ≠ .output) ∧
      (Event.ctl .cle true = .ctl .cle true ∧ (withLine .ale .high).lvl.ale = .high) ∧
      (Event.ctl .ale true = .ctl .ale true ∧ (withLine .cle .high).lvl.cle = .high) ∧
      hazard .cfgPins ready = none := by decide

theorem witness_DelayAndPauseEmitGates : ready.sst = .ready ∧ ready.resetAfter = none := ⟨rfl, rfl⟩
theorem witness_GateCyclesAreCeiling : (0 : Rat) ≤ 12 / 10 ∧ (0 : Rat) ≤ 0 := by constructor <;> norm_num

/-- Every operation of the table completes from `ready`, or with the ready sample that `ready` supplies. -/
theorem witness_MinimumDurations (buf : List Byte) (hb : buf.length = 2112) :
    ready.resetAfter = none ∧ ready.sst = .ready ∧ (Instr.writePage 5#24 buf).wellFormed = true ∧
      ∀ i ∈ [Instr.sessionInit, .cmdCycle 0x90#8, .addrCycle [1#8, 2#8, 3#8, 4#8, 5#8], .addrCycle [],
          .dataOut [1#8], .dataIn 3#24, .dataIn 0#24, .busyWait, .readId, .readStatus, .readPage 5#24,
          .writePage 5#24 buf, .eraseBlock 262143#24],
        ∃ t es, exec i ready = .next t ∧ t.trace = List.reverse es ++ ready.trace ∧ t.frames ≠ ready.frames := by
  have hk : ∀ i : Instr, (match seen (exec i ready) with | some (fr, _) => fr.length == 1 | none => false) = true →
      ∃ t es, exec i ready = .next t ∧ t.trace = List.reverse es ++ ready.trace ∧ t.frames ≠ ready.frames := by
    intro i h
    split at h
    · rename_i fr es hs
      obtain ⟨t, h1, h2, h3⟩ := next_of_seen hs
      refine ⟨t, es, h1, by rw [h3]; exact (List.append_nil _).symm, ?_⟩
      rw [h2]
      rintro rfl
      exact absurd h (by decide)
    · exact absurd h (by decide)
  refine ⟨rfl, rfl, by simp [Instr.wellFormed, Instr.framed, Instr.operandsOk, hb, pageSize], ?_⟩
  simp only [List.forall_mem_cons, List.not_mem_nil, false_implies, implies_true, and_true]
  refine ⟨hk _ (by decide), hk _ (by decide), hk _ (by decide +kernel), hk _ (by decide), hk _ (by decide),
    hk _ (by decide +kernel), hk _ (by decide), hk _ (by decide), hk _ (by decide +kernel), hk _ (by decide +kernel),
    ?_, ?_, hk _ (by decide +kernel)⟩
  · obtain ⟨t, f, h1, h2⟩ := readPage_next 5#24 ready_settled rfl (.inr (by decide))
    obtain ⟨es, h3⟩ := added h1 h2
    exact ⟨t, es, h1, h3⟩
  · obtain ⟨t, f, h1, h2⟩ := writePage_next 5#24 hb ready_settled rfl (.inr (by decide))
    obtain ⟨es, h3⟩ := added h1 h2
    exact ⟨t, es, h1, h3⟩

theorem witness_CmdCycleSendsCommand : ready.settled := ready_settled
theorem witness_AddrCycleSendsAddress : ready.settled ∧ [1#8, 2#8, 3#8, 4#8, 5#8].length ≤ 5 ∧
    [1#8, 2#8, 3#8, 4#8, 5#8] ≠ [] ∧ ([] : List Byte).length ≤ 5 := ⟨ready_settled, by decide, by decide, by decide⟩
theorem witness_DataOutWritesBytes : ready.settled ∧ (List.replicate 2112 0#8).length ≤ 2112 ∧
    List.replicate 2112 0#8 ≠ [] ∧ ([] : List Byte).length ≤ 2112 :=
  ⟨ready_settled, by rw [List.length_replicate], List.ne_nil_of_length_eq_add_one List.length_replicate, by decide⟩
theorem witness_DataInReadsBytes : ready.settled ∧ (2112#24).toNat ≤ 2112 ∧ 2112#24 ≠ 0#24 ∧ (0#24).toNat ≤ 2112 :=
  ⟨ready_settled, by decide, by decide, by decide⟩
theorem witness_BusyWaitEndsAtReady :
    (ready.sst = .ready ∧ ready.resetAfter = none ∧ readyComes ready) ∧
      (attached.sst = .ready ∧ attached.resetAfter = none ∧ readyComes attached) ∧
      (∀ n, (counting (some n)).sst = .ready ∧ (counting (some n)).resetAfter = none ∧ readyComes (counting (some n)) ∧
        oracleCount (counting (some n)) ≠ none) ∧
      readyComes (counting none) :=
  ⟨⟨rfl, rfl, ready_comes⟩, ⟨rfl, rfl, attached_comes⟩,
    fun _ => ⟨rfl, rfl, ⟨rfl, .inl ⟨rfl, rfl, nofun⟩⟩, nofun⟩, rfl, .inr (show true ∈ [false, true] by decide)⟩
theorem witness_StrobesNotIdleFaults :
    (composite (.dataIn 2112#24) = true ∧ (withLine .ale .high).sst = .ready ∧
        (withLine .ale .high).strobesIdle = false) ∧
      (nandByte .nandReadStatus ≠ none ∧ (withLine .reN .low).strobesIdle = false) ∧
      (withLine .ale .high).resetAfter = none ∧ (cut 1 (withLine .ale .high) []).resetAfter = some (0 + 1) ∧
      (cut 1 (withLine .ale .high) []).strobesIdle = false := by decide
theorem witness_ReadIdReadsFiveBytes : ready.settled := ready_settled
theorem witness_ReadStatusReturnsByte : ready.settled ∧ attached.settled ∧ oracle attached :=
  ⟨ready_settled, attached_settled, attached_oracle⟩
theorem witness_ReadPageReadsWholePage :
    (ready.settled ∧ readyComesFor (0xFFFFFF#24).toNat ready) ∧
      (attached.settled ∧ readyComesFor (255#24).toNat attached ∧ oracle attached ∧
        (255#24).toNat < attached.env.chip.numPages) ∧
      absent.settled ∧ readyComesFor (256#24).toNat absent :=
  ⟨⟨ready_settled, ready_comesFor _⟩,
    ⟨attached_settled, attached_comesFor (by decide), attached_oracle, by decide⟩, absent_settled, absent_comesFor _⟩
theorem witness_WritePageWritesThenReadsStatus :
    (ready.settled ∧ readyComesFor (0xFFFFFF#24).toNat ready ∧ (List.replicate 2112 0#8).length = 2112) ∧
      (attached.settled ∧ readyComesFor (255#24).toNat attached) ∧
      absent.settled ∧ readyComesFor (256#24).toNat absent :=
  ⟨⟨ready_settled, ready_comesFor _, List.length_replicate⟩, ⟨attached_settled, attached_comesFor (by decide)⟩,
    absent_settled, absent_comesFor _⟩
theorem witness_EraseBlockErasesThenReadsStatus :
    (ready.settled ∧ readyComesFor ((262143#24).toNat * 64) ready ∧ (262143#24).toNat * 64 < 2 ^ 24) ∧
      (attached.settled ∧ readyComesFor ((3#24).toNat * 64) attached) ∧
      absent.settled ∧ readyComesFor ((4#24).toNat * 64) absent :=
  ⟨⟨ready_settled, ready_comesFor _, by decide⟩, ⟨attached_settled, attached_comesFor (by decide)⟩, absent_settled,
    absent_comesFor _⟩

/-- Each transaction of the table completes from `ready`. -/
theorem witness_TransactionEventCounts (buf : List Byte) (hb : buf.length = 2112) :
    ready.resetAfter = none ∧ ready.sst = .ready ∧ (Instr.writePage 5#24 buf).wellFormed = true ∧
      ∀ i ∈ [Instr.readId, .readStatus, .readPage 5#24, .writePage 5#24 buf, .eraseBlock 262143#24],
        ∃ t es, exec i ready = .next t ∧ t.trace = List.reverse es ++ ready.trace ∧ t.frames ≠ ready.frames := by
  obtain ⟨h1, h2, h3, h4⟩ := witness_MinimumDurations buf hb
  refine ⟨h1, h2, h3, fun i hi => h4 i ?_⟩
  simp only [List.mem_cons, List.not_mem_nil, or_false] at hi ⊢
  tauto

theorem witness_OperationsWaitWhileBusy :
    held.settled ∧ held.env.heldBusy = true ∧ (List.replicate 2112 0#8).length = 2112 ∧
      (262143#24).toNat * 64 < 2 ^ 24 := ⟨⟨rfl, rfl, rfl, rfl⟩, rfl, List.length_replicate, by decide⟩
theorem witness_BusyWaitHasNoTimeout :
    State.pending { held with ph := .busyWait, pending := some .readPage } = some .readPage ∧
      held.fault = none ∧ held.resetAfter = none ∧ held.env.heldBusy = true := by decide

/-- Each kind of waiting operation. -/
theorem witness_WaitingOperationCompletes :
    ∀ op, (waiting op).resetAfter = none ∧ (waiting op).fault = none ∧ readyComes (waiting op) ∧ (waiting op).pending = some op ∧
      (waiting op).strobesIdle = true := by
  intro op
  exact ⟨rfl, rfl, ⟨rfl, .inr (show true ∈ [false, true] by decide)⟩, rfl, rfl⟩
/-- A wait that ends, and one that reset ends. -/
theorem witness_WaitingOperationIsExclusive :
    ((waiting .busyWait).pending = some .busyWait ∧ ∃ t, step (waiting .busyWait) = .next t) ∧
      ((cut 1 (waiting .busyWait) []).pending = some .busyWait ∧
        ∃ t, step (cut 1 (waiting .busyWait) []) = .next t ∧ t.sst = .uninit) := ⟨⟨rfl, _, rfl⟩, rfl, _, rfl, rfl⟩

/-- A host that waits, one that was just invoked, and one that ended. -/
theorem witness_ResetPutsEveryFieldToItsValue :
    ((host .awaitFirst (.readFull 7 8)).ctl ≠ .off ∧ (host .awaitFirst (.readFull 7 8)).ctl ≠ .invoked ∧
        ∀ b, (host .awaitFirst (.readFull 7 8)).ctl ≠ .finished b) ∧
      (host .invoked .readId).ctl = .invoked ∧ ready.driver.ctl = .off ∧
      ∃ b, (host (.finished true) .readId).ctl = .finished b :=
  ⟨⟨by decide, by decide, by decide⟩, rfl, rfl, _, rfl⟩

/-- A reset that is due while an operation waits and another is streamed, at the start of an operation, and a run that
a model fault stopped, with and without an announced reset. -/
theorem witness_ResetHasPriority :
    (cut 0 (waiting .writePage) [0x30#8]).resetAfter = some 0 ∧
      (Instr.shortPause.framed = true ∧ (cut 0 ready []).resetAfter = some 0) ∧
      ((stopped (some 3)).fault = some .dirMisuse ∧ (stopped (some 3)).resetAfter = some 3) ∧
      ((stopped none).fault = some .dirMisuse ∧ (stopped none).resetAfter = none) := by decide
theorem witness_ResetCutsCommandCycle :
    (ready.sst = .ready ∧ ready.strobesIdle = true) ∧ State.resetAfter { ready with resetAfter := some 0 } = some 0 ∧
      0 ≤ 12 ∧ State.resetAfter { ready with resetAfter := some 12 } = some 12 ∧ 12 ≤ 12 := by decide
theorem witness_NandCommandsAreCommandCycles :
    ready.settled ∧ nandByte .nandProgramConfirm = some 0x10#8 ∧ nandByte .nandReadId = some 0x90#8 :=
  ⟨ready_settled, rfl, rfl⟩
theorem witness_AddressBytesCarryRow : (0#24).toNat * 64 < 2 ^ 24 ∧ (262143#24).toNat * 64 < 2 ^ 24 := by decide
theorem witness_LanePathsAgree :
    State.dir { outputs with dout := .byte 0xA5#8 } = .output ∧
      State.dout { outputs with dout := .byte 0xA5#8 } = .byte 0xA5#8 := ⟨rfl, rfl⟩
theorem witness_DriveChangesOneLaneAtATime : 8 ≤ 8 ∧ 0 ≤ 8 ∧ 7 < 8 := by decide
theorem witness_MemoryReadAfterWrite : Memory.wf [] ∧ Memory.wf [(3, 0x00#8), (7, 0x12#8)] ∧ 4 ≠ 3 := by decide
theorem witness_OracleAnswersIdentity :
    attached.settled ∧ oracle attached ∧ attached.env.chip.id.length = 5 ∧ ∃ t, exec .readId attached = .next t :=
  ⟨attached_settled, attached_oracle, rfl, next_of_isSome (by decide +kernel)⟩
theorem witness_OracleProgramsPage :
    attached.settled ∧ oracle attached ∧ attached.env.heldBusy = false ∧ attached.env.chip.arr.wf ∧
      (255#24).toNat < attached.env.chip.numPages ∧ (List.replicate 2112 0#8).length = 2112 ∧
      ∃ t, exec (.writePage 255#24 (List.replicate 2112 0#8)) attached = .next t := by
  refine ⟨attached_settled, attached_oracle, rfl, by decide, by decide, List.length_replicate, ?_⟩
  obtain ⟨t, _, h, -⟩ := writePage_next 255#24 (buf := List.replicate 2112 0#8) List.length_replicate attached_settled
    rfl (.inl ⟨rfl, by decide⟩)
  exact ⟨t, h⟩
theorem witness_OracleErasesBlock :
    attached.settled ∧ oracle attached ∧ attached.env.heldBusy = false ∧ (3#24).toNat * 64 < 2 ^ 24 ∧
      (3#24).toNat * 64 + 64 ≤ attached.env.chip.numPages ∧ ∃ t, exec (.eraseBlock 3#24) attached = .next t :=
  ⟨attached_settled, attached_oracle, rfl, by decide, by decide, next_of_isSome (by decide +kernel)⟩
theorem witness_PageRoundTripOnErasedPage :
    attached.settled ∧ oracle attached ∧ attached.env.heldBusy = false ∧ attached.env.chip.arr.wf ∧
      (255#24).toNat < attached.env.chip.numPages ∧ (255#24).toNat ∉ attached.env.chip.failProg ∧
      (List.replicate 2112 0x5A#8).length = 2112 ∧
      ∀ c, c < 2112 → attached.env.chip.arr.read ((255#24).toNat * 2112 + c) = 0xFF#8 :=
  ⟨attached_settled, attached_oracle, rfl, by decide, by decide, by decide, List.length_replicate, fun _ _ => rfl⟩
theorem witness_ArrayUnchangedWithoutConfirm :
    mayStore .readStatus = false ∧ attached.resetAfter = none ∧ ∃ t, exec .readStatus attached = .next t :=
  ⟨rfl, rfl, next_of_isSome (by decide +kernel)⟩
theorem witness_StepKeepsMachineInvariant : ready.inv ∧ ∃ t, step ready = .next t := ⟨ready_inv, _, rfl⟩
theorem witness_CompositeOperationsKeepLevels :
    (composite .readStatus = true ∧ ready.resetAfter = none ∧ ∃ t, exec .readStatus ready = .next t) ∧
      (nandByte .nandReadStatus ≠ none ∧ ∃ t, exec .nandReadStatus ready = .next t) ∧
      (∃ t, exec .busyWait (withLine .reN .low) = .next t) ∧
      ((waiting .busyWait).pending = some .busyWait ∧ (waiting .busyWait).resetAfter = none ∧
        ∃ t, step (waiting .busyWait) = .next t) ∧
      ((waiting .eraseBlock).pending = some .eraseBlock ∧ (waiting .eraseBlock).strobesIdle = true ∧
        ∃ t, step (waiting .eraseBlock) = .next t) :=
  ⟨⟨rfl, rfl, next_of_isSome (by decide +kernel)⟩, ⟨by decide, next_of_isSome (by decide +kernel)⟩,
    next_of_isSome (by decide), ⟨rfl, rfl, next_of_isSome (by decide)⟩, rfl, rfl, next_of_isSome (by decide +kernel)⟩
theorem witness_TraceOnlyGrows : ∃ t, step { ready with request := [0x19#8, 0x00#8, 0x00#8, 0x00#8] } = .next t :=
  ⟨_, rfl⟩
theorem witness_HostProceduresNeverFault :
    State.inv { ready with request := encode .readId } ∧ State.hostOnly { ready with request := encode .readId } :=
  ⟨ready_inv, fun _ => rfl, rfl, rfl, .inr ⟨.readId, rfl, rfl, rfl⟩, fun _ _ h => by simp [ready, State.reset, Driver.initial] at h⟩

/-- A page of zeros, taken from the file of a host that comes to unit 7. -/
def zeroPage : List Byte := List.replicate 2112 0#8

/-- A file that is one page long holds page 0. -/
theorem holds_zeroPage : holds (List.replicate 2112 (some 0#8)) 0 zeroPage := by
  intro k hk
  simp only [zeroPage, List.length_replicate] at hk ⊢
  rw [Nat.zero_add, List.getElem?_replicate_of_lt hk, List.getElem?_replicate_of_lt hk]

/-- An empty file holds no page. -/
theorem not_holds_empty (off : Nat) (buf : List Byte) (h : buf.length = 2112) : ¬holds [] off buf := by
  intro hh
  simpa using hh 0 (by rw [h]; decide)

/-- Five equal bytes, and bytes that differ only in the last; for read_id, and for another command with units, with
none, and with a unit beyond an operation word; a write command whose file holds its first page, and one whose file
does not; a command with no file, and each with one, whose accesses to it succeed or begin to fail; the host's first two
moves, with a process setup that succeeds or fails; and a machine whose host was just invoked, waits with and without a
result frame, was never invoked and ended. -/
theorem witness_HostStartCapturesIdentity :
    (host .awaitId .readId).ctl = .awaitId ∧ (0xFF#8 = 0xFF#8 ∧ 0xFF#8 = 0xFF#8) ∧
      ¬(0#8 = 0#8 ∧ 0#8 = 0#8 ∧ 0#8 = 0#8 ∧ 0#8 = 1#8) ∧ (host .awaitId .readId).cmd = .readId ∧
      (∃ d' i, (host .awaitId .readId).reply ⟨.ok, [0#8, 0#8, 0#8, 0#8, 1#8]⟩ = .act d' i) ∧
      (∃ d', (host .awaitId (.readFull 0 4)).reply ⟨.ok, [0#8, 0#8, 0#8, 0#8, 1#8]⟩ = .act d' (some .readId)) ∧
      (host .awaitId (.readFull 0 4)).cmd ≠ .readId ∧ (rangeOf (.readFull 0 4)).1 < (rangeOf (.readFull 0 4)).2 ∧
      (rangeOf (.eraseBlocks 4 4)).2 ≤ (rangeOf (.eraseBlocks 4 4)).1 ∧
      ((rangeOf (.readData 0x1000000 0x1000001)).1 < (rangeOf (.readData 0x1000000 0x1000001)).2 ∧
        2 ^ 24 ≤ (rangeOf (.readData 0x1000000 0x1000001)).1) ∧
      (zeroPage.length = 2112 ∧ holds (List.replicate 2112 (some 0#8))
        (regionStart (host .awaitId (.writeFull 0 1)) 0) zeroPage) ∧
      (∀ buf, buf.length = 2112 → ¬holds [] (regionStart (host .awaitId (.writeFull 0 1)) 0) buf) ∧
      (usesFile (.eraseBlocks 4 4) = false ∧ ∀ cmd ∈ [BatchCmd.readFull 0 4, .readData 0 4, .writeFull 0 1],
        usesFile cmd = true ∧ (host .awaitId cmd).fileFails ≠ some 0 ∧
          ∀ n, Driver.fileFails { host .awaitId cmd with fileFails := some n } = some n) ∧
      ((host .invoked .readId).setupFails = false ∧
        Driver.setupFails { host .invoked .readId with setupFails := true } = true ∧
        (host .awaitInit .readId).ctl = .awaitInit) ∧
      (∀ ctl fr, fetches (moving ctl fr) ∧ (moving ctl fr).busCmd = [] ∧ (moving ctl fr).request = [] ∧
        (moving ctl fr).driver.ctl = ctl ∧ (moving ctl fr).frames = fr) ∧
      ∀ fr, waitsForFrame (moving .awaitInit fr).driver :=
  ⟨rfl, by decide, by decide, rfl, ⟨_, _, rfl⟩, ⟨_, rfl⟩, by decide, by decide, by decide, by decide,
    ⟨List.length_replicate, holds_zeroPage⟩, fun buf h => not_holds_empty _ buf h,
    ⟨rfl, fun cmd hc => ⟨by revert cmd; decide, nofun, fun _ => rfl⟩⟩, ⟨rfl, rfl, rfl⟩,
    fun _ _ => ⟨⟨nofun, rfl, rfl⟩, rfl, rfl, rfl, rfl⟩, fun _ => ⟨nofun, nofun, nofun⟩⟩

/-- An identity that differs, and a matching one for each kind of command. -/
theorem witness_IdentityCheckBeforeEachAttempt :
    (host .awaitCheck (.readFull 7 8)).ctl = .awaitCheck ∧ [9#8] ≠ (host .awaitCheck (.readFull 7 8)).id0 ∧
      [1#8, 2#8, 3#8, 4#8, 5#8] = (host .awaitCheck (.writeFull 7 8)).id0 ∧
      (host .awaitCheck (.readFull 7 8)).cmd = .readFull 7 8 ∧ (host .awaitCheck (.readData 7 8)).cmd = .readData 7 8 ∧
      (host .awaitCheck (.writeFull 7 8)).cmd = .writeFull 7 8 ∧
      (host .awaitCheck (.eraseBlocks 7 8)).cmd = .eraseBlocks 7 8 := by decide

/-- The fifth and the sixth failure, of a read, a write and an erase; for a read, with a file that can be written and
with one that cannot. -/
theorem witness_SixthFailureIsLogged :
    (Driver.fails { host .awaitSecond (.readFull 7 8) with fails := 4 } < 5 ∧
        (host .awaitSecond (.readFull 7 8)).ctl = .awaitSecond ∧
        (host .awaitSecond (.readFull 7 8)).buf ≠ (Frame.mk .ok [2#8]).payload) ∧
      Driver.fails { host .awaitWrite (.writeFull 7 8) with fails := 5 } = 5 ∧
      (host .awaitWrite (.writeFull 7 8)).ctl = .awaitWrite ∧ (Frame.mk .statusError [0xE1#8]).rc = .statusError ∧
      (host .awaitErase (.eraseBlocks 7 8)).ctl = .awaitErase ∧
      (∃ d', Driver.reply { host .awaitErase (.eraseBlocks 7 9) with fails := 5 } ⟨.statusError, [0xE1#8]⟩ =
        .act d' (some .readId)) ∧
      (∀ x, (hostPage (.readData 7 8) x).ctl = .awaitSecond ∧ (hostPage (.readData 7 8) x).fileFails = x ∧
        (hostPage (.readData 7 8) x).buf.length = 2112 ∧ (hostPage (.readData 7 8) x).buf ≠ zeroPage) ∧
      zeroPage.length = 2112 :=
  ⟨by decide, rfl, rfl, rfl, rfl, ⟨_, rfl⟩,
    fun _ => ⟨rfl, rfl, List.length_replicate, fun h => absurd (congrArg List.head? h) (show some 1#8 ≠ some 0#8 by decide)⟩,
    List.length_replicate⟩

/-- A write and an erase that succeed; the first read, and an equal second read of 2112 bytes: of the last unit of a run and of
an earlier one. -/
theorem witness_DoubleReadCommitsEqualReads :
    ((host .awaitWrite (.writeFull 7 8)).ctl = .awaitWrite ∧ (host .awaitErase (.eraseBlocks 7 9)).ctl = .awaitErase ∧
      (Frame.mk .ok [0xE0#8]).rc = .ok ∧
      ∃ d', (host .awaitErase (.eraseBlocks 7 9)).reply ⟨.ok, [0xE0#8]⟩ = .act d' (some .readId) ∧ d'.unit = 8) ∧
    (host .awaitFirst (.readFull 7 8)).ctl = .awaitFirst ∧
      ∀ cmd ∈ [BatchCmd.readFull 7 8, .readData 6 9], (hostPage cmd none).ctl = .awaitSecond ∧
        (hostPage cmd none).buf = (Frame.mk .ok (List.replicate 2112 1#8)).payload ∧
        (hostPage cmd none).fileFails ≠ some 0 ∧ (hostPage cmd (some 0)).fileFails = some 0 ∧
        (hostPage cmd (some 0)).ctl = .awaitSecond ∧ (hostPage cmd none).buf.length = 2112 ∧
        ∃ d' i, (hostPage cmd none).reply ⟨.ok, List.replicate 2112 1#8⟩ = .act d' i := by
  refine ⟨⟨rfl, rfl, rfl, _, rfl, rfl⟩, rfl, fun cmd hc => ⟨rfl, rfl, nofun, rfl, rfl, List.length_replicate, ?_⟩⟩
  simp only [Driver.reply, hostPage, host, Driver.initial, if_true, Driver.commit, Driver.nextUnit, Driver.beginUnit,
    Driver.access, reduceCtorEq, if_false]
  simp only [List.mem_cons, List.not_mem_nil, or_false] at hc
  rcases hc with rfl | rfl <;> exact ⟨_, _, rfl⟩

/-- A reply, and a step of the machine, at which the file changes. -/
theorem witness_FileChangesOnlyAtUnitEnd :
    (∃ t, step { ready with
        driver := { host .awaitSecond (.readFull 0 8) with unit := 0 }, frames := [⟨.ok, [1#8]⟩] } = .next t ∧
      t.driver.file ≠ []) ∧
      ∃ d' i, Driver.reply { host .awaitSecond (.readFull 0 8) with unit := 0 } ⟨.ok, [1#8]⟩ = .act d' i ∧
        d'.file ≠ (host .awaitSecond (.readFull 0 8)).file :=
  ⟨⟨_, rfl, fun h => absurd (congrArg List.length h) (by decide +kernel)⟩,
    _, _, rfl, fun h => absurd (congrArg List.length h) (by decide +kernel)⟩

end Sys2Proof.Tests
end

