-- ==== Sys2Proof/Proofs/TransactionEventCounts.lean ====
section
/-! The events that each transaction adds to the trace when it sends its result frame, and their counts (R230). A
transaction's trace is a sequence of phases; the counts of each phase are said once and added up. -/

namespace Sys2Proof.Proofs

open Sys2Proof.Machine Sys2Proof.Spec

/-! ### Counts of a list of events -/

/-- The four counts of the table of R230: events, ready/busy samples, falling WE_N edges, falling RE_N edges. -/
def tally (es : List Event) : Nat × Nat × Nat × Nat :=
  (es.length, es.count (.sampRB false) + es.count (.sampRB true), es.count (.ctl .weN false),
    es.count (.ctl .reN false))

theorem tally_append (es fs : List Event) : tally (es ++ fs) = tally es + tally fs := by
  simp only [tally, List.length_append, List.count_append, Prod.mk_add_mk, Prod.mk.injEq, true_and, and_true]
  omega

/-- Cycles of one kind, one for each byte, count alike whatever the bytes are. -/
theorem tally_flatMap {f : Byte → List Event} {c : Nat × Nat × Nat × Nat} (h : ∀ v, tally (f v) = c)
    (vs : List Byte) : tally (vs.flatMap f) = vs.length • c := by
  induction vs with
  | nil => rw [List.length_nil, zero_smul]; rfl
  | cons v vs ih => rw [List.flatMap_cons, tally_append, h, ih, List.length_cons, succ_nsmul']

/-- `WePulse(v)`: 7 events and one WE_N pulse (R170). -/
theorem tally_wePulse (v : Byte) : tally (wePulse v) = (7, 0, 1, 0) := rfl

/-- `RePulse()`: 6 events and one RE_N pulse (R171). -/
theorem tally_rePulseEvents (v : Byte) : tally (rePulseEvents v) = (6, 0, 0, 1) := rfl

/-- `CmdPhase(c)`: 12 events (R174). -/
theorem tally_cmdEvents (c : Byte) : tally (cmdEvents c) = (12, 0, 1, 0) := rfl

/-- `AddrPhase(a)`: 5 + 7n events (R175). -/
theorem tally_addrEvents {a : List Byte} (ha : a ≠ []) :
    tally (addrEvents a) = (5 + 7 * a.length, 0, a.length, 0) := by
  have head : tally [.dir .output, .ctl .ale true, .gate .short] = (3, 0, 0, 0) := rfl
  have tail : tally [.ctl .ale false, .gate .short] = (2, 0, 0, 0) := rfl
  rw [addrEvents, if_neg ha, tally_append, tally_append, tally_flatMap tally_wePulse, head, tail]
  simp; omega

/-- `DoutPhase(buf)`: 1 + 7n events (R176). -/
theorem tally_doutEvents {buf : List Byte} (hb : buf ≠ []) :
    tally (doutEvents buf) = (1 + 7 * buf.length, 0, buf.length, 0) := by
  have head : tally [.dir .output] = (1, 0, 0, 0) := rfl
  rw [doutEvents, if_neg hb, tally_append, tally_flatMap tally_wePulse, head]
  simp; omega

/-- `DinPhase(n)`: 2 + 6n events (R177). -/
theorem tally_dinEvents (bytes : List Byte) :
    tally (dinEvents bytes) = (2 + 6 * bytes.length, 0, 0, bytes.length) := by
  have head : tally dinHead = (2, 0, 0, 0) := rfl
  rw [dinEvents, tally_append, tally_flatMap tally_rePulseEvents, head]
  simp; omega

/-- `BusyPhase()`: 2 + k events (R179). -/
theorem tally_busy {k : Nat} (hk : 1 ≤ k) : tally (busy k) = (2 + k, k, 0, 0) := by
  simp [tally, busy, List.count_replicate]; omega

/-! ### A transaction that sends its result -/

/-- A transaction that goes on to a next state while a session is open, with no reset announced, had idle strobes and
ran its body (R301, R173). -/
theorem exec_runs_body {i : Instr} {s t : State} (hp : i.port = .host) (hc : checksIdle i = true)
    (hw : i.wellFormed = true) (hr : s.resetAfter = none) (hs : s.sst = .ready) (h : exec i s = .next t) :
    s.strobesIdle = true ∧ finish (bodyOf i s) = .next t := by
  obtain ⟨hf, ho⟩ := Bool.and_eq_true_iff.mp hw
  rw [exec_host hp hf, operation_ready hs ho hr] at h
  refine ⟨?_, h⟩
  by_contra hi
  rw [bodyOf_notIdle hc (eq_false_of_ne_true hi), finish, raiseFault_none hr] at h
  simp at h

/-- From s to t, events with the counts c were added to the trace. -/
def Adds (s t : State) (c : Nat × Nat × Nat × Nat) : Prop :=
  ∃ es : List Event, t.trace = es.reverse ++ s.trace ∧ tally es = c

/-- The events added are determined by the two traces. -/
theorem tally_of_adds {s t : State} {c : Nat × Nat × Nat × Nat} (h : Adds s t c) {es : List Event}
    (he : t.trace = es.reverse ++ s.trace) : tally es = c := by
  obtain ⟨fs, hfs, hc⟩ := h
  have hrev : es.reverse = fs.reverse := List.append_cancel_right (he.symm.trans hfs)
  rw [List.reverse_injective hrev, hc]

/-- Counts add up along a run. -/
theorem adds_trans {s t u : State} {c d : Nat × Nat × Nat × Nat} (h1 : Adds s t c) (h2 : Adds t u d) :
    Adds s u (c + d) := by
  obtain ⟨es, he, rfl⟩ := h1
  obtain ⟨fs, hf, rfl⟩ := h2
  exact ⟨es ++ fs, by rw [hf, he]; simp, tally_append es fs⟩

/-- A busy wait whose operation sent its frame in this step did not stay waiting: some k-th sample was the first to read
ready, and the rest of the operation ran after it (R179). -/
theorem busyPhase_answered {op : BusyOp} {f : State → Run Reply} {s t : State} (hr : s.resetAfter = none)
    (h : finish ((busyPhase op s).andThen f) = .next t) (hf : t.frames ≠ s.frames) :
    ∃ k u, 1 ≤ k ∧ Moved s u ∧ Adds s u (2 + k, k, 0, 0) ∧ finish (f u) = .next t := by
  rw [busyPhase_eq op s hr] at h
  obtain ⟨m, r, hm, -, -⟩ := pollAnswers_shape s.lvl (s.env.knownReady s.lvl) s.env
  rw [hm] at h
  cases r with
  | false =>
    rw [if_neg (by simp), andThen_stop, finish] at h
    cases h
    exact absurd rfl hf
  | true =>
    rw [if_pos (by simp), andThen_ok] at h
    have hk : 1 ≤ m + 1 := by omega
    have htrace : .gate .settle :: (((List.replicate m false ++ [true]).map Event.sampRB).reverse ++
        .gate .settle :: s.trace) = (busy (m + 1)).reverse ++ s.trace := by simp [busy]
    rw [htrace] at h
    exact ⟨m + 1, _, hk, ⟨_, _, _, _, _, rfl⟩, ⟨busy (m + 1), rfl, tally_busy hk⟩, h⟩

/-- A transaction with a busy wait: what came before the wait, the wait with its k samples, and what came after. -/
theorem adds_aroundWait {op : BusyOp} {f : State → Run Reply} {s u t : State} {n w n' w' r' : Nat}
    (hr : s.resetAfter = none) (hi : s.strobesIdle = true) (hf : t.frames ≠ s.frames) (hm : Moved s u)
    (before : Adds s u (n, 0, w, 0)) (h : finish ((busyPhase op u).andThen f) = .next t)
    (rest : ∀ v : State, v.resetAfter = none → v.strobesIdle = true → finish (f v) = .next t →
      Adds v t (n', 0, w', r')) :
    ∃ k, 1 ≤ k ∧ Adds s t (n + 2 + n' + k, k, w + w', r') := by
  obtain ⟨k, v, hk, hv, wait, h⟩ :=
    busyPhase_answered ((moved_resetAfter hm).trans hr) h (by rw [moved_frames hm]; exact hf)
  have hsv : Moved s v := moved_trans hm hv
  have after := rest v ((moved_resetAfter hsv).trans hr) ((moved_strobesIdle hsv).trans hi) h
  have total : (n, 0, w, 0) + (2 + k, k, 0, 0) + (n', 0, w', r') = (n + 2 + n' + k, k, w + w', r') := by
    simp only [Prod.mk_add_mk, Prod.mk.injEq, zero_add, add_zero, and_true]
    omega
  exact ⟨k, hk, total ▸ adds_trans (adds_trans before wait) after⟩

/-- A data-in phase that ends the operation (R177, R181). -/
theorem adds_dinPhase {n : Nat} (hn : n ≠ 0) {g : List Byte → Reply} {s t : State} (hr : s.resetAfter = none)
    (hi : s.strobesIdle = true) (h : finish ((dinPhase n s).bind fun bs s => complete (g bs) s) = .next t) :
    Adds s t (2 + 6 * n, 0, 0, n) := by
  rw [dinPhase_idle n hn s hr hi, bind_ok, finish_complete _ _ (by exact hr)] at h
  cases h
  exact ⟨_, rfl, by rw [tally_dinEvents, readCycles_length]⟩

/-- A status read that ends the operation: command 0x70 and one data byte (R202, R181). -/
theorem adds_statusTxn {g : List Byte → Reply} {s t : State} (hr : s.resetAfter = none) (hi : s.strobesIdle = true)
    (h : finish ((statusTxn s).bind fun bs s => complete (g bs) s) = .next t) : Adds s t (20, 0, 1, 1) := by
  rw [statusTxn_idle s hr hi, bind_ok, finish_complete _ _ (by exact hr)] at h
  cases h
  exact ⟨_, rfl, by rw [tally_append, tally_cmdEvents, tally_dinEvents]; rfl⟩

/-! ### The transactions -/

theorem addrPage_length (p : Arg24) : (addrPage p).length = 5 := rfl
theorem addrRow_length (b : Arg24) : (addrRow b).length = 3 := rfl

section
variable {s t : State} (hr : s.resetAfter = none) (hs : s.sst = .ready)
include hr hs

/-- READ_ID (R205): 12 + 12 + 32 events. -/
theorem adds_readId (h : exec .readId s = .next t) : Adds s t (56, 0, 2, 5) := by
  obtain ⟨hi, h⟩ := exec_runs_body rfl rfl rfl hr hs h
  have hne : addrId ≠ [] := by decide
  rw [bodyOf, sequenced, requireIdle_ok hi, andThen_ok, cmdPhase_idle _ s hr hi, andThen_ok,
    addrPhase_idle _ hne _ (by exact hr) (by exact hi), andThen_ok] at h
  have hdin := adds_dinPhase (by decide) (by exact hr) (by exact hi) h
  refine adds_trans (c := (24, 0, 2, 0)) ⟨cmdEvents 0x90#8 ++ addrEvents addrId, by simp, ?_⟩ hdin
  rw [tally_append, tally_cmdEvents, tally_addrEvents hne]; rfl

/-- READ_STATUS (R210): 12 + 8 events. -/
theorem adds_readStatus (h : exec .readStatus s = .next t) : Adds s t (20, 0, 1, 1) := by
  obtain ⟨hi, h⟩ := exec_runs_body rfl rfl rfl hr hs h
  rw [bodyOf, sequenced, requireIdle_ok hi, andThen_ok] at h
  exact adds_statusTxn hr hi h

/-- READ_PAGE (R214): 12 + 40 + 12 events, the wait, and 12674 events. -/
theorem adds_readPage {p : Arg24} (h : exec (.readPage p) s = .next t) (hf : t.frames ≠ s.frames) :
    ∃ k, 1 ≤ k ∧ Adds s t (12740 + k, k, 7, 2112) := by
  obtain ⟨hi, h⟩ := exec_runs_body rfl rfl rfl hr hs h
  have hne : addrPage p ≠ [] := List.cons_ne_nil _ _
  rw [bodyOf, readPageBody, requireIdle_ok hi, andThen_ok, addressed_run _ _ hne _ _ _ hr hi] at h
  exact adds_aroundWait (n := 64) (w := 7) hr hi hf ⟨_, _, _, _, _, rfl⟩
    ⟨_, rfl, by simp [tally_append, tally_cmdEvents, tally_addrEvents hne, addrPage_length]⟩ h
    fun _ hr hi h => adds_dinPhase (by decide) hr hi h

/-- WRITE_PAGE (R220): 12 + 40 + 14785 + 12 events, the wait, and the status read. -/
theorem adds_writePage {p : Arg24} {buf : List Byte} (hw : (Instr.writePage p buf).wellFormed = true)
    (h : exec (.writePage p buf) s = .next t) (hf : t.frames ≠ s.frames) :
    ∃ k, 1 ≤ k ∧ Adds s t (14871 + k, k, 2120, 1) := by
  obtain ⟨hi, h⟩ := exec_runs_body rfl rfl hw hr hs h
  have hlen : buf.length = 2112 := of_decide_eq_true (Bool.and_eq_true_iff.mp hw).1
  have hne : addrPage p ≠ [] := List.cons_ne_nil _ _
  have hbuf : buf ≠ [] := List.ne_nil_of_length_pos (by omega)
  rw [bodyOf, writePageBody, requireIdle_ok hi, andThen_ok, programmed_run _ _ hne _ hbuf _ _ _ hr hi] at h
  exact adds_aroundWait (n := 14849) (w := 2119) hr hi hf ⟨_, _, _, _, _, rfl⟩
    ⟨_, rfl, by
      simp [tally_append, tally_cmdEvents, tally_addrEvents hne, tally_doutEvents hbuf, hlen, addrPage_length]⟩ h
    fun _ hr hi h => adds_statusTxn hr hi h

/-- ERASE_BLOCK (R224): 12 + 26 + 12 events, the wait, and the status read. -/
theorem adds_eraseBlock {b : Arg24} (hw : (Instr.eraseBlock b).wellFormed = true)
    (h : exec (.eraseBlock b) s = .next t) (hf : t.frames ≠ s.frames) :
    ∃ k, 1 ≤ k ∧ Adds s t (72 + k, k, 6, 1) := by
  obtain ⟨hi, h⟩ := exec_runs_body rfl rfl hw hr hs h
  have hne : addrRow b ≠ [] := List.cons_ne_nil _ _
  rw [bodyOf, eraseBlockBody, requireIdle_ok hi, andThen_ok, addressed_run _ _ hne _ _ _ hr hi] at h
  exact adds_aroundWait (n := 50) (w := 5) hr hi hf ⟨_, _, _, _, _, rfl⟩
    ⟨_, rfl, by simp [tally_append, tally_cmdEvents, tally_addrEvents hne, addrRow_length]⟩ h
    fun _ hr hi h => adds_statusTxn hr hi h

end

/-- A row of the table with a busy wait, read off the counts that the transaction adds. -/
theorem waitRow_of_adds {s t : State} {n w r : Nat} {es : List Event} (he : t.trace = es.reverse ++ s.trace)
    (h : ∃ k, 1 ≤ k ∧ Adds s t (n + k, k, w, r)) :
    1 ≤ es.count (.sampRB false) + es.count (.sampRB true) ∧
      es.length = n + (es.count (.sampRB false) + es.count (.sampRB true)) ∧ es.count (.ctl .weN false) = w ∧
      es.count (.ctl .reN false) = r := by
  obtain ⟨k, hk, hadds⟩ := h
  obtain ⟨hlen, hsamples, hwe, hre⟩ := by simpa only [tally, Prod.mk.injEq] using tally_of_adds hadds he
  exact ⟨by omega, by omega, hwe, hre⟩

/-- A row of the table without a busy wait, read off the counts that the transaction adds. -/
theorem row_of_adds {s t : State} {n w r : Nat} {es : List Event} (he : t.trace = es.reverse ++ s.trace)
    (h : Adds s t (n, 0, w, r)) :
    es.length = n ∧ es.count (.ctl .weN false) = w ∧ es.count (.ctl .reN false) = r := by
  obtain ⟨hlen, -, hwe, hre⟩ := by simpa only [tally, Prod.mk.injEq] using tally_of_adds h he
  exact ⟨hlen, hwe, hre⟩

/-- Settles O33: each transaction's phases are known exactly from idle strobes, and their counts add up to the table's
row. -/
theorem transactionEventCounts : Obligations.TransactionEventCounts := by
  intro i s t es hr hs hw h he hf
  refine ⟨?_, ?_, ?_, ?_, ?_⟩
  · rintro rfl
    exact row_of_adds he (adds_readId hr hs h)
  · rintro rfl
    exact row_of_adds he (adds_readStatus hr hs h)
  · rintro p rfl
    exact waitRow_of_adds he (adds_readPage hr hs h hf)
  · rintro p buf rfl
    exact waitRow_of_adds he (adds_writePage hr hs hw h hf)
  · rintro b rfl
    exact waitRow_of_adds he (adds_eraseBlock hr hs hw h hf)

end Sys2Proof.Proofs
end

/-! Every operation word with its payload is answered in the order of R301. The decoder is characterised once by the
operation word's value: a reserved OP, a failed operand check of R110, or the one well-formed instruction that the word
and its payload spell. What a word is answered then depends on that and on the session state. -/

namespace Sys2Proof.Proofs

open Sys2Proof.Machine Sys2Proof.Spec

/-! ### Operand fields of the operation word (R101, R102) -/

/-- The reserved upper bits of the ARG field are 0 exactly where its value is below the first of them. -/
theorem extractLsb'_eq_zero_iff (x : Arg24) (k n : Nat) (h : k + n = 24) :
    x.extractLsb' k n = 0#n ↔ x.toNat < 2 ^ k := by
  have hx : x.toNat < 2 ^ k * 2 ^ n := by rw [← pow_add, h]; exact x.isLt
  rw [BitVec.toNat_inj.symm, BitVec.extractLsb'_toNat, Nat.shiftRight_eq_div_pow, BitVec.toNat_ofNat, Nat.zero_mod,
    Nat.mod_eq_of_lt (Nat.div_lt_of_lt_mul hx), Nat.div_eq_zero_iff_lt (Nat.two_pow_pos k)]

/-- The code of a line, read back; 6 and 7 name none (R102). -/
theorem lineOfCode_iff (c : BitVec 3) : if 6 ≤ c.toNat then lineOfCode c = none
    else ∃ l, lineOfCode c = some l ∧ lineCode l = c := by
  have h : ∀ c : BitVec 3, (6 ≤ c.toNat → lineOfCode c = none) ∧
      (¬6 ≤ c.toNat → (lineOfCode c).map lineCode = some c) := by decide
  split
  · exact (h c).1 ‹_›
  · exact Option.map_eq_some_iff.mp ((h c).2 ‹_›)

theorem toNat_argL (l : Line) (high : Bool) : (argL l high).toNat = 8 * high.toNat + (lineCode l).toNat := by
  cases l <;> cases high <;> rfl

/-- An operand field is read exactly where its check passes, and what is read spells the ARG field again. -/
def FieldRead {α : Type} (f : Option α) (arg : α → Arg24) (w : OpWord) (fails : Bool) : Prop :=
  if fails then f = none else ∃ a, f = some a ∧ arg a = argField w

/-- Format N reads nothing: the whole ARG field is reserved. -/
theorem argField_eq_zero_iff (w : OpWord) : argField w = 0#24 ↔ w.toNat / 256 = 0 := by
  rw [← toNat_argField, ← BitVec.toNat_inj]; rfl

theorem formatD_read (w : OpWord) : FieldRead (formatD w) argD w (decide (2 ≤ w.toNat / 256)) := by
  have hlt := extractLsb'_eq_zero_iff (argField w) 1 23 rfl
  rw [toNat_argField] at hlt
  rw [FieldRead, formatD]
  by_cases h : w.toNat / 256 < 2 ^ 1
  · rw [if_neg (by rw [decide_eq_true_eq]; omega), if_pos (hlt.mpr h)]
    refine ⟨_, rfl, BitVec.eq_of_toNat_eq ?_⟩
    have hb : (argField w).getLsbD 0 = decide (w.toNat / 256 % 2 = 1) := by
      rw [BitVec.getLsbD, toNat_argField, Nat.testBit_zero]
    rw [hb, toNat_argField]
    obtain h0 | h1 : w.toNat / 256 = 0 ∨ w.toNat / 256 = 1 := by omega
    · rw [h0]; rfl
    · rw [h1]; rfl
  · rw [if_pos (by rw [decide_eq_true_eq]; omega), if_neg (mt hlt.mp h)]

theorem formatB_read (w : OpWord) : FieldRead (formatB w) argB w (decide (256 ≤ w.toNat / 256)) := by
  have hlt := extractLsb'_eq_zero_iff (argField w) 8 16 rfl
  rw [toNat_argField] at hlt
  rw [FieldRead, formatB]
  by_cases h : w.toNat / 256 < 2 ^ 8
  · rw [if_neg (by simpa using h), if_pos (hlt.mpr h)]
    refine ⟨_, rfl, BitVec.eq_of_toNat_eq ?_⟩
    rw [toNat_argB, BitVec.extractLsb'_toNat, toNat_argField, Nat.shiftRight_zero, Nat.mod_eq_of_lt h]
  · rw [if_pos (by simpa using h), if_neg (mt hlt.mp h)]

theorem formatL_read (w : OpWord) : FieldRead (formatL w) (fun p => argL p.1 p.2) w
    (decide (16 ≤ w.toNat / 256) || decide (6 ≤ w.toNat / 256 % 8)) := by
  have hlt := extractLsb'_eq_zero_iff (argField w) 4 20 rfl
  have hcode : ((argField w).extractLsb' 0 3).toNat = w.toNat / 256 % 8 := by
    rw [BitVec.extractLsb'_toNat, toNat_argField, Nat.shiftRight_zero]
  have hline := lineOfCode_iff ((argField w).extractLsb' 0 3)
  rw [hcode] at hline
  rw [toNat_argField] at hlt
  rw [FieldRead, formatL]
  by_cases h : w.toNat / 256 < 2 ^ 4
  · rw [if_pos (hlt.mpr h)]
    by_cases h6 : 6 ≤ w.toNat / 256 % 8
    · rw [if_pos h6] at hline
      rw [if_pos (by simp [h6]), hline, Option.map_none]
    · rw [if_neg h6] at hline
      obtain ⟨l, hl, hc⟩ := hline
      rw [if_neg (by simp only [Bool.or_eq_true, decide_eq_true_eq]; omega), hl, Option.map_some]
      refine ⟨_, rfl, BitVec.eq_of_toNat_eq ?_⟩
      rw [toNat_argL, hc, hcode, BitVec.getLsbD, toNat_argField, Nat.testBit_eq_decide_div_mod_eq]
      by_cases hb : w.toNat / 256 / 2 ^ 3 % 2 = 1
      · rw [decide_eq_true hb, Bool.toNat_true]; omega
      · rw [decide_eq_false hb, Bool.toNat_false]; omega
  · rw [if_pos (by simp only [Bool.or_eq_true, decide_eq_true_eq]; omega), if_neg (mt hlt.mp h)]

theorem formatA_iff (w : OpWord) : formatA w = true ↔ w.toNat / 256 < 8 := by
  rw [formatA, beq_iff_eq, extractLsb'_eq_zero_iff _ _ _ rfl, toNat_argField]; rfl

/-! ### What a word decodes to -/

/-- The instruction that an operation word and its payload spell. -/
def Spells (i : Instr) (w : OpWord) (payload : List Byte) : Prop :=
  i.wellFormed = true ∧ i.port = .host ∧ encode i = bytesOfWord w ++ payload

/-- A word with a legal OP decodes to the instruction that it spells, unless an operand check fails (R110). -/
def DecodedAs (r : Except WordReject Instr) (w : OpWord) (payload : List Byte) : Prop :=
  if operandFails w.toNat then r = .error .badOperand else ∃ i, r = .ok i ∧ Spells i w payload

/-- The operation codes of format N (R103). -/
def plainOps : List Nat := [0x01, 0x02, 0x12, 0x14, 0x19, 0x24, 0x30, 0x34]

theorem operandFails_plain {n : Nat} (h : n % 256 ∈ plainOps) : operandFails n = decide (n / 256 ≠ 0) := by
  simp only [plainOps, List.mem_cons, List.not_mem_nil, or_false] at h
  rcases h with h | h | h | h | h | h | h | h <;> simp [operandFails, h]

/-- Only ADDR_CYCLE, DATA_OUT and WRITE_PAGE have a request payload (R104). -/
theorem payload_eq_nil {n : Nat} {payload : List Byte} (hl : payload.length = payloadBytes n)
    (h : n % 256 ∉ [0x21, 0x22, 0x32]) : payload = [] := by
  simp only [List.mem_cons, List.not_mem_nil, or_false, not_or] at h
  obtain ⟨haddr, hdata, hpage⟩ := h
  rw [payloadBytes, if_neg haddr, if_neg hdata, if_neg hpage] at hl
  exact List.eq_nil_of_length_eq_zero hl

theorem plainOps_noPayload {n : Nat} (h : n ∈ plainOps) : n ∉ [0x21, 0x22, 0x32] := by
  revert n; decide

theorem makeWord_of_op {w : OpWord} {op : Byte} (h : w.toNat % 256 = op.toNat) : makeWord op (argField w) = w := by
  have hop : opField w = op := BitVec.eq_of_toNat_eq ((toNat_opField w).trans h)
  rw [← hop, makeWord_fields]

section
variable {w : OpWord} {payload : List Byte} {op : Byte} {i : Instr}

/-- Format N: the operand check is that the ARG field is 0. -/
theorem decodedAs_plain (ho : w.toNat % 256 = op.toNat) (hop : op.toNat ∈ plainOps)
    (hl : payload.length = payloadBytes w.toNat) (hw : i.wellFormed = true) (hp : i.port = .host)
    (he : encode i = bytesOfWord (makeWord op 0#24)) : DecodedAs (plain w i) w payload := by
  rw [← ho] at hop
  obtain rfl := payload_eq_nil hl (plainOps_noPayload hop)
  rw [DecodedAs, operandFails_plain hop, plain, formatN]
  by_cases h : argField w = 0#24
  · rw [if_neg (by simpa using (argField_eq_zero_iff w).mp h), if_pos (beq_iff_eq.mpr h)]
    exact ⟨i, rfl, hw, hp, by rw [he, ← h, makeWord_of_op ho, List.append_nil]⟩
  · rw [if_pos (by simpa using mt (argField_eq_zero_iff w).mpr h), if_neg (mt beq_iff_eq.mp h)]

/-- Formats D, B and L: the operand check is that the field can be read. -/
theorem decodedAs_field {α : Type} {f : Option α} {mk : α → Instr} {arg : α → Arg24} {fails : Bool}
    (ho : w.toNat % 256 = op.toNat) (hl : payload.length = payloadBytes w.toNat)
    (hop : op.toNat ∉ [0x21, 0x22, 0x32]) (hf : operandFails w.toNat = fails) (hr : FieldRead f arg w fails)
    (hs : ∀ a, Spells (mk a) (makeWord op (arg a)) []) : DecodedAs (withField f mk) w payload := by
  obtain rfl := payload_eq_nil hl (ho ▸ hop)
  rw [DecodedAs, hf]
  cases fails
  case true => rw [FieldRead, if_pos rfl] at hr; rw [if_pos rfl, hr]; rfl
  case false =>
    rw [FieldRead, if_neg Bool.false_ne_true] at hr
    obtain ⟨a, rfl, ha⟩ := hr
    have hsa := hs a
    rw [ha, makeWord_of_op ho] at hsa
    exact ⟨mk a, rfl, hsa⟩

/-- Formats A and W: the operand check is the instruction's own. -/
theorem decodedAs_checked (ho : w.toNat % 256 = op.toNat) (hf : operandFails w.toNat = true ↔ i.operandsOk = false)
    (hw : i.framed = true) (hp : i.port = .host) (he : encode i = bytesOfWord (makeWord op (argField w)) ++ payload) :
    DecodedAs (checked i) w payload := by
  rw [DecodedAs, checked]
  cases hok : i.operandsOk
  case false => rw [if_pos (hf.mpr hok)]; rfl
  case true =>
    rw [if_neg (fun h => Bool.false_ne_true ((hf.mp h).symm.trans hok))]
    exact ⟨i, rfl, by rw [Instr.wellFormed, hw, hok]; rfl, hp, by rw [he, makeWord_of_op ho]⟩

theorem ofNat_argField (w : OpWord) : BitVec.ofNat 24 (w.toNat / 256) = argField w := by
  rw [← toNat_argField, BitVec.ofNat_toNat, BitVec.setWidth_eq]

/-- ADDR_CYCLE, format A: the reserved bits first, then the count of the address bytes (R101, R110). -/
theorem decodedAs_addrCycle (ho : w.toNat % 256 = 0x21) (hl : payload.length = payloadBytes w.toNat) :
    DecodedAs (if formatA w then checked (.addrCycle payload) else .error .badOperand) w payload := by
  have hlen : payload.length = w.toNat / 256 % 8 := by rw [hl, payloadBytes, if_pos ho]
  split
  next hfmt =>
    have hlt : w.toNat / 256 < 8 := (formatA_iff w).mp hfmt
    have hn : payload.length = w.toNat / 256 := by omega
    refine decodedAs_checked (op := 0x21#8) ho ?_ (decide_eq_true (by omega)) rfl ?_
    · simp [operandFails, ho, Instr.operandsOk, addrPageLen, hlen, hlt]
    · rw [encode, hn, ofNat_argField]
  next hfmt =>
    have hge : 8 ≤ w.toNat / 256 := Nat.not_lt.mp (mt (formatA_iff w).mpr hfmt)
    rw [DecodedAs, if_pos (by simp [operandFails, ho, hge])]

/-- DATA_OUT: the count is the whole ARG field (R104). -/
theorem decodedAs_dataOut (ho : w.toNat % 256 = 0x22) (hl : payload.length = payloadBytes w.toNat) :
    DecodedAs (checked (.dataOut payload)) w payload := by
  have hlen : payload.length = w.toNat / 256 := by rw [hl, payloadBytes, if_neg (by omega), if_pos ho]
  have hw := w.isLt
  refine decodedAs_checked (op := 0x22#8) ho ?_ (decide_eq_true (by omega)) rfl ?_
  · simp [operandFails, ho, Instr.operandsOk, pageSize, hlen]
  · rw [encode, hlen, ofNat_argField]

/-- WRITE_PAGE: one page of payload, and no operand is refused (R104, R110). -/
theorem decodedAs_writePage (ho : w.toNat % 256 = 0x32) (hl : payload.length = payloadBytes w.toNat) :
    DecodedAs (.ok (.writePage (argField w) payload)) w payload := by
  have hlen : payload.length = pageSize := by
    rw [hl, payloadBytes, if_neg (by omega), if_neg (by omega), if_pos ho]; rfl
  exact decodedAs_checked (op := 0x32#8) (i := .writePage _ payload) ho (by simp [operandFails, ho, Instr.operandsOk])
    (decide_eq_true hlen) rfl rfl

end

/-- A reserved OP is no operation (R103, R109). -/
theorem decodeWord_reserved {w : OpWord} (h : reservedOp (w.toNat % 256) = true) (payload : List Byte) :
    decodeWord w payload = .error .illegalOp := by
  rw [decodeWord, toNat_opField]
  split
  case h_20 => rfl
  all_goals
    rename_i ho
    rw [ho] at h
    exact absurd h (by decide)

/-- A word with a legal OP, with the payload that it asks for, by the operation map and its checks (R103, R110). -/
theorem decodeWord_legal {w : OpWord} {payload : List Byte} (h : reservedOp (w.toNat % 256) = false)
    (hl : payload.length = payloadBytes w.toNat) : DecodedAs (decodeWord w payload) w payload := by
  rw [decodeWord, toNat_opField]
  split
  next ho => exact decodedAs_plain (op := 0x01#8) ho (by decide) hl rfl rfl rfl
  next ho => exact decodedAs_plain (op := 0x02#8) ho (by decide) hl rfl rfl rfl
  next ho =>
    exact decodedAs_field (op := 0x10#8) ho hl (by decide) (by simp [operandFails, ho]) (formatD_read w)
      fun _ => ⟨rfl, rfl, (List.append_nil _).symm⟩
  next ho =>
    exact decodedAs_field (op := 0x11#8) ho hl (by decide) (by simp [operandFails, ho]) (formatB_read w)
      fun _ => ⟨rfl, rfl, (List.append_nil _).symm⟩
  next ho => exact decodedAs_plain (op := 0x12#8) ho (by decide) hl rfl rfl rfl
  next ho =>
    exact decodedAs_field (op := 0x13#8) ho hl (by decide) (by simp [operandFails, ho]) (formatL_read w)
      fun _ => ⟨rfl, rfl, (List.append_nil _).symm⟩
  next ho => exact decodedAs_plain (op := 0x14#8) ho (by decide) hl rfl rfl rfl
  next ho =>
    obtain rfl := payload_eq_nil hl (by rw [ho]; decide)
    exact decodedAs_checked (op := 0x18#8) (i := .delayNs _) ho (by simp [operandFails, ho, Instr.operandsOk]) rfl rfl
      (List.append_nil _).symm
  next ho => exact decodedAs_plain (op := 0x19#8) ho (by decide) hl rfl rfl rfl
  next ho =>
    exact decodedAs_field (op := 0x20#8) ho hl (by decide) (by simp [operandFails, ho]) (formatB_read w)
      fun _ => ⟨rfl, rfl, (List.append_nil _).symm⟩
  next ho => exact decodedAs_addrCycle ho hl
  next ho => exact decodedAs_dataOut ho hl
  next ho =>
    obtain rfl := payload_eq_nil hl (by rw [ho]; decide)
    refine decodedAs_checked (op := 0x23#8) ho ?_ rfl rfl (List.append_nil _).symm
    simp [operandFails, ho, Instr.operandsOk, pageSize, toNat_argField]
  next ho => exact decodedAs_plain (op := 0x24#8) ho (by decide) hl rfl rfl rfl
  next ho => exact decodedAs_plain (op := 0x30#8) ho (by decide) hl rfl rfl rfl
  next ho =>
    obtain rfl := payload_eq_nil hl (by rw [ho]; decide)
    exact decodedAs_checked (op := 0x31#8) (i := .readPage _) ho (by simp [operandFails, ho, Instr.operandsOk]) rfl rfl
      (List.append_nil _).symm
  next ho => exact decodedAs_writePage ho hl
  next ho =>
    obtain rfl := payload_eq_nil hl (by rw [ho]; decide)
    refine decodedAs_checked (op := 0x33#8) ho ?_ rfl rfl (List.append_nil _).symm
    simp [operandFails, ho, Instr.operandsOk, pagesPerBlock, rowBits, addrRowLen, toNat_argField]
  next ho => exact decodedAs_plain (op := 0x34#8) ho (by decide) hl rfl rfl rfl
  next =>
    simp only [reservedOp, Bool.or_eq_false_iff, beq_eq_false_iff_ne, decide_eq_false_iff_not] at h
    simp only [imp_false] at *
    omega

/-- Only a word with OP 0x01 spells SESSION_INIT (R103). -/
theorem op_of_spells_sessionInit {w : OpWord} {payload : List Byte} (h : Spells .sessionInit w payload) :
    w.toNat % 256 = 0x01 := by
  obtain ⟨-, -, he⟩ := h
  have hop : opField (makeWord 0x01#8 0#24) = opField w := (List.cons.inj he).1
  rw [← toNat_opField, ← hop, makeWord_op]; rfl

theorem wordIsSessionInit_iff (w : OpWord) : wordIsSessionInit w = true ↔ w.toNat % 256 = 0x01 := by
  rw [wordIsSessionInit, beq_iff_eq, ← BitVec.toNat_inj, toNat_opField]; rfl

theorem payloadLen_eq (w : OpWord) : payloadLen w = payloadBytes w.toNat := by
  rw [payloadLen, payloadBytes, toNat_opField, toNat_countA, toNat_argField]
  split
  next ho => rw [if_pos ho]
  next ho => rw [if_neg (by omega), if_pos ho]
  next ho => rw [if_neg (by omega), if_neg (by omega), if_pos ho]; rfl
  next haddr hdata hpage => rw [if_neg haddr, if_neg hdata, if_neg hpage]

/-! ### Rejections -/

/-- A rejection with no reset announced is one frame with an empty payload and nothing else (R302). -/
theorem reject_noReset (rc : ResultCode) {s : State} (hr : s.resetAfter = none) :
    reject rc s = .next { s with frames := s.frames ++ [⟨rc, []⟩] } :=
  deliver_none hr (rc, [])

theorem not_sessionAdmits {i : Instr} {s : State} (hs : s.sst = .uninit) (hi : i ≠ .sessionInit) :
    ¬sessionAdmits i s = true := by
  simp [sessionAdmits, hs, hi]

/-- Settles O6: the session check comes before the operand check and the operation's own rule. -/
theorem uninitRejectsEveryOperation : Obligations.UninitRejectsEveryOperation := by
  intro i s hp hf hi hs hr
  rw [exec_host hp hf, operation, if_neg (by rw [hr]; nofun), if_neg (not_sessionAdmits hs hi), reject_noReset _ hr]

/-- A word with a failed operand check answers E_NOT_INIT first, where its session check fails too (R301). -/
theorem rejectWord_badOperand {w : OpWord} {s : State} (hr : s.resetAfter = none) :
    rejectWord .badOperand w s = .next { s with frames := s.frames ++
      [⟨if s.sst = .uninit ∧ w.toNat % 256 ≠ 0x01 then .notInit else .badOperand, []⟩] } := by
  have hop := wordIsSessionInit_iff w
  cases hs : s.sst <;> by_cases h : w.toNat % 256 = 0x01 <;>
    simp [rejectWord, hs, h, hop, reject_noReset _ hr]

/-! ### The step that takes a word -/

section
variable {s : State} {w : OpWord} {payload rest : List Byte} (hf : fetches s) (hr : s.resetAfter = none)
  (hb : s.busCmd = []) (hq : s.request = bytesOfWord w ++ payload ++ rest) (hl : payload.length = payloadBytes w.toNat)
include hf hr hb hq

/-- The step that takes a word reads it at the host's port, behind the other ports and the resumption of a wait. -/
theorem step_eq_hostPortStep : step s = hostPortStep s := by
  obtain ⟨h0, hfault, hpend⟩ := hf
  have hne : s.request ≠ [] := by rw [hq]; exact List.cons_ne_nil _ _
  simp [step, hr, hfault, hpend, hb, hne]

include hl

/-- A word that is an operation runs, with its bytes consumed (R113). -/
theorem step_of_decodeWord_ok {i : Instr} (hd : decodeWord w payload = .ok i) :
    step s = exec i { s with request := rest } := by
  have hdec := decodeRequest_word w payload rest (hl.trans (payloadLen_eq w).symm)
  rw [hd, ← hq] at hdec
  rw [step_eq_hostPortStep hf hr hb hq, hostPortStep, decode, hdec]
  exact congrArg (exec i) (tick_none hr)

/-- A word that is no operation is answered, with its bytes consumed all the same (R113). -/
theorem step_of_decodeWord_error {why : WordReject} (hd : decodeWord w payload = .error why) :
    step s = rejectWord why w { s with request := rest } := by
  have hdec := decodeRequest_word w payload rest (hl.trans (payloadLen_eq w).symm)
  rw [hd, ← hq] at hdec
  rw [step_eq_hostPortStep hf hr hb hq, hostPortStep, decode, hdec]
  exact congrArg (rejectWord why w) (tick_none hr)

end

/-- Settles O3: the decoder sees the reserved OP and the failed operand check, and the session check comes between
them, in `rejectWord` for a word that is no operation and in `operation` for one that is. -/
theorem everyWordIsCheckedInOrder : Obligations.EveryWordIsCheckedInOrder := by
  intro s w payload rest hf hr hb hl hq
  cases hres : reservedOp (w.toNat % 256)
  case true =>
    rw [if_pos rfl, step_of_decodeWord_error hf hr hb hq hl (decodeWord_reserved hres payload)]
    exact reject_noReset .illegalOp hr
  case false =>
    rw [if_neg Bool.false_ne_true]
    have hdec := decodeWord_legal hres hl
    cases hop : operandFails w.toNat
    case true =>
      rw [DecodedAs, if_pos hop] at hdec
      rw [if_pos rfl, step_of_decodeWord_error hf hr hb hq hl hdec, rejectWord_badOperand (by exact hr)]
      split <;> rfl
    case false =>
      rw [DecodedAs, hop, if_neg Bool.false_ne_true] at hdec
      obtain ⟨i, hi, hw, hp, he⟩ := hdec
      have hstep := step_of_decodeWord_ok hf hr hb hq hl hi
      split
      next h =>
        obtain ⟨hs, hne⟩ := h
        have hi : i ≠ .sessionInit := by rintro rfl; exact hne (op_of_spells_sessionInit ⟨hw, hp, he⟩)
        rw [hstep]
        exact uninitRejectsEveryOperation i _ hp (Bool.and_eq_true_iff.mp hw).1 hi hs hr
      next =>
        rw [if_neg Bool.false_ne_true]
        exact ⟨i, hw, hp, he, hstep⟩

end Sys2Proof.Proofs

/-! Every event is emitted or stopped as R370 says. The hazard function matches on the event; its equation below gives
it as R370 does, six checks in order over every event, and `emit` follows its answer. -/

namespace Sys2Proof.Proofs

open Sys2Proof.Machine

/-- The model's hazard function is R370's procedure: the first of the six checks that holds names the fault. -/
theorem hazard_eq_checksInOrder (e : Event) (s : State) : hazard e s =
    if e = .dir .output ∧ s.lvl.reN = .low then some .busContention
    else if e = .ctl .reN false ∧ s.dir = .output then some .busContention
    else if e = .ctl .weN false ∧ s.lvl.reN = .low then some .strobeConflict
    else if e = .ctl .reN false ∧ s.lvl.weN = .low then some .strobeConflict
    else if e = .ctl .cle true ∧ s.lvl.ale = .high then some .strobeConflict
    else if e = .ctl .ale true ∧ s.lvl.cle = .high then some .strobeConflict
    else none := by
  unfold hazard
  split
  case h_1 | h_2 | h_3 | h_4 | h_5 => simp
  case h_6 hdir hre hwe hcle hale =>
    rw [if_neg fun h => hdir h.1, if_neg fun h => hre h.1, if_neg fun h => hwe h.1, if_neg fun h => hre h.1,
      if_neg fun h => hcle h.1, if_neg fun h => hale h.1]

/-- An event with a hazard, with no reset announced, stops the run and leaves the state as it was (R321). -/
theorem emit_stop_of_hazard {e : Event} {s : State} {f : Fault} (hr : s.resetAfter = none) (hz : hazard e s = some f) :
    emit e s = .stop (.fault f) s := by simp [emit, hr, hz]

/-- Settles O18: the statement's cases are those of `hazard_eq_checksInOrder`, so in each of them the hazard is known
and decides what `emit` does. -/
theorem hazardCheckStopsEvent : Obligations.HazardCheckStopsEvent := by
  intro e s hr
  have hz := hazard_eq_checksInOrder e s
  split_ifs at hz ⊢
  case neg => exact ⟨record e s, emit_ok hr hz, record_trace e s⟩
  all_goals exact emit_stop_of_hazard hr hz

end Sys2Proof.Proofs

/-! Decoding gives back what was encoded. Each operand format reads back the ARG field that the encoder writes; the
operation map then names the instruction, and the host port's framing leaves the bytes that follow. -/

namespace Sys2Proof.Proofs

open Sys2Proof.Machine Sys2Proof.Spec

/-! ### Operand formats read back what was written (R101, R102) -/

theorem formatN_makeWord (op : Byte) : formatN (makeWord op 0#24) = true := by
  rw [formatN, makeWord_arg]; rfl

theorem formatD_makeWord (op : Byte) (d : LaneDir) : formatD (makeWord op (argD d)) = some d := by
  rw [formatD, makeWord_arg]; cases d <;> rfl

theorem formatL_makeWord (op : Byte) (l : Line) (high : Bool) :
    formatL (makeWord op (argL l high)) = some (l, high) := by
  rw [formatL, makeWord_arg]; cases l <;> cases high <;> rfl

theorem formatA_makeWord (op : Byte) {n : Nat} (h : n < 8) : formatA (makeWord op (BitVec.ofNat 24 n)) = true := by
  have hop := op.isLt
  rw [formatA_iff, toNat_makeWord, BitVec.toNat_ofNat]
  omega

theorem plain_makeWord (op : Byte) (i : Instr) : plain (makeWord op 0#24) i = .ok i := by
  rw [plain, if_pos (formatN_makeWord op)]

theorem checked_ok {i : Instr} (h : i.operandsOk = true) : checked i = .ok i := by rw [checked, if_pos h]

/-! ### The host port -/

/-- An instruction's bytes are a word and the payload it asks for, and the operation map reads them as that
instruction. -/
def ReadsBack (i : Instr) : Prop :=
  ∃ w payload, encode i = bytesOfWord w ++ payload ∧ payload.length = payloadLen w ∧ decodeWord w payload = .ok i

theorem decode_of_readsBack {i : Instr} (h : ReadsBack i) (rest : List Byte) :
    decode .host (encode i ++ rest) = .ok (i, rest) := by
  obtain ⟨w, payload, he, hl, hd⟩ := h
  rw [he, decode, decodeRequest_word w payload rest hl, hd]

/-- A word that the operation map refuses, with the payload it asks for (R113). -/
theorem decode_of_decodeWord_error {w : OpWord} {payload : List Byte} {why : WordReject}
    (hl : payload.length = payloadLen w) (hd : decodeWord w payload = .error why) (rest : List Byte) :
    decode .host (bytesOfWord w ++ payload ++ rest) = .error (.word why w rest) := by
  rw [decode, decodeRequest_word w payload rest hl, hd]

/-- An operation without payload. -/
theorem readsBack_word {i : Instr} {op : Byte} {arg : Arg24} (he : encode i = bytesOfWord (makeWord op arg))
    (hop : op ∉ [0x21#8, 0x22#8, 0x32#8]) (hd : decodeWord (makeWord op arg) [] = .ok i) : ReadsBack i := by
  simp only [List.mem_cons, List.not_mem_nil, or_false, not_or] at hop
  obtain ⟨haddr, hdata, hpage⟩ := hop
  exact ⟨_, [], by rw [he, List.append_nil], (Laws.payloadLen_zero arg haddr hdata hpage).symm, hd⟩

/-- The operation map reads every well-formed host operation back from its word and payload (R103, R104). -/
theorem readsBack_of_wellFormed {i : Instr} (hp : i.port = .host) (hw : i.wellFormed = true) : ReadsBack i := by
  obtain ⟨hf, ho⟩ := Bool.and_eq_true_iff.mp hw
  cases i
  case sessionInit | sessionEnd | busRead | rbRead | shortPause | busyWait | readId | readStatus =>
    refine readsBack_word rfl (by decide) ?_
    rw [decodeWord, makeWord_op]
    exact plain_makeWord _ _
  case busDir d =>
    refine readsBack_word rfl (by decide) ?_
    rw [decodeWord, makeWord_op]
    exact congrArg (withField · Instr.busDir) (formatD_makeWord _ d)
  case busWrite v =>
    refine readsBack_word rfl (by decide) ?_
    rw [decodeWord, makeWord_op]
    exact congrArg (withField · Instr.busWrite) (formatB_makeWord _ v)
  case ctlSet l high =>
    refine readsBack_word rfl (by decide) ?_
    rw [decodeWord, makeWord_op]
    exact congrArg (withField · fun p => Instr.ctlSet p.1 p.2) (formatL_makeWord _ l high)
  case cmdCycle c =>
    refine readsBack_word rfl (by decide) ?_
    rw [decodeWord, makeWord_op]
    exact congrArg (withField · Instr.cmdCycle) (formatB_makeWord _ c)
  case delayNs x =>
    refine readsBack_word rfl (by decide) ?_
    rw [decodeWord, makeWord_op]
    exact congrArg (Except.ok ∘ Instr.delayNs) (makeWord_arg _ x)
  case readPage p =>
    refine readsBack_word rfl (by decide) ?_
    rw [decodeWord, makeWord_op]
    exact congrArg (Except.ok ∘ Instr.readPage) (makeWord_arg _ p)
  case dataIn x =>
    refine readsBack_word rfl (by decide) ?_
    rw [decodeWord, makeWord_op, makeWord_arg]
    exact checked_ok ho
  case eraseBlock b =>
    refine readsBack_word rfl (by decide) ?_
    rw [decodeWord, makeWord_op, makeWord_arg]
    exact checked_ok ho
  case addrCycle a =>
    have hl : a.length < 8 := of_decide_eq_true hf
    refine ⟨makeWord 0x21#8 (BitVec.ofNat 24 a.length), a, rfl, ?_, ?_⟩
    · rw [payloadLen, makeWord_op]
      show a.length = countA _
      rw [toNat_countA, toNat_makeWord, BitVec.toNat_ofNat, BitVec.toNat_ofNat]
      omega
    · rw [decodeWord, makeWord_op]
      exact (if_pos (formatA_makeWord _ hl)).trans (checked_ok ho)
  case dataOut buf =>
    have hl : buf.length < 2 ^ 24 := of_decide_eq_true hf
    refine ⟨makeWord 0x22#8 (BitVec.ofNat 24 buf.length), buf, rfl, ?_, ?_⟩
    · rw [payloadLen, makeWord_op, makeWord_arg]
      exact (Nat.mod_eq_of_lt hl).symm
    · rw [decodeWord, makeWord_op]
      exact checked_ok ho
  case writePage p buf =>
    refine ⟨makeWord 0x32#8 p, buf, rfl, ?_, ?_⟩
    · rw [payloadLen, makeWord_op]
      exact of_decide_eq_true hf
    · rw [decodeWord, makeWord_op]
      exact congrArg (fun x => Except.ok (Instr.writePage x buf)) (makeWord_arg _ p)
  all_goals cases hp

/-! ### Both ports -/

/-- Settles O1: at the host port the word and its payload are read back; at the bus port a command byte is its own
encoding. -/
theorem decodeOfEncodeIsIdentity : Obligations.DecodeOfEncodeIsIdentity := by
  intro i rest hw
  cases hp : i.port
  case host => exact decode_of_readsBack (readsBack_of_wellFormed hp hw) rest
  case bus =>
    cases i
    case nandReadId | nandReadSetup | nandReadConfirm | nandProgramSetup | nandProgramConfirm | nandEraseSetup
      | nandEraseConfirm | nandReadStatus => rfl
    all_goals cases hp

/-- Settles O2: the words that spell an instruction's encoding are decoded by `decodeOfEncodeIsIdentity`. -/
theorem specWordsDecode : Obligations.SpecWordsDecode :=
  ⟨decodeOfEncodeIsIdentity (.readPage 0x012345#24) [] rfl,
    decodeOfEncodeIsIdentity (.addrCycle [0x80#8, 0x00#8, 0x00#8]) [] rfl,
    decodeOfEncodeIsIdentity (.ctlSet .cle true) [] rfl,
    decodeOfEncodeIsIdentity (.busWrite 0xA5#8) [] rfl,
    decodeOfEncodeIsIdentity (.delayNs 100#24) [] rfl,
    decodeOfEncodeIsIdentity .sessionEnd [] rfl,
    decodeOfEncodeIsIdentity .nandEraseConfirm [] rfl⟩

end Sys2Proof.Proofs

/-! The machine's invariant is kept by every step. What concerns the pins and the array is kept event by event; the
phase register is known where an operation ends or waits. -/

namespace Sys2Proof.Proofs

open Sys2Proof.Machine Sys2Proof.Spec

/-! ### The pins and the array -/

/-- The part of the invariant that every event keeps by itself: defined fields, no conflict on the pins, and the array's
canonical form. -/
def Sound (s : State) : Prop := s.defined ∧ s.noConflict ∧ s.env.chip.arr.wf

theorem level_ofBool_ne_undef (b : Bool) : Level.ofBool b ≠ .undef := by cases b <;> nofun

/-- No event makes a field UNDEF (R45). -/
theorem defined_record (e : Event) {s : State} (h : s.defined) : (record e s).defined := by
  intro hs
  rw [record_sst] at hs
  obtain ⟨hdir, hdout, hlvl, hoe⟩ := h hs
  cases e
  case cfgPins => exact ⟨hdir, hdout, hlvl, rfl⟩
  case dir d => exact ⟨by cases d <;> nofun, hdout, hlvl, hoe⟩
  case drive v => exact ⟨hdir, nofun, hlvl, hoe⟩
  case gate | sampBus | sampRB => exact ⟨hdir, hdout, hlvl, hoe⟩
  case ctl l b =>
    refine ⟨hdir, hdout, fun k => ?_, hoe⟩
    change (s.lvl.set l (Level.ofBool b)).get k ≠ .undef
    by_cases hk : k = l
    · rw [hk, levels_get_set_same]; exact level_ofBool_ne_undef b
    · rw [levels_get_set_other _ _ _ _ hk]; exact hlvl k

/-- An event without a hazard brings no conflict on the pins (R370). -/
theorem noConflict_record {e : Event} {s : State} (hz : hazard e s = none) (h : s.noConflict) :
    (record e s).noConflict := by
  obtain ⟨hstrobes, hlatches, hdrivers⟩ := h
  cases e
  case cfgPins | drive | gate | sampBus | sampRB => exact ⟨hstrobes, hlatches, hdrivers⟩
  case dir d =>
    cases d
    · exact ⟨hstrobes, hlatches, nofun⟩
    · exact ⟨hstrobes, hlatches, fun hc => by simp [hazard, show s.lvl.reN = .low from hc.1] at hz⟩
  case ctl l b =>
    cases l <;> cases b
    case reN.false =>
      simp only [hazard] at hz
      split_ifs at hz with hdir hwe
      exact ⟨fun hc => hwe hc.1, hlatches, fun hc => hdir hc.2⟩
    case weN.false =>
      simp only [hazard] at hz
      split_ifs at hz with hre
      exact ⟨fun hc => hre hc.2, hlatches, hdrivers⟩
    case cle.true =>
      simp only [hazard] at hz
      split_ifs at hz with hale
      exact ⟨hstrobes, fun hc => hale hc.2, hdrivers⟩
    case ale.true =>
      simp only [hazard] at hz
      split_ifs at hz with hcle
      exact ⟨hstrobes, fun hc => hcle hc.1, hdrivers⟩
    case weN.true => exact ⟨fun hc => (nomatch hc.1), hlatches, hdrivers⟩
    case reN.true => exact ⟨fun hc => (nomatch hc.2), hlatches, fun hc => (nomatch hc.1)⟩
    case cle.false => exact ⟨hstrobes, fun hc => (nomatch hc.1), hdrivers⟩
    case ale.false => exact ⟨hstrobes, fun hc => (nomatch hc.2), hdrivers⟩
    all_goals exact ⟨hstrobes, hlatches, hdrivers⟩

theorem sound_record {e : Event} {s : State} (hz : hazard e s = none) (h : Sound s) : Sound (record e s) :=
  ⟨defined_record e h.1, noConflict_record hz h.2.1, react_wf _ _ _ _ h.2.2⟩

/-- Every procedure keeps what each of its events keeps. -/
theorem kept_sound : Kept fun s t => Sound s → Sound t where
  refl := fun _ h => h
  trans := fun _ _ _ h1 h2 h => h2 (h1 h)
  event := fun _ _ _ hz h => sound_record hz h
  bus := fun s _ h => sound_record rfl ⟨h.1, h.2.1, by rw [answerBus_chip]; exact h.2.2⟩
  ready := fun s _ h => sound_record rfl ⟨h.1, h.2.1, by rw [answerReady_arr]; exact h.2.2⟩
  phase := fun _ _ h => h

theorem sound_applyReset {s : State} (h : s.env.chip.arr.wf) : Sound s.applyReset :=
  ⟨nofun, ⟨nofun, nofun, nofun⟩, h⟩

theorem around_sound : Around fun s t => Sound s → Sound t where
  answer := fun _ _ _ h => h
  fault := fun _ _ h => h
  pending := fun _ _ h => h
  reset := fun _ h => sound_applyReset h.2.2

/-! ### SESSION_INIT -/

/-- With no reset announced, an event that raises no hazard and to which the chip does not react does its state write
and is added to the trace. -/
theorem emitAll_cons_quiet {e : Event} {es : List Event} {s t : State} (hr : s.resetAfter = none)
    (hz : hazard e s = none) (hq : s.env.react s.lvl s.dir s.dout e = s.env)
    (ht : { applyEvent e s with trace := e :: s.trace } = t) : emitAll (e :: es) s = emitAll es t := by
  rw [emitAll, emit_ok hr hz, andThen_ok, record, hq, hr, ← ht]
  cases e <;> simp [applyEvent, hr]

/-- A chip that is not selected sees no rising edge (R81). -/
theorem react_deselected {lvl : Levels} (h : lvl.ceN = .high) (dir : Direction) (dout : DataLatch) (e : Event)
    (env : Env) : env.react lvl dir dout e = env := by
  simp [Env.react, Env.selected, h]

/-- SESSION_INIT first lets the chip go: CE_N rises, and then no other rising edge reaches it (R240). -/
theorem emitAll_deselect {s : State} (hr : s.resetAfter = none) :
    emitAll [.ctl .ceN true, .ctl .weN true, .ctl .reN true] s =
      .ok () { s with
        lvl := { s.lvl with ceN := .high, weN := .high, reN := .high }
        trace := [.ctl .reN true, .ctl .weN true, .ctl .ceN true] ++ s.trace } := by
  rw [emitAll_cons_quiet (by exact hr) rfl (react_ctl_ceN ..) rfl,
    emitAll_cons_quiet (by exact hr) rfl (react_deselected rfl ..) rfl,
    emitAll_cons_quiet (by exact hr) rfl (react_deselected rfl ..) rfl]
  rfl

/-- With no reset announced, SESSION_INIT's events leave the session's levels, the lanes inputs and the latch 0x00, and
the chip sees none of them (R240). -/
theorem emitAll_sessionInit {s : State} (hr : s.resetAfter = none) :
    emitAll sessionInitEvents s =
      .ok () { s with
        dir := .input, dout := .byte 0x00#8, oe := true, lvl := Levels.session
        trace := sessionInitEvents.reverse ++ s.trace } := by
  rw [show sessionInitEvents = [.ctl .ceN true, .ctl .weN true, .ctl .reN true] ++
      ([.ctl .cle false, .ctl .ale false, .ctl .wpN true, .cfgPins] ++
        [.drive 0x00#8, .dir .input, .gate .settle, .ctl .ceN false, .gate .settle]) from rfl, emitAll_append,
    emitAll_deselect hr, andThen_ok, emitAll_append]
  obtain ⟨sst, ph, dir, dout, lvl, oe, pending, ra, later, fault, tr, rq, bc, fr, env, drv⟩ := s
  cases hr
  simp [emitAll, emit, hazard, record, applyEvent, Levels.set, Level.ofBool, Direction.ofLaneDir, Levels.session]

/-- Where SESSION_INIT ends, the session's levels are established, also with a reset announced (R240). -/
theorem sessionInitBody_ok {s t : State} {a : Reply} (h : sessionInitBody s = .ok a t) :
    t.dir = .input ∧ t.dout = .byte 0x00#8 ∧ t.lvl = Levels.session ∧ t.oe = true ∧ t.ph = .idle := by
  have hcut := cutOf_bodyOf .sessionInit s
  simp only [bodyOf, h] at hcut
  rw [CutOf, sessionInitBody, emitAll_sessionInit (by rfl), andThen_ok] at hcut
  injection hcut with _ ht
  exact ⟨congrArg State.dir ht.symm, congrArg State.dout ht.symm, congrArg State.lvl ht.symm,
    congrArg State.oe ht.symm, congrArg State.ph ht.symm⟩

/-! ### The phase register -/

/-- Where a run ends its operation, `S.PH` is IDLE; where it waits for the chip, in the wait that the operation can have,
`S.PH` is BUSYWAIT, and the strobes are idle unless the operation is BUSY_WAIT (R181, R182). -/
def PhaseAfter {α : Type} (hang : Option BusyOp) (r : Run α) : Prop :=
  match r with
  | .ok _ t => t.ph = .idle
  | .stop (.waiting op) t => t.ph = .busyWait ∧ hang = some op ∧ (op ≠ .busyWait → t.strobesIdle = true)
  | .stop _ _ => True

theorem phaseAfter_cutOf {α : Type} {hang : Option BusyOp} {r r0 : Run α} (hcut : CutOf r r0)
    (h : PhaseAfter hang r0) : PhaseAfter hang r := by
  unfold CutOf at hcut
  split at hcut
  case h_1 => rw [hcut] at h; exact h
  case h_2 => trivial
  case h_3 w t _ =>
    rw [hcut] at h
    cases w <;> exact h

/-- A smooth run that answers leaves the phase register so. -/
theorem phaseAfter_smooth {s : State} {hang : Option BusyOp} {n : Nat} {b : Bool} {r : Run Reply}
    (h : Smooth s hang (Answers n b) r) (hi : hang ≠ some .busyWait → s.strobesIdle = true) : PhaseAfter hang r := by
  rcases r with ⟨a, t⟩ | ⟨f | _ | op, t⟩
  · exact h.2.1
  · exact h.elim
  · exact h.elim
  · obtain ⟨hm, hh, hp⟩ := h
    exact ⟨hp, hh, fun hop => (moved_strobesIdle hm).trans (hi fun hb => hop (Option.some.inj (hh.symm.trans hb)))⟩

/-- A raw primitive, a delay or a session operation ends with the phase register as it was, or stops; it never waits. -/
theorem phaseAfter_raw {i : Instr} {s : State} (hp : s.ph = .idle) (hc : checksIdle i = false) (hb : i ≠ .busyWait) :
    PhaseAfter (hangOf i) (bodyOf i s) := by
  have hevent : ∀ e, PhaseAfter none (eventOperation e s) := fun e => by
    unfold eventOperation emit
    split
    · trivial
    · split
      · trivial
      · exact (record_ph e s).trans hp
  cases i
  case sessionInit =>
    rw [bodyOf, sessionInitBody]
    rcases he : emitAll sessionInitEvents s with ⟨_, t⟩ | ⟨f | _ | op, t⟩
    · rfl
    · trivial
    · trivial
    · exact absurd he (emitAll_not_waiting _ _ _ _)
  case busDir | ctlSet | delayNs | shortPause => exact hevent _
  case busWrite =>
    rw [bodyOf, busWriteBody]
    split
    · exact hevent _
    · trivial
  case busRead =>
    rw [bodyOf, busReadBody, sampleBus]
    split
    · split
      · trivial
      · exact (record_ph _ _).trans hp
    · trivial
  case rbRead =>
    rw [bodyOf, rbReadBody, sampleReady]
    split
    · trivial
    · exact (record_ph _ _).trans hp
  case busyWait => exact absurd rfl hb
  case cmdCycle | addrCycle | dataOut | dataIn | readId | readPage | writePage | eraseBlock | readStatus =>
    exact absurd hc (by simp [checksIdle])
  all_goals exact hp

/-- Every host operation's body, from an idle phase register (R181, R182). -/
theorem phaseAfter_bodyOf (i : Instr) {s : State} (hp : s.ph = .idle) : PhaseAfter (hangOf i) (bodyOf i s) := by
  refine phaseAfter_cutOf (cutOf_bodyOf i s) ?_
  cases hc : checksIdle i
  case true =>
    cases hi : s.quiet.strobesIdle
    · rw [bodyOf_notIdle hc hi]; trivial
    · exact phaseAfter_smooth (smooth_bodyOf rfl i hc hi) fun _ => hi
  case false =>
    by_cases hb : i = .busyWait
    · subst hb
      exact phaseAfter_smooth (smooth_busyWaitBody rfl) fun h => absurd rfl h
    · exact phaseAfter_raw hp hc hb

/-- The reset input only cuts the rest of a waiting operation (R362). -/
theorem cutOf_resume (op : BusyOp) (s : State) :
    CutOf ((awaitReady op s).andThen (afterBusy op)) ((awaitReady op s.quiet).andThen (afterBusy op)) :=
  cutOf_andThen (cutOf_awaitReady op s) (cutOf_afterBusy op)

/-- With no reset announced, the rest of a waiting operation ends or waits on (R179). -/
theorem smooth_resume {op : BusyOp} {s : State} (hr : s.resetAfter = none) (hp : s.ph = .busyWait)
    (hi : op ≠ .busyWait → s.strobesIdle = true) :
    Smooth s (some op) (Answers op.bytes op.readsStatus) ((awaitReady op s).andThen (afterBusy op)) :=
  smooth_andThen (smooth_awaitReady hr hp op) fun _ hm =>
    smooth_afterBusy ((moved_resetAfter hm).trans hr) op fun hop => (moved_strobesIdle hm).trans (hi hop)

/-- The rest of a waiting operation (R179, R181). -/
theorem phaseAfter_resume {op : BusyOp} {s : State} (hp : s.ph = .busyWait)
    (hi : op ≠ .busyWait → s.strobesIdle = true) :
    PhaseAfter (some op) ((awaitReady op s).andThen (afterBusy op)) :=
  phaseAfter_cutOf (cutOf_resume op s) <|
    phaseAfter_smooth (smooth_resume (s := s.quiet) rfl hp hi) fun h => hi fun hop => h (congrArg some hop)

/-! ### Every step -/

theorem inv_of_sound {s : State} (h : Sound s) (hp : s.phaseMatches) : s.inv := ⟨h.1, h.2.1, hp, h.2.2⟩

/-- The invariant speaks of neither stream, nor of the host, nor of the reset input. -/
theorem sound_of_inv {s : State} (h : s.inv) : Sound s := ⟨h.1, h.2.1, h.2.2.2⟩

theorem phaseMatches_idle {s : State} (hf : s.fault = none) (hpend : s.pending = none) :
    s.phaseMatches ↔ s.ph = .idle := by
  rw [State.phaseMatches, hf, hpend]

/-- A run from a state in which nothing stopped and nothing waits ends in a state whose phase register is right. -/
theorem phaseMatches_finish {hang : Option BusyOp} {r : Run Reply} {t : State} (hf : r.state.fault = none)
    (hpend : r.state.pending = none) (hph : PhaseAfter hang r) (hs : hang ≠ none → r.state.sst = .ready)
    (h : finish r = .next t) : t.phaseMatches := by
  rcases finish_next h with ⟨a, u, rfl, -, rfl⟩ | ⟨u, -, rfl⟩ | ⟨f, u, rfl, -, rfl⟩ | ⟨op, u, rfl, rfl⟩
  · exact (phaseMatches_idle hf hpend).mpr hph
  · exact (phaseMatches_idle rfl rfl).mpr rfl
  · trivial
  · obtain ⟨hbusy, hh, hidle⟩ := hph
    rw [State.phaseMatches, show ({ u with pending := some op } : State).fault = none from hf]
    exact ⟨hbusy, hs (by rw [hh]; nofun), hidle⟩

/-- SESSION_INIT defines every field that it opens the session on (R240, R45). -/
theorem sound_sessionInitBody {s : State} (h : Sound s) : Sound (sessionInitBody s).state := by
  have hk := kept_emitAll kept_sound sessionInitEvents s h
  cases hb : sessionInitBody s with
  | ok a t =>
    obtain ⟨hdir, hdout, hlvl, hoe, -⟩ := sessionInitBody_ok hb
    rw [sessionInitBody] at hb
    cases he : emitAll sessionInitEvents s with
    | ok a u =>
      rw [he] at hb hk
      cases hb
      exact ⟨fun _ => ⟨by rw [hdir]; nofun, by rw [hdout]; nofun, by rw [hlvl]; intro l; cases l <;> nofun, hoe⟩, hk.2⟩
    | stop w u => rw [he] at hb; cases hb
  | stop w t =>
    rw [sessionInitBody] at hb
    cases he : emitAll sessionInitEvents s with
    | ok a u => rw [he] at hb; cases hb
    | stop w u => rw [he] at hb hk; cases hb; exact hk

theorem sound_bodyOf (i : Instr) {s : State} (h : Sound s) : Sound (bodyOf i s).state := by
  by_cases h1 : i = .sessionInit
  · subst h1; exact sound_sessionInitBody h
  · by_cases h2 : i = .sessionEnd
    · subst h2; exact ⟨nofun, h.2⟩
    · exact kept_bodyOf_inner kept_sound h1 h2 s h

/-- An operation that begins in a state with the invariant, where nothing stopped and nothing waits, keeps it. -/
theorem inv_finish_bodyOf {i : Instr} {s t : State} (hf : s.fault = none) (hpend : s.pending = none) (hinv : s.inv)
    (ha : s.sst = .ready ∨ i = .sessionInit) (h : finish (bodyOf i s) = .next t) : t.inv := by
  have hidle : s.ph = .idle := (phaseMatches_idle hf hpend).mp hinv.2.2.1
  obtain ⟨-, -, -, -, hpend', hf', -⟩ := kept_bodyOf kept_rest (fun _ _ => by simp) i s
  refine inv_of_sound (kept_finish kept_sound around_sound (fun hs => sound_bodyOf i hs) h (sound_of_inv hinv))
    (phaseMatches_finish (hf'.trans hf) (hpend'.trans hpend) (phaseAfter_bodyOf i hidle) (fun hh => ?_) h)
  have h1 : i ≠ .sessionInit := by rintro rfl; exact hh rfl
  have h2 : i ≠ .sessionEnd := by rintro rfl; exact hh rfl
  exact (kept_bodyOf_inner kept_sst h1 h2 s).trans (ha.resolve_right h1)

theorem inv_applyReset {s : State} (h : s.env.chip.arr.wf) : s.applyReset.inv :=
  inv_of_sound (sound_applyReset h) ((phaseMatches_idle rfl rfl).mpr rfl)

/-- A command byte of the bus port keeps the invariant (R174, R181). -/
theorem inv_busCommand {c : Byte} {s t : State} (hf : s.fault = none) (hpend : s.pending = none) (hinv : s.inv)
    (h : busCommand c s = .next t) : t.inv := by
  refine inv_of_sound (kept_busCommand kept_sound around_sound h (sound_of_inv hinv)) ?_
  obtain ⟨-, -, -, -, hpend', hf', -⟩ := kept_cmdPhase kept_rest c s
  rcases busCommand_next h with ⟨-, rfl⟩ | ⟨-, rfl⟩ |
    ⟨-, ⟨-, u, hu, rfl⟩ | ⟨-, u, -, rfl⟩ | ⟨f, u, -, -, rfl⟩⟩
  · exact (phaseMatches_idle rfl rfl).mpr rfl
  · exact hinv.2.2.1
  · rw [hu] at hpend' hf'
    exact (phaseMatches_idle (s := { u with ph := .idle }) (hf'.trans hf) (hpend'.trans hpend)).mpr rfl
  · exact (phaseMatches_idle rfl rfl).mpr rfl
  · trivial

/-- The end of an operation keeps the invariant, with its frame or with the reset that comes first (R105, R331). -/
theorem inv_deliver {a : Reply} {s t : State} (hinv : s.inv) (h : deliver a s = .next t) : t.inv := by
  rcases deliver_next h with ⟨-, rfl⟩ | ⟨-, rfl⟩
  · exact inv_applyReset hinv.2.2.2
  · exact hinv

/-- Every instruction keeps the invariant. -/
theorem inv_exec {i : Instr} {s t : State} (hf : s.fault = none) (hpend : s.pending = none) (hinv : s.inv)
    (h : exec i s = .next t) : t.inv := by
  have hop : operation i (bodyOf i) s = .next t → t.inv := by
    intro h
    rcases operation_next h with ⟨-, rfl⟩ | ⟨-, -, -, rfl⟩ | ⟨-, -, -, rfl⟩ | ⟨-, ha, -, h⟩
    · exact inv_applyReset hinv.2.2.2
    · exact hinv
    · exact hinv
    · exact inv_finish_bodyOf hf hpend hinv ha h
  rcases exec_cases i s with ⟨-, -, h1⟩ | ⟨-, -, h1 | h1⟩ | ⟨-, c, -, h1⟩ <;> rw [h1] at h
  · exact hop h
  · exact hop h
  · cases h
  · exact inv_busCommand hf hpend hinv h

/-- The rest of a waiting operation keeps the invariant (R179 to R182). -/
theorem inv_resumeBusy {op : BusyOp} {s t : State} (hf : s.fault = none) (hpend : s.pending = some op) (hinv : s.inv)
    (h : resumeBusy op { s with pending := none } = .next t) : t.inv := by
  have hsound := sound_of_inv hinv
  have hwait := hinv.2.2.1
  rw [State.phaseMatches, hf, hpend] at hwait
  obtain ⟨hbusy, hs, hidle⟩ := hwait
  obtain ⟨-, -, -, -, hpend', hf', -⟩ := kept_resume kept_rest op { s with pending := none }
  exact inv_of_sound
    (kept_finish kept_sound around_sound (kept_resume kept_sound op { s with pending := none }) h (by exact hsound))
    (phaseMatches_finish (hf'.trans hf) hpend' (phaseAfter_resume hbusy hidle)
      (fun _ => (kept_resume kept_sst op { s with pending := none }).trans hs) h)

/-- Settles O51: each thing that a step can do, by `step_cases`, keeps the invariant. -/
theorem stepKeepsMachineInvariant : Obligations.StepKeepsMachineInvariant := by
  intro s t hinv h
  rcases step_cases h with ⟨-, rfl⟩ | ⟨-, hf, ⟨op, hp, h⟩ | ⟨i, rest, hp, -, h⟩ | ⟨i, rest, hp, -, -, h⟩ |
    ⟨c, rest, hp, -, h⟩ | ⟨rc, rest, hp, -, h⟩ | ⟨hp, -, -, h⟩ | ⟨-, rfl⟩⟩
  · exact inv_applyReset hinv.2.2.2
  · exact inv_resumeBusy hf hp hinv h
  · exact inv_exec (by exact hf) (by exact hp) (by exact hinv) h
  · exact inv_exec (by exact hf) (by exact hp) (by exact hinv) h
  · exact inv_busCommand (by exact hf) (by exact hp) (by exact hinv) h
  · exact inv_deliver (by exact hinv) h
  · rcases driverStep_next h with rfl | ⟨d, io, fr, rfl⟩
    · exact hinv
    · exact hinv
  · exact hinv

/-- Settles O52: right after reset no session is open, every line is UNDEF and the array lists nothing. -/
theorem resetMeetsMachineInvariant : Obligations.ResetMeetsMachineInvariant :=
  ⟨nofun, ⟨nofun, nofun, nofun⟩, rfl, List.Pairwise.nil, nofun⟩

end Sys2Proof.Proofs

/-! No host procedure raises a model fault. The operations that the host issues find the strobes idle, so their bodies
cannot stop with a fault, and what they leave is again a state that only the host procedures drive. -/

namespace Sys2Proof.Proofs

open Sys2Proof.Machine Sys2Proof.Spec

/-! ### Outcomes -/

/-- The outcome is no fault, and a next state is again one of a run of the host procedures alone. -/
def HostSafe (o : Host.Outcome State Fault Refusal) : Prop :=
  (∀ f, o ≠ .fault f) ∧ ∀ t, o = .next t → t.hostOnly

theorem hostSafe_next {t : State} (h : t.hostOnly) : HostSafe (.next t) :=
  ⟨nofun, fun _ ht => Host.Outcome.next.inj ht ▸ h⟩

theorem hostSafe_refused (r : Refusal) : HostSafe (.refused r) :=
  ⟨fun _ h => (nomatch h), fun _ h => nomatch h⟩

/-- What `hostOnly` says of the streams, the host and the fault mark, which no procedure of the block touches. -/
def HostStreams (s : State) : Prop :=
  s.busCmd = [] ∧ s.fault = none ∧
    (s.request = [] ∨ ∃ i, hostIssues i = true ∧ i.framed = true ∧ s.request = encode i) ∧ s.driver.writeReady

theorem hostOnly_applyReset {s : State} (h : HostStreams s) : s.applyReset.hostOnly := by
  obtain ⟨hb, -, hq, hd⟩ := h
  refine ⟨nofun, hb, rfl, ?_, ?_⟩
  · rw [applyReset_request]
    split
    · exact .inl rfl
    · exact hq
  · rw [applyReset_driver, Driver.afterReset]
    split
    · exact fun _ _ _ => ⟨nofun, nofun, nofun⟩
    · exact hd

theorem hostSafe_deliver (a : Reply) {s : State} (h : s.hostOnly) : HostSafe (deliver a s) := by
  unfold deliver
  split
  · exact hostSafe_next (hostOnly_applyReset h.2)
  · exact hostSafe_next h

/-- The run stops with no fault, and where it ends or waits the strobes are idle. -/
def Harmless {α : Type} (r : Run α) : Prop :=
  match r with
  | .ok _ t => t.strobesIdle = true
  | .stop (.fault _) _ => False
  | .stop .reset _ => True
  | .stop (.waiting _) t => t.strobesIdle = true

/-- The reset input adds no fault to a run (R362). -/
theorem harmless_cutOf {α : Type} {r r0 : Run α} (hcut : CutOf r r0) (h : Harmless r0) : Harmless r := by
  unfold CutOf at hcut
  split at hcut
  case h_1 => rw [hcut] at h; exact h
  case h_2 => trivial
  case h_3 w t _ =>
    rw [hcut] at h
    cases w <;> exact h

theorem harmless_smooth {α : Type} {s : State} {hang : Option BusyOp} {Q : α → State → Prop} {r : Run α}
    (h : Smooth s hang Q r) (hi : s.strobesIdle = true) : Harmless r := by
  rcases r with ⟨a, t⟩ | ⟨f | _ | op, t⟩
  · exact (moved_strobesIdle h.1).trans hi
  · exact h
  · exact trivial
  · exact (moved_strobesIdle h.1).trans hi

theorem hostSafe_finish {r : Run Reply} (hr : Harmless r) (hs : HostStreams r.state) : HostSafe (finish r) := by
  rcases r with ⟨a, t⟩ | ⟨f | _ | op, t⟩
  · exact hostSafe_deliver a ⟨fun _ => hr, hs⟩
  · exact hr.elim
  · exact hostSafe_next (hostOnly_applyReset hs)
  · exact hostSafe_next ⟨fun _ => hr, hs⟩

/-! ### The host's operations -/

/-- SESSION_INIT faults nowhere and leaves the strobes idle (R240). -/
theorem harmless_sessionInit (s : State) : Harmless (bodyOf .sessionInit s) := by
  refine harmless_cutOf (cutOf_bodyOf .sessionInit s) ?_
  rw [bodyOf, sessionInitBody, emitAll_sessionInit (by rfl)]
  rfl

/-- The operations that the host issues stop with no fault from idle strobes (R279). -/
theorem harmless_bodyOf {i : Instr} {s : State} (hi : hostIssues i = true)
    (hidle : s.strobesIdle = true ∨ i = .sessionInit) : Harmless (bodyOf i s) := by
  by_cases h : i = .sessionInit
  · subst h; exact harmless_sessionInit s
  · have hc : checksIdle i = true := by
      cases i
      case sessionInit => exact absurd rfl h
      case readId | readPage | writePage | eraseBlock => rfl
      all_goals cases hi
    exact harmless_cutOf (cutOf_bodyOf i s)
      (harmless_smooth (smooth_bodyOf rfl i hc (hidle.resolve_right h)) (hidle.resolve_right h))

theorem hostSafe_operation {i : Instr} {s : State} (hi : hostIssues i = true) (h : s.hostOnly) :
    HostSafe (operation i (bodyOf i) s) := by
  obtain ⟨hidle, hb, hf, hq, hd⟩ := h
  obtain ⟨hq', hb', hd', -, -, hf', -⟩ := kept_bodyOf kept_rest (fun _ _ => by simp) i s
  have hstreams : HostStreams (bodyOf i s).state :=
    ⟨hb'.trans hb, hf'.trans hf, by rw [hq']; exact hq, by rw [hd']; exact hd⟩
  unfold operation
  split
  · exact hostSafe_next (hostOnly_applyReset ⟨hb, hf, hq, hd⟩)
  · split
    next ha =>
      split
      · have ha' : s.sst = .ready ∨ i = .sessionInit := by simpa [sessionAdmits] using ha
        exact hostSafe_finish (harmless_bodyOf hi (ha'.imp_left hidle)) hstreams
      · exact hostSafe_deliver _ ⟨hidle, hb, hf, hq, hd⟩
    next => exact hostSafe_deliver _ ⟨hidle, hb, hf, hq, hd⟩

/-- The host port reads an operation of the host back; an ERASE_BLOCK of an illegal block is a word with a bad operand
(R110). -/
theorem decode_hostIssues {i : Instr} (hi : hostIssues i = true) (hf : i.framed = true) :
    decode .host (encode i) = .ok (i, []) ∨ ∃ w, decode .host (encode i) = .error (.word .badOperand w []) := by
  have hp : i.port = .host := by cases i <;> first | rfl | cases hi
  cases ho : i.operandsOk
  case true =>
    left
    have := decode_of_readsBack (readsBack_of_wellFormed hp (by rw [Instr.wellFormed, hf, ho]; rfl)) []
    rwa [List.append_nil] at this
  case false =>
    right
    cases i
    case eraseBlock b =>
      refine ⟨makeWord 0x33#8 b, ?_⟩
      have hl := (Laws.payloadLen_zero b (op := 0x33#8) (by decide) (by decide) (by decide)).symm
      have hd : decodeWord (makeWord 0x33#8 b) [] = .error .badOperand := by
        rw [decodeWord, makeWord_op, makeWord_arg]
        show checked (.eraseBlock b) = _
        rw [checked, ho]
        rfl
      have := decode_of_decodeWord_error (payload := []) hl hd []
      rwa [List.append_nil, List.append_nil] at this
    all_goals first | cases ho | cases hi

/-- The step that takes the host's operation (R100, R279). -/
theorem hostSafe_hostPortStep {s : State} (h : s.hostOnly) (hne : s.request ≠ []) : HostSafe (hostPortStep s) := by
  obtain ⟨hidle, hb, hf, hq, hd⟩ := h
  obtain ⟨i, hi, hfr, hq⟩ := hq.resolve_left hne
  have hp : i.port = .host := by cases i <;> first | rfl | cases hi
  have hs : (State.tick { s with request := [] }).hostOnly := ⟨hidle, hb, hf, .inl rfl, hd⟩
  rw [hostPortStep, hq]
  rcases decode_hostIssues hi hfr with hdec | ⟨w, hdec⟩
  · rw [hdec]
    show HostSafe (exec i _)
    rw [exec_host hp hfr]
    exact hostSafe_operation hi hs
  · rw [hdec]
    obtain ⟨rc, hrc⟩ := rejectWord_eq .badOperand w (State.tick { s with request := [] })
    show HostSafe (rejectWord _ _ _)
    rw [hrc]
    exact hostSafe_deliver _ hs

/-! ### The host's own move -/

/-- A good move put on an empty request stream (R100). -/
theorem hostSafe_driven {s : State} {m : DriverMove} (h : s.hostOnly) (hq : s.request = []) (hm : GoodMove m) :
    HostSafe (s.driven m) := by
  obtain ⟨hidle, hb, hf, -, -⟩ := h
  rcases m with ⟨d, _ | i⟩ | _
  · exact hostSafe_next ⟨hidle, hb, hf, .inl hq, hm.1⟩
  · obtain ⟨hi, hfr⟩ := hm.2 i rfl
    exact hostSafe_next ⟨hidle, hb, hf, .inr ⟨i, hi, hfr, by rw [hq]; rfl⟩, hm.1⟩
  · exact hostSafe_refused _

theorem goodMove_invoke {d : Driver} : GoodMove d.invoke := by
  unfold Driver.invoke
  split
  · exact goodMove_fatal d _
  · exact ⟨fun _ _ _ => ⟨nofun, nofun, nofun⟩, fun i hi => by cases hi; exact ⟨rfl, rfl⟩⟩

theorem hostSafe_driverStep {s : State} (h : s.hostOnly) (hq : s.request = []) : HostSafe (driverStep s) := by
  unfold driverStep
  split
  · exact hostSafe_next h
  · exact hostSafe_next h
  · exact hostSafe_driven h hq goodMove_invoke
  · split
    · exact hostSafe_next h
    · exact hostSafe_driven (s := { s with frames := _ }) h hq (goodMove_reply _ _ h.2.2.2.2)

/-! ### Every step -/

/-- The rest of a waiting operation (R182). -/
theorem hostSafe_resumeBusy {op : BusyOp} {s : State} (h : s.hostOnly) (hp : s.ph = .busyWait) (hs : s.sst = .ready) :
    HostSafe (resumeBusy op { s with pending := none }) := by
  obtain ⟨hidle, hb, hf, hq, hd⟩ := h
  obtain ⟨hq', hb', hd', -, -, hf', -⟩ := kept_resume kept_rest op { s with pending := none }
  have hsmooth := smooth_resume (op := op) (s := State.quiet { s with pending := none }) rfl hp fun _ => hidle hs
  exact hostSafe_finish (harmless_cutOf (cutOf_resume op _) (harmless_smooth hsmooth (hidle hs)))
    ⟨hb'.trans hb, hf'.trans hf, by rw [hq']; exact hq, by rw [hd']; exact hd⟩

/-- Settles O55: whatever acts next, the reset, the rest of a waiting operation, the host's operation or its own move,
the outcome is safe. -/
theorem hostProceduresNeverFault : Obligations.HostProceduresNeverFault := by
  intro s hinv h
  have hsafe : HostSafe (step s) := by
    have hwait := hinv.2.2.1
    obtain ⟨-, hb, hf, -, -⟩ := id h
    unfold step
    split
    · exact hostSafe_next (hostOnly_applyReset h.2)
    · split
      next f hf' => rw [hf] at hf'; cases hf'
      next =>
        split
        next op hp =>
          rw [State.phaseMatches, hf, hp] at hwait
          exact hostSafe_resumeBusy h hwait.1 hwait.2.1
        next =>
          rw [if_neg (not_not.mpr hb)]
          split
          · exact hostSafe_hostPortStep h ‹_›
          · exact hostSafe_driverStep h (not_not.mp ‹_›)
  refine ⟨fun f => ⟨hsafe.1 f, fun t ht hf => ?_⟩, hsafe.2⟩
  rw [(hsafe.2 t ht).2.2.1] at hf
  cases hf

end Sys2Proof.Proofs

/-! What every step keeps, and how a step can end with no reset announced: the trace, the session state and the levels. -/

namespace Sys2Proof.Proofs

open Sys2Proof.Machine Sys2Proof.Spec

/-! ### The trace -/

theorem around_trace : Around fun s t => ∃ es, t.trace = es ++ s.trace where
  answer := fun _ _ _ => ⟨[], rfl⟩
  fault := fun _ _ => ⟨[], rfl⟩
  pending := fun _ _ => ⟨[], rfl⟩
  reset := fun _ => ⟨[], rfl⟩

/-- Settles O54: events are only added (`kept_trace`), and nothing else that a step does touches the trace. -/
theorem traceOnlyGrows : Obligations.TraceOnlyGrows := by
  intro s t h
  rcases step_cases h with ⟨-, rfl⟩ | ⟨-, -, ⟨op, -, h⟩ | ⟨i, rest, -, -, h⟩ | ⟨i, rest, -, -, -, h⟩ |
    ⟨c, rest, -, -, h⟩ | ⟨rc, rest, -, -, h⟩ | ⟨-, -, -, h⟩ | ⟨-, rfl⟩⟩
  · exact ⟨[], rfl⟩
  · obtain ⟨es, he⟩ := kept_finish kept_trace around_trace (kept_resume kept_trace op _) h
    exact ⟨es, he⟩
  · obtain ⟨es, he⟩ := kept_exec kept_trace (fun _ _ => ⟨[], rfl⟩) around_trace h
    exact ⟨es, he⟩
  · obtain ⟨es, he⟩ := kept_exec kept_trace (fun _ _ => ⟨[], rfl⟩) around_trace h
    exact ⟨es, he⟩
  · obtain ⟨es, he⟩ := kept_busCommand kept_trace around_trace h
    exact ⟨es, he⟩
  · rcases deliver_next h with ⟨-, rfl⟩ | ⟨-, rfl⟩ <;> exact ⟨[], rfl⟩
  · rcases driverStep_next h with rfl | ⟨d, io, fr, rfl⟩ <;> exact ⟨[], rfl⟩
  · exact ⟨[], rfl⟩

/-! ### Runs with no reset announced -/

/-- Where no reset is announced, a run that goes on ends in its frame or waits for the chip (R105, R180, R322). -/
theorem finish_next_noReset {r : Run Reply} {t : State} (hr : r.state.resetAfter = none)
    (hcut : ∀ u, r ≠ .stop .reset u) (h : finish r = .next t) :
    (∃ a u, r = .ok a u ∧ t = u.answer a.1 a.2) ∨
      ∃ op u, r = .stop (.waiting op) u ∧ t = { u with pending := some op } := by
  rcases finish_next h with ⟨a, u, rfl, -, rfl⟩ | ⟨u, ⟨a, rfl, h0⟩ | rfl, -⟩ | ⟨f, u, rfl, h0, -⟩ | ⟨op, u, rfl, rfl⟩
  · exact .inl ⟨a, u, rfl, by rw [tick_none (by exact hr)]⟩
  · rw [show u.resetAfter = none from hr] at h0; cases h0
  · exact absurd rfl (hcut u)
  · exact absurd hr h0
  · exact .inr ⟨op, u, rfl, rfl⟩

theorem bodyOf_resetAfter (i : Instr) {s : State} (hr : s.resetAfter = none) :
    (bodyOf i s).state.resetAfter = none :=
  kept_bodyOf kept_noReset (fun _ _ h => h) i s hr

theorem finish_bodyOf_noReset {i : Instr} {s t : State} (hr : s.resetAfter = none)
    (h : finish (bodyOf i s) = .next t) :
    (∃ a u, bodyOf i s = .ok a u ∧ t = u.answer a.1 a.2) ∨
      ∃ op u, bodyOf i s = .stop (.waiting op) u ∧ t = { u with pending := some op } :=
  finish_next_noReset (bodyOf_resetAfter i hr) (fun _ => bodyOf_not_reset hr) h

theorem finish_resume_noReset {op : BusyOp} {s t : State} (hr : s.resetAfter = none)
    (h : resumeBusy op s = .next t) :
    (∃ a u, (awaitReady op s).andThen (afterBusy op) = .ok a u ∧ t = u.answer a.1 a.2) ∨
      ∃ op' u, (awaitReady op s).andThen (afterBusy op) = .stop (.waiting op') u ∧ t = { u with pending := some op' } :=
  finish_next_noReset (kept_resume kept_noReset op s hr) (fun _ => resume_not_reset hr) h

/-- With no reset announced, a host operation that goes on is rejected or runs its body (R301, R302). -/
theorem operation_next_noReset {i : Instr} {s t : State} (hr : s.resetAfter = none)
    (h : operation i (bodyOf i) s = .next t) :
    (s.sst = .uninit ∧ i ≠ .sessionInit ∧ t = s.answer .notInit []) ∨
      (i.operandsOk = false ∧ t = s.answer .badOperand []) ∨ finish (bodyOf i s) = .next t := by
  rcases operation_next h with ⟨h0, -⟩ | ⟨-, hs, hi, rfl⟩ | ⟨-, -, ho, rfl⟩ | ⟨-, -, -, h⟩
  · rw [hr] at h0; cases h0
  · exact .inl ⟨hs, hi, by rw [tick_none hr]⟩
  · exact .inr (.inl ⟨ho, by rw [tick_none hr]⟩)
  · exact .inr (.inr h)

/-- With no reset announced, a command byte of the bus port that goes on is ignored, or is one command cycle from idle
strobes (R243, R174). -/
theorem busCommand_next_noReset {c : Byte} {s t : State} (hr : s.resetAfter = none) (h : busCommand c s = .next t) :
    t = s ∨ s.strobesIdle = true ∧ ∃ u, cmdPhase c s = .ok () u ∧ t = { u with ph := .idle } := by
  rcases busCommand_next h with ⟨h0, -⟩ | ⟨-, rfl⟩ |
    ⟨-, ⟨hi, u, hu, rfl⟩ | ⟨-, u, hu, -⟩ | ⟨f, u, ⟨-, rfl⟩ | hu, h0, -⟩⟩
  · rw [hr] at h0; cases h0
  · exact .inl rfl
  · exact .inr ⟨hi, u, hu, rfl⟩
  · exact absurd hu (cmdPhase_not_reset hr)
  · exact absurd hr h0
  · have hk := kept_cmdPhase kept_noReset c s hr
    rw [hu] at hk
    exact absurd hk h0

/-- Every instruction that goes on with no reset announced: a rejection, a body, or a command byte. -/
theorem exec_next_noReset {i : Instr} {s t : State} (hr : s.resetAfter = none) (h : exec i s = .next t) :
    (i.port = .host ∧ ((s.sst = .uninit ∧ i ≠ .sessionInit ∧ t = s.answer .notInit []) ∨
      (i.operandsOk = false ∧ t = s.answer .badOperand []) ∨ finish (bodyOf i s) = .next t)) ∨
    ∃ c, commandOf i = some c ∧
      (t = s ∨ s.strobesIdle = true ∧ ∃ u, cmdPhase c s = .ok () u ∧ t = { u with ph := .idle }) := by
  rcases exec_cases i s with ⟨hp, -, h1⟩ | ⟨-, hp, h1 | h1⟩ | ⟨-, c, hc, h1⟩ <;> rw [h1] at h
  · exact .inl ⟨hp, operation_next_noReset hr h⟩
  · exact .inl ⟨hp, operation_next_noReset hr h⟩
  · cases h
  · exact .inr ⟨c, hc, busCommand_next_noReset hr h⟩

/-! ### The session state -/

theorem sst_sessionInitBody (s : State) :
    (sessionInitBody s).state.sst = s.sst ∨ (sessionInitBody s).state.sst = .ready := by
  have hk := kept_emitAll kept_sst sessionInitEvents s
  rw [sessionInitBody]
  cases he : emitAll sessionInitEvents s with
  | ok a u => exact .inr rfl
  | stop w u => rw [he] at hk; exact .inl hk

/-- A run that goes on leaves the session state that its body left, unless a reset, announced before, ends it. -/
theorem sst_finish {r : Run Reply} {t : State} {announced : Prop} (hr : ¬announced → r.state.resetAfter = none)
    (hcut : ¬announced → ∀ u, r ≠ .stop .reset u) (h : finish r = .next t) :
    t.sst = r.state.sst ∨ (announced ∧ t.sst = .uninit) := by
  by_cases ha : announced
  · rcases finish_next h with ⟨a, u, rfl, -, rfl⟩ | ⟨u, -, rfl⟩ | ⟨f, u, rfl, -, rfl⟩ | ⟨op, u, rfl, rfl⟩
    · exact .inl rfl
    · exact .inr ⟨ha, rfl⟩
    · exact .inl rfl
    · exact .inl rfl
  · rcases finish_next_noReset (hr ha) (hcut ha) h with ⟨a, u, rfl, rfl⟩ | ⟨op, u, rfl, rfl⟩
    · exact .inl rfl
    · exact .inl rfl

/-- A command byte of the bus port leaves the session state, unless a reset, announced before, ends it. -/
theorem sst_busCommand {c : Byte} {s t : State} (h : busCommand c s = .next t) :
    t.sst = s.sst ∨ (s.resetAfter ≠ none ∧ t.sst = .uninit) := by
  have hk := kept_cmdPhase kept_sst c s
  rcases busCommand_next h with ⟨h0, rfl⟩ | ⟨-, rfl⟩ |
    ⟨-, ⟨-, u, hu, rfl⟩ | ⟨-, u, hu, rfl⟩ | ⟨f, u, ⟨-, rfl⟩ | hu, -, rfl⟩⟩
  · exact .inr ⟨by rw [h0]; nofun, rfl⟩
  · exact .inl rfl
  · rw [hu] at hk; exact .inl hk
  · exact .inr ⟨fun hr => cmdPhase_not_reset hr hu, rfl⟩
  · exact .inl rfl
  · rw [hu] at hk; exact .inl hk

/-- What an instruction that goes on does to the session state (R240, R242, R360). -/
theorem sst_exec {i : Instr} {s t : State} (h : exec i s = .next t) :
    t.sst = s.sst ∨ (s.resetAfter ≠ none ∧ t.sst = .uninit) ∨ (i = .sessionInit ∧ t.sst = .ready) ∨
      (i = .sessionEnd ∧ t.sst = .uninit) := by
  have hop : operation i (bodyOf i) s = .next t → t.sst = s.sst ∨ (s.resetAfter ≠ none ∧ t.sst = .uninit) ∨
      (i = .sessionInit ∧ t.sst = .ready) ∨ (i = .sessionEnd ∧ t.sst = .uninit) := by
    intro h
    rcases operation_next h with ⟨h0, rfl⟩ | ⟨-, -, -, rfl⟩ | ⟨-, -, -, rfl⟩ | ⟨-, -, -, h⟩
    · exact .inr (.inl ⟨by rw [h0]; nofun, rfl⟩)
    · exact .inl rfl
    · exact .inl rfl
    · rcases sst_finish (announced := s.resetAfter ≠ none) (fun hr => bodyOf_resetAfter i (not_not.mp hr))
        (fun hr _ => bodyOf_not_reset (not_not.mp hr)) h with ht | ht
      · rw [ht]
        by_cases h1 : i = .sessionInit
        · subst h1
          exact (sst_sessionInitBody s).imp_right fun hs => .inr (.inl ⟨rfl, hs⟩)
        · by_cases h2 : i = .sessionEnd
          · subst h2; exact .inr (.inr (.inr ⟨rfl, rfl⟩))
          · exact .inl (kept_bodyOf_inner kept_sst h1 h2 s)
      · exact .inr (.inl ht)
  rcases exec_cases i s with ⟨-, -, h1⟩ | ⟨-, -, h1 | h1⟩ | ⟨-, c, -, h1⟩ <;> rw [h1] at h
  · exact hop h
  · exact hop h
  · cases h
  · exact (sst_busCommand h).imp_right .inl

/-- The bus port decodes command bytes only (R107). -/
theorem port_of_decode_bus {bytes rest : List Byte} {i : Instr} (h : decode .bus bytes = .ok (i, rest)) :
    i.port = .bus := by
  have hbyte : ∀ {c : Byte} {i : Instr}, decodeNandByte c = some i → i.port = .bus := by
    intro c i h
    unfold decodeNandByte at h
    split at h <;> cases h <;> rfl
  cases bytes with
  | nil => cases h
  | cons c tail =>
    simp only [decode, decodeBusCommand] at h
    split at h
    · injection h with h
      injection h with h1 _
      exact h1 ▸ hbyte ‹_›
    · cases h

/-- What a step that goes on does to the session state. -/
theorem sst_step {s t : State} (h : step s = .next t) :
    t.sst = s.sst ∨ (s.resetAfter ≠ none ∧ t.sst = .uninit) ∨
      (s.pending = none ∧ s.busCmd = [] ∧
        (((∃ rest, decode .host s.request = .ok (.sessionInit, rest)) ∧ t.sst = .ready) ∨
          ((∃ rest, decode .host s.request = .ok (.sessionEnd, rest)) ∧ t.sst = .uninit))) := by
  have hann : ∀ {u : State}, u.resetAfter = s.resetAfter.map (· - 1) → u.resetAfter ≠ none → s.resetAfter ≠ none :=
    fun hu h h0 => h (by rw [hu, h0]; rfl)
  rcases step_cases h with ⟨h0, rfl⟩ | ⟨-, -, ⟨op, -, h⟩ | ⟨i, rest, -, hd, h⟩ | ⟨i, rest, hp, hb, hd, h⟩ |
    ⟨c, rest, -, -, h⟩ | ⟨rc, rest, -, -, h⟩ | ⟨-, -, -, h⟩ | ⟨-, rfl⟩⟩
  · refine .inr (.inl ⟨?_, rfl⟩)
    rcases h0 with h0 | h0
    · rw [h0]; nofun
    · exact h0.1
  · have hk := kept_resume kept_sst op { s with pending := none }
    rcases sst_finish (announced := s.resetAfter ≠ none)
      (fun hr => kept_resume kept_noReset op { s with pending := none } (not_not.mp hr))
      (fun hr _ => resume_not_reset (not_not.mp hr)) h with ht | ht
    · exact .inl (ht.trans hk)
    · exact .inr (.inl ht)
  · have hport := port_of_decode_bus hd
    rcases sst_exec h with ht | ⟨hr, ht⟩ | ⟨rfl, -⟩ | ⟨rfl, -⟩
    · exact .inl ht
    · exact .inr (.inl ⟨hann rfl hr, ht⟩)
    · cases hport
    · cases hport
  · rcases sst_exec h with ht | ⟨hr, ht⟩ | ⟨rfl, ht⟩ | ⟨rfl, ht⟩
    · exact .inl ht
    · exact .inr (.inl ⟨hann rfl hr, ht⟩)
    · exact .inr (.inr ⟨hp, hb, .inl ⟨⟨rest, hd⟩, ht⟩⟩)
    · exact .inr (.inr ⟨hp, hb, .inr ⟨⟨rest, hd⟩, ht⟩⟩)
  · rcases sst_busCommand h with ht | ⟨hr, ht⟩
    · exact .inl ht
    · exact .inr (.inl ⟨hann rfl hr, ht⟩)
  · rcases deliver_next h with ⟨h0, rfl⟩ | ⟨-, rfl⟩
    · exact .inr (.inl ⟨hann rfl (by rw [h0]; nofun), rfl⟩)
    · exact .inl rfl
  · rcases driverStep_next h with rfl | ⟨d, io, fr, rfl⟩ <;> exact .inl rfl
  · exact .inl rfl

/-- Settles O11: `sst_exec` and `sst_step` name each change of the session state. -/
theorem sessionChangesOnlyBySessionOperations : Obligations.SessionChangesOnlyBySessionOperations := by
  refine ⟨fun i s t h => ⟨fun hs ht => ?_, fun hs ht => ?_⟩, fun s t h => ⟨fun hs ht => ?_, fun hs ht => ?_⟩⟩
  · rcases sst_exec h with h1 | ⟨-, h1⟩ | ⟨h1, -⟩ | ⟨-, h1⟩
    · rw [h1, hs] at ht; cases ht
    · rw [h1] at ht; cases ht
    · exact h1
    · rw [h1] at ht; cases ht
  · rcases sst_exec h with h1 | ⟨h1, -⟩ | ⟨-, h1⟩ | ⟨h1, -⟩
    · rw [h1, hs] at ht; cases ht
    · exact .inr h1
    · rw [h1] at ht; cases ht
    · exact .inl h1
  · rcases sst_step h with h1 | ⟨-, h1⟩ | ⟨hp, hb, ⟨hd, -⟩ | ⟨-, h1⟩⟩
    · rw [h1, hs] at ht; cases ht
    · rw [h1] at ht; cases ht
    · exact ⟨hp, hb, hd⟩
    · rw [h1] at ht; cases ht
  · rcases sst_step h with h1 | ⟨h1, -⟩ | ⟨hp, hb, ⟨-, h1⟩ | ⟨hd, -⟩⟩
    · rw [h1, hs] at ht; cases ht
    · exact .inr h1
    · rw [h1] at ht; cases ht
    · exact .inl ⟨hp, hb, hd⟩

/-! ### The levels -/

theorem moved_of_smooth {α : Type} {s : State} {hang : Option BusyOp} {Q : α → State → Prop} {r : Run α}
    (h : Smooth s hang Q r) : Moved s r.state := by
  rcases r with ⟨a, u⟩ | ⟨f | _ | op, u⟩
  · exact h.1
  · exact h.elim
  · exact h.elim
  · exact h.1

/-- A composite operation's body moves only what it may, whether it ends, waits or faults (R182). -/
theorem moved_bodyOf {i : Instr} {s : State} (hr : s.resetAfter = none) (hc : checksIdle i = true ∨ i = .busyWait) :
    Moved s (bodyOf i s).state := by
  rcases hc with hc | rfl
  · cases hi : s.strobesIdle
    · rw [bodyOf_notIdle hc hi]; exact moved_refl s
    · exact moved_of_smooth (smooth_bodyOf hr i hc hi)
  · exact moved_of_smooth (smooth_busyWaitBody hr)

theorem moved_awaitReady (op : BusyOp) {s : State} (hr : s.resetAfter = none) : Moved s (awaitReady op s).state := by
  rw [awaitReady, poll_eq _ _ hr, bind_ok]
  generalize s.env.pollAnswers s.lvl (s.env.knownReady s.lvl) = pa
  split
  · rw [emit_ok (by exact hr) rfl]
    refine ⟨s.ph, s.dir, s.dout, .gate .settle :: (pa.1.map Event.sampRB).reverse, pa.2, ?_⟩
    simp [Run.state, record, applyEvent, hr]
  · exact ⟨_, _, _, _, _, rfl⟩

/-- The rest of a waiting operation moves only what it may (R182). -/
theorem moved_resume {op : BusyOp} {s : State} (hr : s.resetAfter = none)
    (hi : op ≠ .busyWait → s.strobesIdle = true) : Moved s ((awaitReady op s).andThen (afterBusy op)).state := by
  have hm := moved_awaitReady op hr
  cases ha : awaitReady op s with
  | ok a u =>
    rw [ha] at hm
    exact moved_trans hm (moved_of_smooth (hang := none) (smooth_afterBusy ((moved_resetAfter hm).trans hr) op
      fun hop => (moved_strobesIdle hm).trans (hi hop)))
  | stop w u => rw [ha] at hm; exact hm

theorem checksIdle_of_composite {i : Instr} (h : composite i = true) : checksIdle i = true := by
  cases i <;> first | rfl | cases h

/-- The two spellings of the NAND rows' bytes agree (R107). -/
theorem commandOf_eq_nandByte (i : Instr) : commandOf i = nandByte i := by cases i <;> rfl

theorem port_of_checksIdle {i : Instr} (h : checksIdle i = true) : i.port = .host := by
  cases i <;> first | rfl | cases h

/-- With no reset announced, a run that goes on leaves the levels that its body left. -/
theorem lvl_finish {r : Run Reply} {t : State} {lv : Levels} (hr : r.state.resetAfter = none)
    (hcut : ∀ u, r ≠ .stop .reset u) (hl : r.state.lvl = lv) (h : finish r = .next t) : t.lvl = lv := by
  rcases finish_next_noReset hr hcut h with ⟨a, u, rfl, rfl⟩ | ⟨op, u, rfl, rfl⟩ <;> exact hl

/-- Settles O53: a body from idle strobes, and the rest of a wait, only move what `Moved` allows. -/
theorem compositeOperationsKeepLevels : Obligations.CompositeOperationsKeepLevels := by
  refine ⟨fun i s t hi hr h => ?_, fun s t op hp hi hr h => ?_⟩
  · rcases exec_next_noReset hr h with ⟨hport, ⟨-, -, rfl⟩ | ⟨-, rfl⟩ | h⟩ | ⟨c, -, rfl | ⟨hidle, u, hu, rfl⟩⟩
    · rfl
    · rfl
    · have hc : checksIdle i = true ∨ i = .busyWait := by
        rcases hi with hi | hi | hi
        · exact .inl (checksIdle_of_composite hi)
        · exact .inr hi
        · cases i <;> first | exact absurd rfl hi | cases hport
      exact lvl_finish (bodyOf_resetAfter i hr) (fun _ => bodyOf_not_reset hr) (moved_lvl (moved_bodyOf hr hc)) h
    · rfl
    · rw [cmdPhase_idle c s hr hidle] at hu
      cases hu
      rfl
  · rcases step_cases h with ⟨h0 | h0, -⟩ | ⟨-, -, ⟨op', hp', h⟩ | ⟨_, _, hp', -⟩ | ⟨_, _, hp', -⟩ | ⟨_, _, hp', -⟩ |
      ⟨_, _, hp', -⟩ | ⟨hp', -⟩ | ⟨hp', -⟩⟩
    · rw [hr] at h0; cases h0
    · exact absurd hr h0.1
    · obtain rfl : op = op' := Option.some.inj (hp.symm.trans hp')
      have hi' : op ≠ .busyWait → s.strobesIdle = true := fun hop => hi.resolve_left hop
      have hlvl := moved_lvl (moved_resume (s := { s with pending := none }) hr hi')
      exact lvl_finish (kept_resume kept_noReset op { s with pending := none } hr) (fun _ => resume_not_reset hr) hlvl h
    all_goals rw [hp] at hp'; cases hp'

end Sys2Proof.Proofs

/-! What each host operation can answer: its results, its faults and its wait, by the tables of R304 and R105. -/

namespace Sys2Proof.Proofs

open Sys2Proof.Machine Sys2Proof.Spec

/-! ### The tables -/

theorem resultBytes_eq (i : Instr) : resultBytes i = answerBytes i := by cases i <;> rfl

theorem mayFail_eq (i : Instr) : mayFail i = readsStatus i := by cases i <;> rfl

theorem mayHang_iff (i : Instr) : mayHang i = true ↔ hangOf i ≠ none := by cases i <;> simp [mayHang, hangOf]

/-! ### How a body can end -/

/-- The ends that the tables of R304 and R105 allow for an operation: a result code with a payload of the operation's
length, a fault of its column, or its own busy wait; and the reset input. -/
def Permitted (i : Instr) (r : Run Reply) : Prop :=
  match r with
  | .ok a _ => a.2.length = answerBytes i ∧ (a.1 = .ok ∨ a.1 = .statusError ∧ readsStatus i = true)
  | .stop (.fault f) _ => f ∈ faultsOf i
  | .stop .reset _ => True
  | .stop (.waiting op) t => hangOf i = some op ∧ t.ph = .busyWait

theorem permitted_cutOf {i : Instr} {r r0 : Run Reply} (hcut : CutOf r r0) (h : Permitted i r0) : Permitted i r := by
  unfold CutOf at hcut
  split at hcut
  case h_1 => rw [hcut] at h; exact h
  case h_2 => trivial
  case h_3 w t _ =>
    rw [hcut] at h
    cases w <;> exact h

theorem permitted_smooth {i : Instr} {s : State} {r : Run Reply}
    (h : Smooth s (hangOf i) (Answers (answerBytes i) (readsStatus i)) r) : Permitted i r := by
  rcases r with ⟨a, t⟩ | ⟨f | _ | op, t⟩
  · exact h.2.2
  · exact h.elim
  · exact trivial
  · exact h.2

/-- An operation of one event ends with OK, or stops with the hazard of its event. -/
theorem permitted_eventOperation {i : Instr} {e : Event} {s : State} (hl : answerBytes i = 0)
    (hz : ∀ f, hazard e s = some f → f ∈ faultsOf i) : Permitted i (eventOperation e s) := by
  unfold eventOperation emit
  split
  · trivial
  · split
    · exact hz _ ‹_›
    · exact ⟨hl.symm, .inl rfl⟩

theorem hazard_ctl_mem {l : Line} {b : Bool} {s : State} {f : Fault} (h : hazard (.ctl l b) s = some f) :
    f ∈ faultsOf (.ctlSet l b) := by
  rw [hazard_eq_checksInOrder] at h
  split_ifs at h <;> cases h <;> simp [faultsOf]

/-- A raw primitive, a delay or a session operation (R130 to R134, R156, R157, R240, R242). -/
theorem permitted_raw {i : Instr} {s : State} (hc : checksIdle i = false) (hb : i ≠ .busyWait) :
    Permitted i (bodyOf i s) := by
  cases i
  case sessionInit =>
    refine permitted_cutOf (cutOf_bodyOf .sessionInit s) ?_
    rw [bodyOf, sessionInitBody, emitAll_sessionInit (by rfl)]
    exact ⟨rfl, .inl rfl⟩
  case busDir d =>
    refine permitted_eventOperation rfl fun f hf => ?_
    cases d
    · cases hf
    · simp only [hazard] at hf
      split at hf <;> cases hf
      exact List.mem_singleton.mpr rfl
  case busWrite v =>
    rw [bodyOf, busWriteBody]
    split
    · exact permitted_eventOperation rfl fun f hf => nomatch hf
    · exact List.mem_singleton.mpr rfl
  case busRead =>
    rw [bodyOf, busReadBody, sampleBus]
    split
    · split
      · trivial
      · exact ⟨rfl, .inl rfl⟩
    · exact List.mem_singleton.mpr rfl
  case ctlSet l b => exact permitted_eventOperation rfl fun f hf => hazard_ctl_mem hf
  case rbRead =>
    rw [bodyOf, rbReadBody, sampleReady]
    split
    · trivial
    · exact ⟨rfl, .inl rfl⟩
  case delayNs | shortPause => exact permitted_eventOperation rfl fun f hf => nomatch hf
  case busyWait => exact absurd rfl hb
  case cmdCycle | addrCycle | dataOut | dataIn | readId | readPage | writePage | eraseBlock | readStatus =>
    exact absurd hc (by simp [checksIdle])
  all_goals exact ⟨rfl, .inl rfl⟩

theorem strobeNotIdle_mem {i : Instr} (hc : checksIdle i = true) : Fault.strobeNotIdle ∈ faultsOf i := by
  cases i <;> first | exact List.mem_singleton.mpr rfl | cases hc

/-- Every body ends as the tables allow, from any state. -/
theorem permitted_bodyOf (i : Instr) (s : State) : Permitted i (bodyOf i s) := by
  refine permitted_cutOf (cutOf_bodyOf i s) ?_
  cases hc : checksIdle i
  case true =>
    cases hi : s.quiet.strobesIdle
    · rw [bodyOf_notIdle hc hi]; exact strobeNotIdle_mem hc
    · exact permitted_smooth (smooth_bodyOf rfl i hc hi)
  case false =>
    by_cases hb : i = .busyWait
    · subst hb; exact permitted_smooth (smooth_busyWaitBody rfl)
    · exact permitted_raw hc hb

/-! ### What the frame makes of it -/

/-- Settles O7: the checks of R301 come first; then the body's end, permitted by the tables, is the outcome. -/
theorem resultsOfEachOperation : Obligations.ResultsOfEachOperation := by
  intro i s hp hf hr
  obtain ⟨-, -, -, hfr, hpend, -, -⟩ := kept_bodyOf kept_rest (fun _ _ => by simp) i s
  have hres := bodyOf_resetAfter i hr
  have hper := permitted_bodyOf i s
  rw [exec_host hp hf, operation, if_neg (by rw [hr]; nofun)]
  split_ifs with ha ho
  · rcases hb : bodyOf i s with ⟨a, u⟩ | ⟨f | _ | op, u⟩ <;> rw [hb] at hfr hpend hres hper
    · rw [finish, deliver_none (s := u) hres]
      refine .inl ⟨a.1, a.2, by rw [answer_frames]; exact congrArg (· ++ _) hfr, hpend, ?_⟩
      exact hper.2.imp_right fun h => .inr (.inr ⟨h.1, by rw [mayFail_eq]; exact h.2⟩)
    · rw [finish, raiseFault_none (s := u) hres]
      exact hper
    · exact absurd hb (bodyOf_not_reset hr)
    · exact .inr ⟨hfr, nofun, hper.2, (mayHang_iff i).mpr (by rw [hper.1]; nofun)⟩
  · rw [reject_noReset _ hr]
    exact .inl ⟨_, _, rfl, rfl, .inr (.inr (.inl ⟨rfl, eq_false_of_ne_true ho⟩))⟩
  · rw [reject_noReset _ hr]
    refine .inl ⟨_, _, rfl, rfl, .inr (.inl ⟨rfl, ?_⟩)⟩
    rintro rfl
    exact ha (by simp [sessionAdmits])

/-- A state whose frames are those of before with one more is no reset of it. -/
theorem frames_applyReset_ne {s u : State} {f : Frame} (hfr : u.frames = s.frames) :
    u.applyReset.frames ≠ s.frames ++ [f] := by
  rw [applyReset_frames, hfr]
  split <;> intro h <;> simpa using congrArg List.length h

/-- Settles O8: the frame is a rejection's, with no payload, or the body's answer, whose length is permitted. -/
theorem resultPayloadLengths : Obligations.ResultPayloadLengths := by
  intro i s t f hp h hf
  obtain ⟨-, -, -, hfr, -⟩ := kept_bodyOf kept_rest (fun _ _ => by simp) i s
  have hper := permitted_bodyOf i s
  have hop : operation i (bodyOf i) s = .next t := by
    rcases exec_cases i s with ⟨-, -, h1⟩ | ⟨-, -, h1 | h1⟩ | ⟨hbus, -⟩
    · rw [← h1]; exact h
    · rw [← h1]; exact h
    · rw [h1] at h; cases h
    · rw [hp] at hbus; cases hbus
  have hlast : ∀ {rc pl} {u : State}, u.frames = s.frames →
      (u.tick.answer rc pl).frames = s.frames ++ [f] → f = ⟨rc, pl⟩ := by
    intro rc pl u hu h
    rw [answer_frames, tick_frames, hu] at h
    exact (List.cons.inj (List.append_cancel_left h)).1.symm
  rcases operation_next hop with ⟨-, rfl⟩ | ⟨-, -, -, rfl⟩ | ⟨-, -, -, rfl⟩ | ⟨-, -, -, h⟩
  · exact absurd hf (frames_applyReset_ne rfl)
  · rw [hlast rfl hf]; rfl
  · rw [hlast rfl hf]; rfl
  · rcases finish_next h with ⟨a, u, hb, -, rfl⟩ | ⟨u, hb, rfl⟩ | ⟨f', u, hb, -, rfl⟩ | ⟨op, u, hb, rfl⟩
    · rw [hb] at hfr hper
      rw [hlast hfr hf, resultBytes_eq]
      obtain ⟨hl, hrc | ⟨hrc, -⟩⟩ := hper
      · rw [if_neg (by rw [hrc]; nofun)]; exact hl
      · rw [if_neg (by rw [hrc]; nofun)]; exact hl
    · have hu : u.frames = s.frames := by
        rcases hb with ⟨a, hb, -⟩ | hb <;> rw [hb] at hfr <;> exact hfr
      exact absurd hf (frames_applyReset_ne hu)
    · rw [hb] at hfr
      exact absurd (hf.symm.trans hfr) (by simp)
    · rw [hb] at hfr
      exact absurd (hf.symm.trans hfr) (by simp)

end Sys2Proof.Proofs

/-! The reset input and the wait: what a due reset does, what an operation that waits for the chip does to everything
else, and that it may wait for ever. -/

namespace Sys2Proof.Proofs

open Sys2Proof.Machine Sys2Proof.Spec

/-! ### Reset -/

theorem running_iff (d : Driver) :
    d.running = true ↔ d.ctl ≠ .off ∧ d.ctl ≠ .invoked ∧ ∀ b, d.ctl ≠ .finished b := by
  unfold Driver.running
  split <;> simp_all

/-- A machine whose lanes are UNDEF and whose outputs are disabled drives no physical line (R33 to R38). -/
theorem drives_none {s : State} (hd : s.dir = .undef) (ho : s.oe = false) (n : Nat) : s.drives n = none := by
  unfold State.drives
  split
  · rw [hd]
  · split
    · rw [ho]; rfl
    · rfl

/-- The host that waited for a result restarts; every other host stays (R361). -/
theorem afterReset_of_running {d : Driver} (h : d.running = true) : d.afterReset = { d with ctl := .invoked } := by
  rw [Driver.afterReset, if_pos h]

theorem afterReset_of_not_running {d : Driver} (h : d.running = false) : d.afterReset = d := by
  rw [Driver.afterReset, h]; rfl

/-- Settles O38: the reset state field by field, and `applyReset` by its own lemmas. -/
theorem resetPutsEveryFieldToItsValue : Obligations.ResetPutsEveryFieldToItsValue := by
  refine ⟨rfl, rfl, rfl, rfl, fun l => by cases l <;> rfl, rfl,
    fun s => ⟨rfl, rfl, rfl, rfl, fun l => by cases l <;> rfl,
    rfl, drives_none rfl rfl, rfl, rfl, rfl, rfl, fun h => ?_, fun h1 h2 => ?_, fun h1 h2 h3 => ?_⟩⟩
  · have hr : s.driver.running = false := by
      refine eq_false_of_ne_true fun hrun => ?_
      obtain ⟨hoff, hinv, hfin⟩ := (running_iff _).mp hrun
      rcases h with h | h | ⟨b, h⟩
      · exact hoff h
      · exact hinv h
      · exact hfin b h
    exact ⟨afterReset_of_not_running hr, by rw [applyReset_request, hr]; rfl, by rw [applyReset_frames, hr]; rfl⟩
  · rw [applyReset_driver]
    by_cases hinv : s.driver.ctl = .invoked
    · have hr : s.driver.running = false := by rw [Driver.running, hinv]
      rw [afterReset_of_not_running hr, ← hinv]
    · exact afterReset_of_running ((running_iff _).mpr ⟨h1, hinv, h2⟩)
  · have hr := (running_iff s.driver).mpr ⟨h1, h2, h3⟩
    exact ⟨by rw [applyReset_request, if_pos hr], by rw [applyReset_frames, if_pos hr]⟩

/-- Settles O39: the reset is the first check of a step, of every operation and of every command byte, and the only
way on for a stopped run. -/
theorem resetHasPriority : Obligations.ResetHasPriority := by
  refine fun s => ⟨fun h0 => by rw [step, if_pos h0], fun i hf h0 => ?_, fun f hf => ⟨fun n hn => ?_, fun hn => ?_⟩⟩
  · rcases exec_cases i s with ⟨-, -, h⟩ | ⟨hf', -⟩ | ⟨-, c, -, h⟩
    · rw [h, operation, if_pos h0]
    · rw [hf] at hf'; cases hf'
    · rw [h, busCommand, if_pos h0]
  · by_cases h0 : s.resetAfter = some 0
    · rw [step, if_pos h0]
    · simp [step, hf, stuckStep, hn]
  · simp [step, hf, stuckStep, hn]

/-! ### Waiting -/

/-- A step of a waiting operation goes on with it (R75). -/
theorem step_pending {s : State} {op : BusyOp} (h0 : s.resetAfter ≠ some 0) (hf : s.fault = none)
    (hp : s.pending = some op) : step s = resumeBusy op { s with pending := none } := by
  simp [step, h0, hf, hp]

/-- While the chip holds the line, a step of a waiting operation is one busy sample (R180). -/
theorem step_held {s : State} {op : BusyOp} (hr : s.resetAfter = none) (hf : s.fault = none)
    (hp : s.pending = some op) (hh : s.env.heldBusy = true) :
    step s = .next { s with trace := .sampRB false :: s.trace } := by
  rw [step_pending (by rw [hr]; nofun) hf hp, resumeBusy,
    awaitReady_held op (s := { s with pending := none }) hr hh, andThen_stop, finish, ← hp]

/-- A run of a machine goes on from the state that its first step leaves. -/
theorem run_of_step {M : Host.Core} {s s' : M.State} (h : M.step s = .next s') (n : Nat) :
    M.run (n + 1) s = M.run n s' := by
  rw [Host.Core.run, h]

/-- Settles O35, by induction on the number of steps: each leaves the state as it was but for one more sample. -/
theorem busyWaitHasNoTimeout : Obligations.BusyWaitHasNoTimeout := by
  intro s op n hp hf hr hh
  induction n generalizing s with
  | zero => rfl
  | succ n ih =>
    refine (run_of_step (M := Sys2Proof.core) (step_held hr hf hp hh) n).trans
      ((ih { s with trace := .sampRB false :: s.trace } hp hf hr hh).trans ?_)
    simp [List.replicate_succ']

/-- Settles O37: the rest of a waiting operation touches neither port nor the host (`kept_rest`), and only its frame or
a reset follows it. -/
theorem waitingOperationIsExclusive : Obligations.WaitingOperationIsExclusive := by
  intro s t op hp h
  have hreset : ∀ {u : State}, u.busCmd = s.busCmd → u.frames = s.frames → s.resetAfter ≠ none →
      s.resetAfter ≠ none ∧ u.applyReset.sst = .uninit ∧ u.applyReset.pending = none ∧ u.applyReset.busCmd = s.busCmd ∧
        (u.applyReset.frames = s.frames ∨ u.applyReset.frames = []) := fun hb hfr hr => by
    refine ⟨hr, rfl, rfl, hb, ?_⟩
    rw [applyReset_frames, hfr]
    split
    · exact .inr rfl
    · exact .inl rfl
  rcases step_cases h with ⟨h0, rfl⟩ | ⟨-, -, ⟨op', hp', h⟩ | ⟨_, _, hp', -⟩ | ⟨_, _, hp', -⟩ | ⟨_, _, hp', -⟩ |
      ⟨_, _, hp', -⟩ | ⟨hp', -⟩ | ⟨hp', -⟩⟩
  · refine .inr (hreset rfl rfl ?_)
    rcases h0 with h0 | h0
    · rw [h0]; nofun
    · exact h0.1
  · obtain ⟨hq, hb, hd, hfr, hpend, -, -⟩ := kept_resume kept_rest op' { s with pending := none }
    have hann := kept_resume kept_noReset op' { s with pending := none }
    rcases finish_next h with ⟨a, u, hu, -, rfl⟩ | ⟨u, hu, rfl⟩ | ⟨f, u, hu, -, rfl⟩ | ⟨op'', u, hu, rfl⟩
    · rw [hu] at hq hb hd hfr hpend
      exact .inl ⟨hq, hb, hd, .inr ⟨_, congrArg (· ++ _) hfr, hpend⟩⟩
    · refine .inr ?_
      rcases hu with ⟨a, hu, h0⟩ | hu <;> rw [hu] at hb hfr hann
      · refine hreset hb hfr fun hr => ?_
        rw [show u.resetAfter = none from hann hr] at h0
        cases h0
      · exact hreset hb hfr fun hr => resume_not_reset (s := { s with pending := none }) hr hu
    · rw [hu] at hq hb hd hfr
      exact .inl ⟨hq, hb, hd, .inl hfr⟩
    · rw [hu] at hq hb hd hfr
      exact .inl ⟨hq, hb, hd, .inl hfr⟩
  all_goals rw [hp] at hp'; cases hp'

/-! ### What a step runs -/

section
variable {s : State} (hf : fetches s)
include hf

theorem step_eq_busPort (hb : s.busCmd ≠ []) : step s = busPortStep s := by
  obtain ⟨h0, hfault, hp⟩ := hf
  simp [step, h0, hfault, hp, hb]

theorem step_eq_hostPort (hb : s.busCmd = []) (hq : s.request ≠ []) : step s = hostPortStep s := by
  obtain ⟨h0, hfault, hp⟩ := hf
  simp [step, h0, hfault, hp, hb, hq]

theorem step_eq_driverStep (hb : s.busCmd = []) (hq : s.request = []) : step s = driverStep s := by
  obtain ⟨h0, hfault, hp⟩ := hf
  simp [step, h0, hfault, hp, hb, hq]

end

/-- Settles O4: the bus port is served first, and each port hands on what its bytes decode to. -/
theorem stepRunsDecodedInstruction : Obligations.StepRunsDecodedInstruction := by
  intro s i rest hf
  refine ⟨fun hd => ?_, fun hb hd => ?_⟩
  · have hne : s.busCmd ≠ [] := by
      intro hb
      rw [hb] at hd
      cases hd
    rw [step_eq_busPort hf hne, busPortStep, hd]
    rfl
  · have hne : s.request ≠ [] := by
      intro hq
      rw [hq] at hd
      cases hd
    rw [step_eq_hostPort hf hb hne, hostPortStep, hd]
    rfl

/-! ### Strobes that are not idle -/

/-- The operands of a composite operation are legal, so that its entry check comes next (R301, R173). -/
theorem wellFormed_of_composite {i : Instr} (h : composite i = true) : i.wellFormed = true := by
  cases i
  case cmdCycle | readId | readStatus | readPage => rfl
  case addrCycle a =>
    have hl : a.length ≤ 5 := of_decide_eq_true h
    exact Bool.and_eq_true_iff.mpr ⟨decide_eq_true (by omega), h⟩
  case dataOut buf =>
    have hl : buf.length ≤ 2112 := of_decide_eq_true h
    exact Bool.and_eq_true_iff.mpr ⟨decide_eq_true (by omega), h⟩
  case dataIn => exact h
  case writePage => exact Bool.and_eq_true_iff.mpr ⟨h, rfl⟩
  case eraseBlock => exact h
  all_goals cases h

/-- A composite operation or a command byte that finds the strobes not idle raises its fault at once (R173). -/
theorem exec_notIdle {i : Instr} {s : State} (hc : composite i = true ∨ nandByte i ≠ none) (hs : s.sst = .ready)
    (hi : s.strobesIdle = false) (h0 : s.resetAfter ≠ some 0) : exec i s = raiseFault .strobeNotIdle s := by
  rcases hc with hc | hc
  · have hck := checksIdle_of_composite hc
    obtain ⟨hf, ho⟩ := Bool.and_eq_true_iff.mp (wellFormed_of_composite hc)
    rw [exec_host (port_of_checksIdle hck) hf, operation, if_neg h0, if_pos (by simp [sessionAdmits, hs]), if_pos ho,
      bodyOf_notIdle hck hi, finish]
  · rw [← commandOf_eq_nandByte] at hc
    have hbus : ∀ c, busCommand c s = raiseFault .strobeNotIdle s := fun c => by
      rw [busCommand, if_neg h0, if_pos hs, requireIdle_fault hi, andThen_stop, finishBus]
    cases i <;> first | exact hbus _ | exact absurd rfl hc

/-- Settles O27: the fault ends the run, or is kept until the reset that is announced. -/
theorem strobesNotIdleFaults : Obligations.StrobesNotIdleFaults := by
  intro i s hc hs hi
  refine ⟨fun hr => ?_, fun n hr => ?_⟩
  · rw [exec_notIdle hc hs hi (by rw [hr]; nofun), raiseFault_none hr]
  · rw [exec_notIdle hc hs hi (by rw [hr]; nofun), raiseFault, hr]

end Sys2Proof.Proofs

/-! The cycles of the control-line sequencer from idle strobes: each operation's events, what it leaves on the lanes, and
what of the chip's array it can have changed. -/

namespace Sys2Proof.Proofs

open Sys2Proof.Machine Sys2Proof.Spec

/-! ### The spec's cycles are the machine's -/

theorem addrEvents_eq {a : List Byte} (h : a ≠ []) : addrEvents a = A a := if_neg h

theorem doutEvents_eq {buf : List Byte} (h : buf ≠ []) : doutEvents buf = W buf := if_neg h

/-! ### What a command byte can store to -/

/-- A program confirm changes the array in the row that the address bytes name only (R82). -/
theorem chipProgramConfirm_read {ch : Chip} {a : Nat}
    (h : ∀ c1 c2 r1 r2 r3, ch.mode = .prog → ch.abuf = [c1, c2, r1, r2, r3] →
      ¬(rowOfBytes r1 r2 r3 * 2112 ≤ a ∧ a < rowOfBytes r1 r2 r3 * 2112 + 2112)) :
    (chipProgramConfirm ch).arr.read a = ch.arr.read a := by
  unfold chipProgramConfirm
  split
  next c1 c2 r1 r2 r3 hm ha =>
    split
    · refine read_program_outside _ _ _ ?_
      have hout := h _ _ _ _ _ hm ha
      have hlen : (ch.preg.take pageSize).length ≤ 2112 := List.length_take_le _ _
      simp only [byteAddress, pageSize] at hlen ⊢
      omega
    · rfl
  next => rfl

theorem byteAddress_zero (row : Nat) : byteAddress row 0 = row * 2112 := by rw [byteAddress, pageSize, Nat.add_zero]

/-- An erase confirm changes the array in the block of the row that the address bytes name only (R82). -/
theorem chipEraseConfirm_read {ch : Chip} {a : Nat}
    (h : ∀ r1 r2 r3, ch.mode = .eraseSetup → ch.abuf = [r1, r2, r3] →
      ¬(rowOfBytes r1 r2 r3 / 64 * 64 * 2112 ≤ a ∧ a < (rowOfBytes r1 r2 r3 / 64 * 64 + 64) * 2112)) :
    (chipEraseConfirm ch).arr.read a = ch.arr.read a := by
  unfold chipEraseConfirm
  split
  next r1 r2 r3 hm ha =>
    split
    · have hend : blockEnd ch.numPages (rowOfBytes r1 r2 r3 / 64) ≤ rowOfBytes r1 r2 r3 / 64 * 64 + 64 :=
        (min_le_left _ _).trans_eq (Nat.succ_mul _ _)
      rw [read_eraseRange, if_neg]
      rintro ⟨hlo, hhi⟩
      rw [byteAddress_zero] at hlo hhi
      exact h _ _ _ hm ha ⟨hlo, lt_of_lt_of_le hhi (Nat.mul_le_mul_right 2112 hend)⟩
    · rfl
  next => rfl

/-- A command byte stores to no address but those that `storedBy` names. -/
theorem chipCommand_read {c : Byte} {s : State} {a : Nat} (hs : s.env.selected s.lvl = true) (h : ¬storedBy c s a) :
    (chipCommand c s.env.chip).arr.read a = s.env.chip.arr.read a := by
  by_cases h1 : c = 0x10#8
  · subst h1
    exact chipProgramConfirm_read fun c1 c2 r1 r2 r3 hm ha hin =>
      h ⟨hs, .inl ⟨rfl, hm, c1, c2, r1, r2, r3, ha, hin⟩⟩
  · by_cases h2 : c = 0xD0#8
    · subst h2
      exact chipEraseConfirm_read fun r1 r2 r3 hm ha hin => h ⟨hs, .inr ⟨rfl, hm, r1, r2, r3, ha, hin⟩⟩
    · rw [chipCommand_arr c _ h1 h2]

theorem sameBut_latched (c : Byte) (s : State) : sameBut c s (s.env.latched s.lvl (chipCommand c)) := by
  intro a ha
  cases hs : s.env.selected s.lvl
  · rw [latched_unselected hs]
  · rw [latched_selected hs]; exact chipCommand_read hs ha

/-- A byte that is no confirm changes nothing of the array. -/
theorem latched_command_arr {c : Byte} (h1 : c ≠ 0x10#8) (h2 : c ≠ 0xD0#8) (lvl : Levels) (env : Env) :
    (env.latched lvl (chipCommand c)).chip.arr = env.chip.arr :=
  latched_arr (chipCommand_arr c _ h1 h2)

theorem sameArray_of_arr {s : State} {env : Env} (h : env.chip.arr = s.env.chip.arr) : sameArray s env := fun a => by
  rw [h]

/-! ### Operations of one phase -/

/-- A sequencer operation whose phase ended answers OK with what the phase read (R173, R181). -/
theorem finish_sequenced {phase : State → Run (List Byte)} {s u : State} {bytes : List Byte}
    (hi : s.strobesIdle = true) (hu : phase s = .ok bytes u) (hr : u.resetAfter = none) :
    finish (sequenced phase s) = .next { u with ph := .idle, frames := u.frames ++ [⟨.ok, bytes⟩] } := by
  rw [sequenced, requireIdle_ok hi, andThen_ok, hu, bind_ok, finish_complete _ _ hr]

theorem silent_ok {phase : State → Run Unit} {s u : State} (h : phase s = .ok () u) : silent phase s = .ok [] u := by
  rw [silent, h, andThen_ok]

/-- A well-formed host operation runs its body in a settled state (R301). -/
theorem exec_settled {i : Instr} {s : State} (hp : i.port = .host) (hw : i.wellFormed = true) (h : s.settled) :
    exec i s = finish (bodyOf i s) := by
  obtain ⟨hf, ho⟩ := Bool.and_eq_true_iff.mp hw
  rw [exec_host hp hf, operation_ready h.1 ho h.2.2.2]

/-- Settles O22: `cmdPhase_idle` is the command cycle. -/
theorem cmdCycleSendsCommand : Obligations.CmdCycleSendsCommand := by
  intro c s hs
  obtain ⟨-, hi, -, hr⟩ := id hs
  refine ⟨_, sameBut_latched c s, fun ha => latched_external ha _ _, ?_⟩
  rw [exec_settled rfl rfl hs, bodyOf, finish_sequenced hi (silent_ok (cmdPhase_idle c s hr hi)) (by exact hr)]
  rfl

/-- Settles O23: `addrPhase_idle` is the address cycle; its bytes are latched with ALE high, so they are no command. -/
theorem addrCycleSendsAddress : Obligations.AddrCycleSendsAddress := by
  intro a s hs hl
  obtain ⟨-, hi, -, hr⟩ := id hs
  have hw : (Instr.addrCycle a).wellFormed = true := wellFormed_of_composite (decide_eq_true hl)
  refine ⟨fun ha => ?_, fun ha => ⟨s.env.latchAll { s.lvl with ale := .high } a,
    sameArray_of_arr (latchAll_arr (by simp) _ _),
    fun hext => latchAll_external _ _ hext, ?_⟩⟩
  · have hskip : addrPhase a s = .ok () s := if_pos ha
    rw [exec_settled rfl hw hs, bodyOf, finish_sequenced hi (silent_ok hskip) hr]
  · rw [exec_settled rfl hw hs, bodyOf, finish_sequenced hi (silent_ok (addrPhase_idle a ha s hr hi)) (by exact hr),
      latchAfter_getLast _ _ ha, addrEvents_eq ha]
    rfl

/-- Settles O24: `doutPhase_idle` is the data cycle; its bytes are latched with CLE low, so they are no command. -/
theorem dataOutWritesBytes : Obligations.DataOutWritesBytes := by
  intro buf s hs hl
  obtain ⟨-, hi, -, hr⟩ := id hs
  obtain ⟨-, -, hcle, -⟩ := (strobesIdle_iff _).mp hi
  have hw : (Instr.dataOut buf).wellFormed = true := wellFormed_of_composite (decide_eq_true hl)
  refine ⟨fun hb => ?_, fun hb => ⟨s.env.latchAll s.lvl buf, sameArray_of_arr (latchAll_arr (by simp [hcle]) _ _),
    fun hext => latchAll_external _ _ hext, ?_⟩⟩
  · have hskip : doutPhase buf s = .ok () s := if_pos hb
    rw [exec_settled rfl hw hs, bodyOf, finish_sequenced hi (silent_ok hskip) hr]
  · rw [exec_settled rfl hw hs, bodyOf, finish_sequenced hi (silent_ok (doutPhase_idle buf hb s hr hi)) (by exact hr),
      latchAfter_getLast _ _ hb, doutEvents_eq hb]
    rfl

/-- Read cycles of an external chip answer with the supplied bytes (R16, R177). -/
theorem suppliedBytes_readCycles {s : State} {lvl : Levels} {n : Nat} :
    suppliedBytes s (s.env.readCycles lvl n).1 (s.env.readCycles lvl n).2 n := by
  intro ha hn
  rw [readCycles_external lvl n ha hn]
  exact ⟨rfl, rfl⟩

/-- Settles O25: `dinPhase_idle` is the data-in phase, and the answer is its samples. -/
theorem dataInReadsBytes : Obligations.DataInReadsBytes := by
  intro x s hs hl
  obtain ⟨-, hi, -, hr⟩ := id hs
  have hw : (Instr.dataIn x).wellFormed = true := wellFormed_of_composite (decide_eq_true hl)
  refine ⟨fun hx => ?_, fun hx => ⟨_, _, readCycles_length s.lvl x.toNat s.env, sameArray_of_arr (readCycles_arr _ _ _),
    suppliedBytes_readCycles, ?_⟩⟩
  · subst hx
    have hskip : dinPhase (0#24).toNat s = .ok [] s := rfl
    rw [exec_settled rfl hw hs, bodyOf, finish_sequenced hi hskip hr]
  · have hn : x.toNat ≠ 0 := fun h => hx (BitVec.eq_of_toNat_eq h)
    rw [exec_settled rfl hw hs, bodyOf, finish_sequenced hi (dinPhase_idle _ hn s hr hi) (by exact hr)]
    rfl

/-! ### The bus port -/

/-- A command byte of the bus port from idle strobes is one command cycle with no frame (R106, R174). -/
theorem busCommand_idle (c : Byte) {s : State} (hs : s.sst = .ready) (hi : s.strobesIdle = true)
    (hr : s.resetAfter = none) :
    busCommand c s = .next { s with
      ph := .idle, dir := .output, dout := .byte c, trace := (C c).reverse ++ s.trace
      env := s.env.latched s.lvl (chipCommand c) } := by
  rw [busCommand, if_neg (by rw [hr]; nofun), if_pos hs, requireIdle_ok hi, andThen_ok, cmdPhase_idle c s hr hi,
    andThen_ok]
  rfl

/-- Settles O41: each row is `busCommand` of its byte. -/
theorem nandCommandsAreCommandCycles : Obligations.NandCommandsAreCommandCycles := by
  intro i c s hs hc
  obtain ⟨hready, hi, -, hr⟩ := hs
  refine ⟨_, sameBut_latched c s, fun ha => latched_external ha _ _, ?_⟩
  rw [← busCommand_idle c hready hi hr]
  cases i <;> cases hc <;> rfl

/-- A byte that is none of the eight has no row (R107, R111). -/
theorem decodeNandByte_unnamed : ∀ c : Byte,
    c ∉ [0x90#8, 0x00#8, 0x30#8, 0x80#8, 0x10#8, 0x60#8, 0xD0#8, 0x70#8] → decodeNandByte c = none := by
  decide

/-- Settles O5: a byte that decodes to no row is handed to the same command cycle. -/
theorem unnamedCommandByteIsSent : Obligations.UnnamedCommandByteIsSent := by
  intro s c rest hs hf hb hc
  obtain ⟨hready, hi, hp, hr⟩ := hs
  have hdec : decode .bus s.busCmd = .error (.unnamedCommand c rest) := by
    have hnone := decodeNandByte_unnamed c hc
    rw [hb]
    simp only [decode, decodeBusCommand, hnone]
  have hstep : step s = busCommand c { s with busCmd := rest } := by
    have hne : s.busCmd ≠ [] := by rw [hb]; nofun
    rw [step_eq_busPort ⟨by rw [hr]; nofun, hf, hp⟩ hne, busPortStep, hdec]
    exact congrArg (busCommand c) (tick_none hr)
  have h1 : c ≠ 0x10#8 := by rintro rfl; exact hc (by decide)
  have h2 : c ≠ 0xD0#8 := by rintro rfl; exact hc (by decide)
  refine ⟨_, sameArray_of_arr (latched_command_arr h1 h2 s.lvl s.env), ?_⟩
  rw [hstep, busCommand_idle c (by exact hready) (by exact hi) (by exact hr)]

end Sys2Proof.Proofs

/-! The busy wait and the transactions where a ready sample comes: their events in order, what the wait takes from the
answers, and what the chip answers. -/

namespace Sys2Proof.Proofs

open Sys2Proof.Machine Sys2Proof.Spec

/-! ### The busy wait -/

theorem oracleCount_eq (s : State) : oracleCount s = s.env.busyCount s.lvl := by
  simp only [oracleCount, Env.busyCount, Env.selected, Bool.and_eq_true, decide_eq_true_eq]

theorem oracle_iff_selected (s : State) : oracle s ↔ s.env.selected s.lvl = true := by
  simp only [oracle, Env.selected, Bool.and_eq_true, decide_eq_true_eq]

/-- A wait of an external chip uses the supplied answers up to the first ready one (R16). -/
theorem waited_external {lvl : Levels} {env : Env} (h : env.chip.attached = false) :
    env.waited lvl = { env with rbDraws := env.rbDraws.drop (env.rbDraws.idxOf true + 1) } := by
  rw [Env.waited, busyCount_unselected (selected_external h lvl)]

theorem busySamples_external {lvl : Levels} {env : Env} (h : env.chip.attached = false) :
    env.busySamples lvl = env.rbDraws.idxOf true := by
  rw [Env.busySamples, busyCount_unselected (selected_external h lvl)]; rfl

/-- The events of a busy wait with n busy samples (R179). -/
theorem busy_succ_reverse (n : Nat) (tr : List Event) :
    .gate .settle :: .sampRB true :: (List.replicate n (Event.sampRB false) ++ .gate .settle :: tr) =
      (busy (n + 1)).reverse ++ tr := by
  simp [busy]

/-- A ready sample comes, in the terms of the answers: the oracle counts, or a supplied answer reads ready. -/
def ReadyCount (lvl : Levels) (env : Env) : Prop := (env.busyCount lvl).isSome = true ∨ true ∈ env.rbDraws

/-- A whole busy wait where a ready sample comes (R179). -/
theorem busyPhase_ready (op : BusyOp) {s : State} (hr : s.resetAfter = none) (hh : s.env.heldBusy = false)
    (hc : ReadyCount s.lvl s.env) :
    busyPhase op s = .ok () { s with
      ph := .busyWait, trace := (busy (s.env.busySamples s.lvl + 1)).reverse ++ s.trace
      env := s.env.waited s.lvl } := by
  rw [busyPhase_start op hr, awaitReady_ready op (by exact hr) (by exact hh) (by exact hc)]
  simp only [busy_succ_reverse]

theorem readyCount_of_readyComes {s : State} (h : readyComes s) : s.env.heldBusy = false ∧ ReadyCount s.lvl s.env := by
  refine ⟨h.1, h.2.imp_left fun ⟨ha, hc, hb⟩ => ?_⟩
  have hs : s.env.selected s.lvl = true := (oracle_iff_selected s).mp ⟨ha, hc⟩
  rw [Env.busyCount, if_pos hs]
  exact Option.isSome_iff_ne_none.mpr hb

/-- Settles O26: `busyPhase_ready` is the whole operation. -/
theorem busyWaitEndsAtReady : Obligations.BusyWaitEndsAtReady := by
  intro s hs hr hready
  obtain ⟨hh, hc⟩ := readyCount_of_readyComes hready
  refine ⟨s.env.busySamples s.lvl + 1, s.env.waited s.lvl, Nat.succ_pos _, ?_, sameArray_of_arr (waited_arr _ _),
    fun ha _ => ?_, fun hcount => ?_, ?_⟩
  · rw [firstReady, oracleCount_eq]; rfl
  · rw [busySamples_external ha, waited_external ha]; exact ⟨rfl, rfl, rfl⟩
  · rw [oracleCount_eq] at hcount
    obtain ⟨n, hn⟩ := Option.ne_none_iff_exists'.mp hcount
    rw [Env.waited, hn]
  · rw [exec_host rfl rfl, operation_ready hs rfl hr, bodyOf, busyWaitBody, busyPhase_ready _ hr hh hc, andThen_ok,
      finish_complete _ _ (by exact hr)]
    rfl

/-! ### The status read -/

/-- The byte that a status read answers, and the answers after it (R202). -/
def statusRead (lvl : Levels) (env : Env) : Byte × Env := (env.latched lvl (chipCommand 0x70#8)).readCycle lvl

theorem statusRead_arr (lvl : Levels) (env : Env) : (statusRead lvl env).2.chip.arr = env.chip.arr :=
  (readCycles_arr lvl 1 _).trans (latched_command_arr (by decide) (by decide) lvl env)

/-- A status read of an external chip takes one supplied byte (R16). -/
theorem statusRead_external {lvl : Levels} {env : Env} (ha : env.chip.attached = false)
    (hn : 1 ≤ env.busDraws.length) :
    [(statusRead lvl env).1] = env.busDraws.take 1 ∧
      (statusRead lvl env).2 = { env with busDraws := env.busDraws.drop 1 } := by
  have h := readCycles_external lvl 1 ha hn
  rw [statusRead, latched_external ha]
  exact ⟨congrArg Prod.fst h, congrArg Prod.snd h⟩

/-- `StatusTxn()` from idle strobes, in the spec's cycles (R202). -/
theorem statusTxn_cycles {s : State} (hr : s.resetAfter = none) (hi : s.strobesIdle = true) :
    statusTxn s = .ok [(statusRead s.lvl s.env).1] { s with
      ph := .dataIn, dir := .input, dout := .byte 0x70#8
      trace := (C 0x70#8 ++ R [(statusRead s.lvl s.env).1]).reverse ++ s.trace
      env := (statusRead s.lvl s.env).2 } := statusTxn_idle s hr hi

/-- The end of an operation that reads the status: the byte selects the code (R222). -/
theorem finish_statusTxn {s : State} (hr : s.resetAfter = none) (hi : s.strobesIdle = true) :
    finish ((statusTxn s).bind fun b s => complete (resultOfStatusBytes b) s) = .next { s with
      ph := .idle, dir := .input, dout := .byte 0x70#8
      trace := (C 0x70#8 ++ R [(statusRead s.lvl s.env).1]).reverse ++ s.trace
      env := (statusRead s.lvl s.env).2
      frames := s.frames ++ [⟨codeOf (statusRead s.lvl s.env).1, [(statusRead s.lvl s.env).1]⟩] } := by
  rw [statusTxn_cycles hr hi, bind_ok, resultOfStatusBytes_single, finish_complete _ _ (by exact hr)]
  rfl

/-- Settles O29: the status read is the whole operation, answered as OK. -/
theorem readStatusReturnsByte : Obligations.ReadStatusReturnsByte := by
  intro s hs
  obtain ⟨-, hi, -, hr⟩ := id hs
  refine ⟨(statusRead s.lvl s.env).1, (statusRead s.lvl s.env).2, sameArray_of_arr (statusRead_arr _ _),
    fun ha hn => statusRead_external ha hn, fun ho => readCycle_status ((oracle_iff_selected s).mp ho), ?_⟩
  rw [exec_settled rfl rfl hs, bodyOf, finish_sequenced hi (statusTxn_cycles hr hi) (by exact hr)]
  rfl

/-! ### Read-ID -/

/-- The answers after READ_ID's command and address (R205). -/
def identified (lvl : Levels) (env : Env) : Env :=
  Env.latchAll { lvl with ale := .high } [0x00#8] (env.latched lvl (chipCommand 0x90#8))

theorem identified_arr (lvl : Levels) (env : Env) : (identified lvl env).chip.arr = env.chip.arr :=
  (latchAll_arr (by simp) _ _).trans (latched_command_arr (by decide) (by decide) lvl env)

theorem identified_external {lvl : Levels} {env : Env} (ha : env.chip.attached = false) : identified lvl env = env := by
  rw [identified, latched_external ha, latchAll_external _ _ ha]

/-- READ_ID in a settled state, with the bytes that its read cycles sample (R205). -/
theorem exec_readId {s : State} (hs : s.settled) :
    exec .readId s = .next (after s .input (.byte 0x00#8)
      (C 0x90#8 ++ A [0x00#8] ++ R ((identified s.lvl s.env).readCycles s.lvl 5).1)
      ((identified s.lvl s.env).readCycles s.lvl 5).2 ⟨.ok, ((identified s.lvl s.env).readCycles s.lvl 5).1⟩) := by
  obtain ⟨-, hi, -, hr⟩ := id hs
  rw [exec_settled rfl rfl hs, bodyOf, sequenced, requireIdle_ok hi, andThen_ok, cmdPhase_idle _ s hr hi, andThen_ok,
    addrPhase_idle addrId (by decide) _ (by exact hr) (by exact hi), andThen_ok,
    dinPhase_idle idLen (by decide) _ (by exact hr) (by exact hi), bind_ok, finish_complete _ _ (by exact hr)]
  simp only [← List.append_assoc, ← List.reverse_append]
  rfl

/-- Settles O28: `exec_readId` gives the trace, and the samples are the answer. -/
theorem readIdReadsFiveBytes : Obligations.ReadIdReadsFiveBytes := by
  intro s hs
  refine ⟨_, _, readCycles_length s.lvl 5 (identified s.lvl s.env),
    sameArray_of_arr ((readCycles_arr _ _ _).trans (identified_arr _ _)), fun ha hn => ?_, exec_readId hs⟩
  rw [identified_external ha]
  exact suppliedBytes_readCycles ha hn

end Sys2Proof.Proofs

/-! The transactions with a busy wait. Each is a list of cycles up to the wait, the wait, and a data phase or a status
read; what the wait counts and what the array holds follow from the oracle's answers at the wait. -/

namespace Sys2Proof.Proofs

open Sys2Proof.Machine Sys2Proof.Spec

/-! ### Address bytes (R63, R64) -/

theorem addrPage_eq (p : Arg24) : addrPage p = pageBytes p := rfl

/-- The three bytes of a 24-bit row are those of its value. -/
theorem rowBytes_toNat (x : Arg24) :
    rowBytes x.toNat = [x.extractLsb' 0 8, x.extractLsb' 8 8, x.extractLsb' 16 8] := by
  have hbyte : ∀ k, BitVec.ofNat 8 (x.toNat / 2 ^ k) = x.extractLsb' k 8 := fun k => by
    apply BitVec.eq_of_toNat_eq
    rw [BitVec.toNat_ofNat, BitVec.extractLsb'_toNat, Nat.shiftRight_eq_div_pow]
  rw [← hbyte 0, ← hbyte 8, ← hbyte 16, pow_zero, Nat.div_one]
  rfl

theorem addrRow_eq {b : Arg24} (h : b.toNat * 64 < 2 ^ 24) : addrRow b = rowBytes (b.toNat * 64) := by
  rw [← blockRow_toNat h, rowBytes_toNat]; rfl

/-- The row of three bytes, as the spec writes it with shifts (R63). -/
theorem row_of_bytes (x : Arg24) : x.toNat =
    (x.extractLsb' 0 8).toNat ||| (x.extractLsb' 8 8).toNat <<< 8 ||| (x.extractLsb' 16 8).toNat <<< 16 := by
  have hx := x.isLt
  have h0 := (x.extractLsb' 0 8).isLt
  have h1 := (x.extractLsb' 8 8).isLt
  have hlow : (x.extractLsb' 0 8).toNat ||| (x.extractLsb' 8 8).toNat <<< 8 =
      (x.extractLsb' 8 8).toNat * 2 ^ 8 + (x.extractLsb' 0 8).toNat := by
    rw [Nat.or_comm, shift_or _ _ _ h0]
  rw [hlow, Nat.or_comm, shift_or _ _ _ (by omega)]
  simp only [BitVec.extractLsb'_toNat, Nat.shiftRight_eq_div_pow]
  omega

/-- Settles O42: `row_of_bytes` on the page and on the block's row, which does not wrap. -/
theorem addressBytesCarryRow : Obligations.AddressBytesCarryRow := by
  refine ⟨fun p => ⟨_, _, _, rfl, row_of_bytes p⟩, fun b hb => ⟨_, _, _, rfl, ?_, ?_⟩, by decide⟩
  · rw [← blockRow_toNat hb]; exact row_of_bytes _
  · rw [BitVec.extractLsb'_toNat, blockRow_toNat hb, Nat.shiftRight_zero]
    omega

/-! ### What the wait counts -/

/-- With a row that the oracle has, a confirmed access sets its busy count; else it answers nothing for the line, and
the draws are as before (R82, R83, R73). -/
theorem firstReady_confirmed {s : State} {e : Env} {row n : Nat} (hrb : e.rbDraws = s.env.rbDraws)
    (hc : e.busyCount s.lvl = if s.env.selected s.lvl = true ∧ row < s.env.chip.numPages then some n else none) :
    firstReady s (confirmedCount row n s) (e.busySamples s.lvl + 1) := by
  have hcount : confirmedCount row n s = e.busyCount s.lvl := by
    rw [hc, confirmedCount]
    simp only [Env.selected, Bool.and_eq_true, decide_eq_true_eq, and_assoc]
  rw [firstReady, hcount, Env.busySamples, hrb]

theorem readyComesFor_iff {row : Nat} {s : State} : readyComesFor row s ↔ s.env.heldBusy = false ∧
    ((s.env.selected s.lvl = true ∧ row < s.env.chip.numPages) ∨ true ∈ s.env.rbDraws) := by
  simp only [readyComesFor, Env.selected, Bool.and_eq_true, decide_eq_true_eq, and_assoc]

/-! ### READ_PAGE -/

/-- The answers at the busy wait of READ_PAGE (R214). -/
def readWait (lvl : Levels) (p : Arg24) (env : Env) : Env := env.addressed lvl 0x00#8 (addrPage p) 0x30#8

/-- The answers at the busy wait of ERASE_BLOCK (R224). -/
def eraseWait (lvl : Levels) (b : Arg24) (env : Env) : Env := env.addressed lvl 0x60#8 (addrRow b) 0xD0#8

/-- The answers at the busy wait of WRITE_PAGE (R220). -/
def writeWait (lvl : Levels) (p : Arg24) (buf : List Byte) (env : Env) : Env :=
  env.programmed lvl 0x80#8 (addrPage p) buf 0x10#8

theorem readWait_arr (lvl : Levels) (p : Arg24) (env : Env) : (readWait lvl p env).chip.arr = env.chip.arr :=
  (latched_command_arr (by decide) (by decide) _ _).trans
    ((latchAll_arr (by simp) _ _).trans (latched_command_arr (by decide) (by decide) _ _))

theorem readWait_busyCount {lvl : Levels} (hi : lvl.strobesIdle = true) (p : Arg24) (env : Env) :
    (readWait lvl p env).busyCount lvl =
      if env.selected lvl = true ∧ p.toNat < env.chip.numPages then some env.chip.kRead else none := by
  cases hs : env.selected lvl
  · rw [readWait, addressed_unselected _ _ _ hs, busyCount_unselected hs, if_neg (by simp)]
  · by_cases hn : p.toNat < env.chip.numPages
    · rw [readWait, addressed_read hi hs hn, if_pos ⟨rfl, hn⟩]
      exact busyCount_known hs rfl
    · rw [readWait, addressed_read_absent hi hs hn, if_neg (fun h => hn h.2)]
      simp [Env.busyCount]

/-- READ_PAGE up to its busy wait (R214). -/
theorem exec_readPage {s : State} (hs : s.settled) (p : Arg24) :
    exec (.readPage p) s = finish ((busyPhase .readPage { s with
      ph := .command, dir := .output, dout := .byte 0x30#8
      trace := (C 0x00#8 ++ A (pageBytes p) ++ C 0x30#8).reverse ++ s.trace
      env := readWait s.lvl p s.env }).andThen (afterBusy .readPage)) := by
  obtain ⟨-, hi, -, hr⟩ := id hs
  have hne : addrPage p ≠ [] := List.cons_ne_nil _ _
  rw [exec_settled rfl rfl hs, bodyOf, readPageBody, requireIdle_ok hi, andThen_ok,
    addressed_run _ _ hne _ _ _ hr hi, addrEvents_eq hne]
  rfl

/-- A data-in phase that ends the operation, in the spec's cycles (R177). -/
theorem finish_dinPhase {n : Nat} (hn : n ≠ 0) {s : State} (hr : s.resetAfter = none) (hi : s.strobesIdle = true) :
    finish ((dinPhase n s).bind fun buf s => complete (.ok, buf) s) = .next { s with
      ph := .idle, dir := .input, trace := (R (s.env.readCycles s.lvl n).1).reverse ++ s.trace
      env := (s.env.readCycles s.lvl n).2, frames := s.frames ++ [⟨.ok, (s.env.readCycles s.lvl n).1⟩] } := by
  rw [dinPhase_idle n hn s hr hi, bind_ok, finish_complete _ _ (by exact hr)]
  rfl

/-- The bytes that READ_PAGE reads after its wait, and the answers after them (R214). -/
def pageRead (lvl : Levels) (p : Arg24) (n : Nat) (env : Env) : List Byte × Env :=
  ((readWait lvl p env).waited lvl).readCycles lvl n

/-- The number 2112 of the statements is the model's page size (R9). -/
theorem page_bytes : 2112 = pageSize := rfl

theorem pageRead_length (lvl : Levels) (p : Arg24) (n : Nat) (env : Env) : (pageRead lvl p n env).1.length = n :=
  readCycles_length _ _ _

theorem pageRead_arr (lvl : Levels) (p : Arg24) (n : Nat) (env : Env) :
    (pageRead lvl p n env).2.chip.arr = env.chip.arr :=
  (readCycles_arr _ _ _).trans ((waited_arr _ _).trans (readWait_arr lvl p env))

/-- READ_PAGE where a ready sample comes (R214). -/
theorem exec_readPage_ready {s : State} (hs : s.settled) (p : Arg24) {n : Nat} (hn : n = pageSize)
    (hh : s.env.heldBusy = false) (hc : ReadyCount s.lvl (readWait s.lvl p s.env)) :
    exec (.readPage p) s = .next (after s .input (.byte 0x30#8)
      (C 0x00#8 ++ A (pageBytes p) ++ C 0x30#8 ++ busy ((readWait s.lvl p s.env).busySamples s.lvl + 1) ++
        R (pageRead s.lvl p n s.env).1) (pageRead s.lvl p n s.env).2 ⟨.ok, (pageRead s.lvl p n s.env).1⟩) := by
  obtain ⟨-, hi, -, hr⟩ := id hs
  have hn0 : n ≠ 0 := by rw [hn]; decide
  rw [exec_readPage hs p, busyPhase_ready _ (by exact hr) (by exact (addressed_heldBusy ..).trans hh) (by exact hc),
    andThen_ok, afterBusy, ← hn, finish_dinPhase hn0 (by exact hr) (by exact hi)]
  simp only [after, pageRead, List.reverse_append, List.append_assoc]

/-- The page's bytes are read from a selected oracle that has the row (R83). -/
theorem pageRead_selected {lvl : Levels} (hi : lvl.strobesIdle = true) {p : Arg24} {n : Nat} (hn : n = pageSize)
    {env : Env} (hs : env.selected lvl = true) (hp : p.toNat < env.chip.numPages) :
    (pageRead lvl p n env).1 = env.chip.arr.page p.toNat := by
  have hlen : (env.chip.arr.page p.toNat).length = pageSize := by simp [Memory.page]
  have hw : (readWait lvl p env).waited lvl = { env with chip := { env.chip with
      mode := .read, abuf := addrPage p, col := 0, busy := some 0, preg := env.chip.arr.page p.toNat } } := by
    rw [readWait, addressed_read hi hs hp, Env.waited, busyCount_known (by exact hs) (by rfl)]
  rw [pageRead, hw, readCycles_page n]
  case h => exact hs
  case hm => rfl
  case hp => dsimp only; exact hlen
  case hc => dsimp only; rw [Nat.zero_add, hn]
  dsimp only
  rw [List.drop_zero, List.take_of_length_le (by rw [hlen, hn])]

/-- Settles O30: `exec_readPage_ready` gives the trace; the wait and the bytes are the oracle's where it answers, else
the supplied ones. -/
theorem readPageReadsWholePage : Obligations.ReadPageReadsWholePage := by
  intro p s hs hready
  obtain ⟨-, hi, -, hr⟩ := id hs
  obtain ⟨hh, hc⟩ := readyComesFor_iff.mp hready
  refine ⟨(readWait s.lvl p s.env).busySamples s.lvl + 1, (pageRead s.lvl p 2112 s.env).1,
    (pageRead s.lvl p 2112 s.env).2, Nat.succ_pos _, pageRead_length _ _ _ _,
    sameArray_of_arr (pageRead_arr _ _ _ _),
    fun ha hn => ?_, firstReady_confirmed (addressed_rbDraws ..) (readWait_busyCount hi p s.env),
    fun ho hn c hcol => ?_, exec_readPage_ready hs p page_bytes hh (addressed_read_ready hi hc)⟩
  · have hw : readWait s.lvl p s.env = s.env := addressed_unselected _ _ _ (selected_external ha _)
    rw [pageRead, hw, waited_external ha, busySamples_external ha, readCycles_external _ _ (by exact ha) (by exact hn)]
    exact ⟨rfl, rfl, rfl⟩
  · rw [pageRead_selected hi page_bytes ((oracle_iff_selected s).mp ho) hn]
    simp [Memory.page, byteAddress, pageSize, hcol]

end Sys2Proof.Proofs

/-! WRITE_PAGE and ERASE_BLOCK, which end in a status read, and what becomes of an operation while the chip holds the
line and once it releases it. -/

namespace Sys2Proof.Proofs

open Sys2Proof.Machine Sys2Proof.Spec

/-! ### WRITE_PAGE -/

/-- What a program changes of the array lies in its page (R82). -/
theorem writeWait_arr {lvl : Levels} (hi : lvl.strobesIdle = true) {p : Arg24} {buf : List Byte}
    (hb : buf.length = pageSize) {env : Env} {a : Nat} (ha : a < p.toNat * 2112 ∨ p.toNat * 2112 + 2112 ≤ a) :
    (writeWait lvl p buf env).chip.arr.read a = env.chip.arr.read a := by
  cases hs : env.selected lvl
  · rw [writeWait, programmed_unselected _ _ _ _ hs]
  · by_cases hn : p.toNat < env.chip.numPages
    · rw [writeWait, programmed_write hi hs hb hn]
      exact read_program_outside _ _ _ (by rw [byteAddress_zero, hb]; exact ha)
    · rw [writeWait, programmed_write_absent hi hs hb hn]

theorem writeWait_busyCount {lvl : Levels} (hi : lvl.strobesIdle = true) (p : Arg24) {buf : List Byte}
    (hb : buf.length = pageSize) (env : Env) :
    (writeWait lvl p buf env).busyCount lvl =
      if env.selected lvl = true ∧ p.toNat < env.chip.numPages then some env.chip.kProg else none := by
  cases hs : env.selected lvl
  · rw [writeWait, programmed_unselected _ _ _ _ hs, busyCount_unselected hs, if_neg (by simp)]
  · by_cases hn : p.toNat < env.chip.numPages
    · rw [writeWait, programmed_write hi hs hb hn, if_pos ⟨rfl, hn⟩]
      exact busyCount_known hs rfl
    · rw [writeWait, programmed_write_absent hi hs hb hn, if_neg (fun h => hn h.2)]
      exact busyCount_unselected rfl

/-- WRITE_PAGE up to its busy wait (R220). -/
theorem exec_writePage {s : State} (hs : s.settled) (p : Arg24) {buf : List Byte} (hb : buf.length = pageSize) :
    exec (.writePage p buf) s = finish ((busyPhase .writePage { s with
      ph := .command, dir := .output, dout := .byte 0x10#8
      trace := (C 0x80#8 ++ A (pageBytes p) ++ W buf ++ C 0x10#8).reverse ++ s.trace
      env := writeWait s.lvl p buf s.env }).andThen (afterBusy .writePage)) := by
  obtain ⟨-, hi, -, hr⟩ := id hs
  have hw : (Instr.writePage p buf).wellFormed = true := wellFormed_of_composite (decide_eq_true hb)
  have hne : addrPage p ≠ [] := List.cons_ne_nil _ _
  have hbuf : buf ≠ [] := List.ne_nil_of_length_pos (by rw [hb]; decide)
  rw [exec_settled rfl hw hs, bodyOf, writePageBody, requireIdle_ok hi, andThen_ok,
    programmed_run _ _ hne _ hbuf _ _ _ hr hi, addrEvents_eq hne, doutEvents_eq hbuf]
  rfl

/-! ### ERASE_BLOCK -/

/-- What an erase changes of the array lies in its block (R82). -/
theorem eraseWait_arr {lvl : Levels} (hi : lvl.strobesIdle = true) {b : Arg24} (hb : b.toNat * 64 < 2 ^ 24)
    {env : Env} {a : Nat} (ha : a < b.toNat * 64 * 2112 ∨ (b.toNat * 64 + 64) * 2112 ≤ a) :
    (eraseWait lvl b env).chip.arr.read a = env.chip.arr.read a := by
  cases hs : env.selected lvl
  · rw [eraseWait, addressed_unselected _ _ _ hs]
  · by_cases hn : b.toNat * 64 < env.chip.numPages
    · rw [eraseWait, addressed_erase hi hs hb hn]
      have hend : blockEnd env.chip.numPages b.toNat ≤ b.toNat * 64 + 64 :=
        (min_le_left _ _).trans_eq (Nat.succ_mul _ _)
      refine (read_eraseRange _ _ _ _).trans (if_neg ?_)
      rintro ⟨hlo, hhi⟩
      rw [byteAddress_zero] at hlo hhi
      rcases ha with ha | ha
      · exact absurd hlo (Nat.not_le.mpr ha)
      · exact absurd (lt_of_lt_of_le hhi ((Nat.mul_le_mul_right 2112 hend).trans ha)) (lt_irrefl _)
    · rw [eraseWait, addressed_erase_absent hi hs hb hn]

theorem eraseWait_busyCount {lvl : Levels} (hi : lvl.strobesIdle = true) {b : Arg24} (hb : b.toNat * 64 < 2 ^ 24)
    (env : Env) : (eraseWait lvl b env).busyCount lvl =
      if env.selected lvl = true ∧ b.toNat * 64 < env.chip.numPages then some env.chip.kErase else none := by
  cases hs : env.selected lvl
  · rw [eraseWait, addressed_unselected _ _ _ hs, busyCount_unselected hs, if_neg (by simp)]
  · by_cases hn : b.toNat * 64 < env.chip.numPages
    · rw [eraseWait, addressed_erase hi hs hb hn, if_pos ⟨rfl, hn⟩]
      exact busyCount_known hs rfl
    · rw [eraseWait, addressed_erase_absent hi hs hb hn, if_neg (fun h => hn h.2)]
      exact busyCount_unselected rfl

/-- ERASE_BLOCK up to its busy wait (R224). -/
theorem exec_eraseBlock {s : State} (hs : s.settled) {b : Arg24} (hb : b.toNat * 64 < 2 ^ 24) :
    exec (.eraseBlock b) s = finish ((busyPhase .eraseBlock { s with
      ph := .command, dir := .output, dout := .byte 0xD0#8
      trace := (C 0x60#8 ++ A (rowBytes (b.toNat * 64)) ++ C 0xD0#8).reverse ++ s.trace
      env := eraseWait s.lvl b s.env }).andThen (afterBusy .eraseBlock)) := by
  obtain ⟨-, hi, -, hr⟩ := id hs
  have hw : (Instr.eraseBlock b).wellFormed = true := wellFormed_of_composite (decide_eq_true hb)
  have hne : addrRow b ≠ [] := List.cons_ne_nil _ _
  rw [exec_settled rfl hw hs, bodyOf, eraseBlockBody, requireIdle_ok hi, andThen_ok,
    addressed_run _ _ hne _ _ _ hr hi, addrEvents_eq hne, ← addrRow_eq hb]
  rfl

/-! ### The wait and the status read -/

/-- The status byte after a busy wait, and the answers after it (R220, R224). -/
def waitedStatus (lvl : Levels) (e : Env) : Byte × Env := statusRead lvl (e.waited lvl)

theorem waitedStatus_arr (lvl : Levels) (e : Env) : (waitedStatus lvl e).2.chip.arr = e.chip.arr :=
  (statusRead_arr _ _).trans (waited_arr _ _)

/-- WRITE_PAGE and ERASE_BLOCK from their busy wait on, where a ready sample comes (R220, R224). -/
theorem finish_busyPhase_status {op : BusyOp} (hop : op = .writePage ∨ op = .eraseBlock) {s : State}
    (hr : s.resetAfter = none) (hi : s.strobesIdle = true) (hh : s.env.heldBusy = false)
    (hc : ReadyCount s.lvl s.env) :
    finish ((busyPhase op s).andThen (afterBusy op)) = .next { s with
      ph := .idle, dir := .input, dout := .byte 0x70#8
      trace := (busy (s.env.busySamples s.lvl + 1) ++ C 0x70#8 ++ R [(waitedStatus s.lvl s.env).1]).reverse ++ s.trace
      env := (waitedStatus s.lvl s.env).2
      frames := s.frames ++ [⟨codeOf (waitedStatus s.lvl s.env).1, [(waitedStatus s.lvl s.env).1]⟩] } := by
  rw [busyPhase_ready op hr hh hc, andThen_ok]
  rcases hop with rfl | rfl <;>
  · rw [afterBusy, finish_statusTxn (by exact hr) (by exact hi)]
    simp only [waitedStatus, List.reverse_append, List.append_assoc]

/-- A wait and a status read of an external chip take the supplied answers up to the first ready one, and one byte. -/
theorem suppliedWait_waitedStatus {s : State} {e : Env} (he : s.env.chip.attached = false → e = s.env) :
    suppliedWait s (e.busySamples s.lvl + 1) 1 [(waitedStatus s.lvl e).1] (waitedStatus s.lvl e).2 := by
  intro ha hn
  rw [he ha, busySamples_external ha, waitedStatus, waited_external ha]
  obtain ⟨hbyte, henv⟩ := statusRead_external (lvl := s.lvl)
    (env := { s.env with rbDraws := s.env.rbDraws.drop (s.env.rbDraws.idxOf true + 1) }) ha hn
  exact ⟨rfl, hbyte, henv⟩

/-- WRITE_PAGE where a ready sample comes (R220, R222). -/
theorem exec_writePage_ready {s : State} (hs : s.settled) (p : Arg24) {buf : List Byte} (hb : buf.length = pageSize)
    (hh : s.env.heldBusy = false) (hc : ReadyCount s.lvl (writeWait s.lvl p buf s.env)) :
    exec (.writePage p buf) s = .next (after s .input (.byte 0x70#8)
      (C 0x80#8 ++ A (pageBytes p) ++ W buf ++ C 0x10#8 ++ busy ((writeWait s.lvl p buf s.env).busySamples s.lvl + 1) ++
        C 0x70#8 ++ R [(waitedStatus s.lvl (writeWait s.lvl p buf s.env)).1])
      (waitedStatus s.lvl (writeWait s.lvl p buf s.env)).2
      ⟨codeOf (waitedStatus s.lvl (writeWait s.lvl p buf s.env)).1,
        [(waitedStatus s.lvl (writeWait s.lvl p buf s.env)).1]⟩) := by
  obtain ⟨-, hi, -, hr⟩ := id hs
  rw [exec_writePage hs p hb, finish_busyPhase_status (.inl rfl) (by exact hr) (by exact hi)
    (by exact (programmed_heldBusy ..).trans hh) (by exact hc)]
  simp only [after, List.reverse_append, List.append_assoc]

/-- Settles O31: `exec_writePage_ready` gives the trace; the wait, the array and the byte are those of `writeWait`. -/
theorem writePageWritesThenReadsStatus : Obligations.WritePageWritesThenReadsStatus := by
  intro p buf s hs hready hb
  obtain ⟨-, hi, -, -⟩ := id hs
  obtain ⟨hh, hc⟩ := readyComesFor_iff.mp hready
  have hb : buf.length = pageSize := hb
  exact ⟨(writeWait s.lvl p buf s.env).busySamples s.lvl + 1, (waitedStatus s.lvl (writeWait s.lvl p buf s.env)).1,
    (waitedStatus s.lvl (writeWait s.lvl p buf s.env)).2, Nat.succ_pos _,
    suppliedWait_waitedStatus fun ha => programmed_unselected _ _ _ _ (selected_external ha _),
    firstReady_confirmed (programmed_rbDraws ..) (writeWait_busyCount hi p hb s.env),
    fun a ha => by rw [waitedStatus_arr]; exact writeWait_arr hi hb ha,
    exec_writePage_ready hs p hb hh (programmed_write_ready hi hb hc)⟩

/-- ERASE_BLOCK where a ready sample comes (R224, R222). -/
theorem exec_eraseBlock_ready {s : State} (hs : s.settled) {b : Arg24} (hb : b.toNat * 64 < 2 ^ 24)
    (hh : s.env.heldBusy = false) (hc : ReadyCount s.lvl (eraseWait s.lvl b s.env)) :
    exec (.eraseBlock b) s = .next (after s .input (.byte 0x70#8)
      (C 0x60#8 ++ A (rowBytes (b.toNat * 64)) ++ C 0xD0#8 ++ busy ((eraseWait s.lvl b s.env).busySamples s.lvl + 1) ++
        C 0x70#8 ++ R [(waitedStatus s.lvl (eraseWait s.lvl b s.env)).1])
      (waitedStatus s.lvl (eraseWait s.lvl b s.env)).2
      ⟨codeOf (waitedStatus s.lvl (eraseWait s.lvl b s.env)).1,
        [(waitedStatus s.lvl (eraseWait s.lvl b s.env)).1]⟩) := by
  obtain ⟨-, hi, -, hr⟩ := id hs
  rw [exec_eraseBlock hs hb, finish_busyPhase_status (.inr rfl) (by exact hr) (by exact hi)
    (by exact (addressed_heldBusy ..).trans hh) (by exact hc)]
  simp only [after, List.reverse_append, List.append_assoc]

/-- Settles O32: `exec_eraseBlock_ready` gives the trace; the wait, the array and the byte are those of `eraseWait`. -/
theorem eraseBlockErasesThenReadsStatus : Obligations.EraseBlockErasesThenReadsStatus := by
  intro b s hs hready hb
  obtain ⟨-, hi, -, -⟩ := id hs
  obtain ⟨hh, hc⟩ := readyComesFor_iff.mp hready
  exact ⟨(eraseWait s.lvl b s.env).busySamples s.lvl + 1, (waitedStatus s.lvl (eraseWait s.lvl b s.env)).1,
    (waitedStatus s.lvl (eraseWait s.lvl b s.env)).2, Nat.succ_pos _,
    suppliedWait_waitedStatus fun ha => addressed_unselected _ _ _ (selected_external ha _),
    firstReady_confirmed (addressed_rbDraws ..) (eraseWait_busyCount hi hb s.env),
    fun a ha => by rw [waitedStatus_arr]; exact eraseWait_arr hi hb ha,
    exec_eraseBlock_ready hs hb hh (addressed_erase_ready hi hb hc)⟩

/-! ### The line held busy -/

/-- An operation that comes to its busy wait while the chip holds the line waits after one sample (R180, R323). -/
theorem finish_busyPhase_held (op : BusyOp) {s : State} (hr : s.resetAfter = none) (hh : s.env.heldBusy = true)
    (f : State → Run Reply) :
    finish ((busyPhase op s).andThen f) = .next { s with
      ph := .busyWait, pending := some op, trace := [Event.gate .settle, .sampRB false].reverse ++ s.trace } := by
  rw [busyPhase_start op hr, awaitReady_held op (by exact hr) (by exact hh), andThen_stop]
  rfl

/-- Settles O34: each operation is known up to its busy wait, and there `finish_busyPhase_held` says what it does. -/
theorem operationsWaitWhileBusy : Obligations.OperationsWaitWhileBusy := by
  intro s hs hh
  obtain ⟨-, hi, -, hr⟩ := id hs
  refine ⟨?_, fun p => ⟨readWait s.lvl p s.env, sameArray_of_arr (readWait_arr _ _ _), ?_⟩,
    fun p buf hb => ⟨writeWait s.lvl p buf s.env, fun a ha => writeWait_arr hi hb ha, ?_⟩,
    fun b hb => ⟨eraseWait s.lvl b s.env, fun a ha => eraseWait_arr hi hb ha, ?_⟩⟩
  · rw [exec_settled rfl rfl hs, bodyOf, busyWaitBody, finish_busyPhase_held _ hr hh]
  · rw [exec_readPage hs p, finish_busyPhase_held _ (by exact hr) (by exact (addressed_heldBusy ..).trans hh)]
    simp only [List.reverse_append, List.append_assoc]
  · rw [exec_writePage hs p hb, finish_busyPhase_held _ (by exact hr) (by exact (programmed_heldBusy ..).trans hh)]
    simp only [List.reverse_append, List.append_assoc]
  · rw [exec_eraseBlock hs hb, finish_busyPhase_held _ (by exact hr) (by exact (addressed_heldBusy ..).trans hh)]
    simp only [List.reverse_append, List.append_assoc]

/-! ### The line released -/

/-- The events of a busy wait after its first settle gate (R179). -/
theorem busy_drop_reverse (n : Nat) (tr : List Event) :
    .gate .settle :: .sampRB true :: (List.replicate n (Event.sampRB false) ++ tr) =
      ((busy (n + 1)).drop 1).reverse ++ tr := by
  simp [busy]

/-- A step of a waiting operation where a ready sample comes: the wait ends, and the rest of the operation runs (R179). -/
theorem step_released {s : State} {op : BusyOp} (hr : s.resetAfter = none) (hf : s.fault = none)
    (hp : s.pending = some op) (hready : readyComes s) :
    step s = finish (afterBusy op { s with
      pending := none, trace := ((busy (s.env.busySamples s.lvl + 1)).drop 1).reverse ++ s.trace
      env := s.env.waited s.lvl }) := by
  obtain ⟨hh, hc⟩ := readyCount_of_readyComes hready
  rw [step_pending (by rw [hr]; nofun) hf hp, resumeBusy,
    awaitReady_ready op (s := { s with pending := none }) hr hh hc, andThen_ok]
  simp only [busy_drop_reverse]

/-- Settles O36: after `step_released`, each kind of wait has its own rest. -/
theorem waitingOperationCompletes : Obligations.WaitingOperationCompletes := by
  intro s hr hf hready
  have hfirst : firstReady s (oracleCount s) (s.env.busySamples s.lvl + 1) := by
    rw [firstReady, oracleCount_eq]; rfl
  refine ⟨fun hp => ⟨_, s.env.waited s.lvl, Nat.succ_pos _, hfirst, sameArray_of_arr (waited_arr _ _), ?_⟩,
    fun hp hi => ?_, fun hp hi => ?_⟩
  · rw [step_released hr hf hp hready, afterBusy, finish_complete _ _ (by exact hr)]
    rfl
  · refine ⟨_, ((s.env.waited s.lvl).readCycles s.lvl 2112).1, ((s.env.waited s.lvl).readCycles s.lvl 2112).2,
      Nat.succ_pos _, readCycles_length _ _ _, hfirst,
      sameArray_of_arr ((readCycles_arr _ _ _).trans (waited_arr _ _)), ?_⟩
    rw [step_released hr hf hp hready, afterBusy, ← page_bytes,
      finish_dinPhase (by decide) (by exact hr) (by exact hi)]
    simp only [after, List.reverse_append, List.append_assoc]
  · refine ⟨_, (waitedStatus s.lvl s.env).1, (waitedStatus s.lvl s.env).2, Nat.succ_pos _, hfirst,
      sameArray_of_arr (waitedStatus_arr _ _), ?_⟩
    rcases hp with hp | hp <;>
    · rw [step_released hr hf hp hready, afterBusy, finish_statusTxn (by exact hr) (by exact hi)]
      simp only [after, waitedStatus, List.reverse_append, List.append_assoc]

end Sys2Proof.Proofs

/-! The raw operations: the session's two, the bus primitive and the timing primitive. Each runs as one event behind the
checks of R301, so that the hazard check and the event's own write say everything. -/

namespace Sys2Proof.Proofs

open Sys2Proof.Machine Sys2Proof.Spec

/-! ### One event behind the checks -/

/-- A well-formed host operation runs its body while a session is open (R301). -/
theorem exec_ready {i : Instr} {s : State} (hp : i.port = .host) (hw : i.wellFormed = true) (hs : s.sst = .ready)
    (hr : s.resetAfter = none) : exec i s = finish (bodyOf i s) := by
  obtain ⟨hf, ho⟩ := Bool.and_eq_true_iff.mp hw
  rw [exec_host hp hf, operation_ready hs ho hr]

/-- An event with no reset announced: its write, its place in the trace, and the chip's reaction (R13). -/
theorem record_noReset (e : Event) {s : State} (hr : s.resetAfter = none) :
    record e s = { applyEvent e s with trace := e :: s.trace, env := s.env.react s.lvl s.dir s.dout e } := by
  have h : (applyEvent e s).resetAfter = none := by cases e <;> exact hr
  rw [record, hr, Option.map_none, ← h]

/-- An operation of one event that no hazard forbids (R133). -/
theorem finish_eventOperation {e : Event} {s : State} (hr : s.resetAfter = none) (hz : hazard e s = none) :
    finish (eventOperation e s) = .next { applyEvent e s with
      trace := e :: s.trace, env := s.env.react s.lvl s.dir s.dout e, frames := s.frames ++ [⟨.ok, []⟩] } := by
  rw [eventOperation, emit_ok hr hz, andThen_ok, finish, deliver_none (by rw [record_resetAfter, hr]; rfl),
    record_noReset e hr, State.answer, applyEvent_frames]

/-- An operation of one event that a hazard forbids (R370). -/
theorem finish_eventOperation_hazard {e : Event} {s : State} {f : Fault} (hr : s.resetAfter = none)
    (hz : hazard e s = some f) : finish (eventOperation e s) = .fault f := by
  rw [eventOperation, emit_stop_of_hazard hr hz, andThen_stop, finish, raiseFault_none hr]

/-! ### Session -/

/-- Settles O9: the session state is not asked for, and `emitAll_sessionInit` is the sequence of events. -/
theorem sessionInitOpensSession : Obligations.SessionInitOpensSession := by
  intro s hr
  have hadmits : sessionAdmits .sessionInit s = true := by simp [sessionAdmits]
  rw [exec_host rfl rfl, operation, if_neg (by rw [hr]; nofun), if_pos hadmits,
    if_pos (show Instr.sessionInit.operandsOk = true from rfl), bodyOf, sessionInitBody,
    emitAll_sessionInit hr, andThen_ok, finish, deliver_none (by exact hr)]
  rfl

/-- Settles O10: the body writes the session state and nothing else. -/
theorem sessionEndClosesSession : Obligations.SessionEndClosesSession := by
  intro s hs hr
  rw [exec_ready rfl rfl hs hr, bodyOf, finish, deliver_none (by exact hr)]
  rfl

/-! ### Bus primitive -/

/-- Settles O12: `Dir(OUT)` is an event without a hazard unless RE_N is low. -/
theorem busDirSetsDirection : Obligations.BusDirSetsDirection := by
  intro d s hs hr hne
  have hz : hazard (.dir d) s = none := by
    cases d with
    | input => rfl
    | output => exact if_neg fun h => hne ⟨rfl, h⟩
  rw [exec_ready rfl rfl hs hr, bodyOf, finish_eventOperation hr hz, react_dir]
  cases d <;> rfl

/-- Settles O13: a `Drive` event has no hazard, and the chip reacts to no such event. -/
theorem busWriteDrivesByte : Obligations.BusWriteDrivesByte := by
  intro v s hs hr hd
  rw [exec_ready rfl rfl hs hr, bodyOf, busWriteBody, if_pos hd, finish_eventOperation hr rfl, react_drive]
  rfl

theorem oracleDrives_iff (ch : Chip) (v : Byte) : oracleDrives ch v ↔ chipOutput ch = some v := by
  rw [oracleDrives, chipOutput, page_bytes]
  cases hm : ch.mode
  case id => simp [idLen, eq_comm]
  case status => simp [eq_comm]
  case read => simp
  all_goals simp

/-- With the lanes inputs, a sample is the byte that a selected oracle drives while RE_N is low (R83). -/
theorem answerBus_driven {lvl : Levels} {env : Env} {v : Byte} (hs : env.selected lvl = true) (hre : lvl.reN = .low)
    (hv : chipOutput env.chip = some v) : env.answerBus lvl .input = (v, env) := by
  simp [Env.answerBus, hs, hre, hv]

/-- Where the oracle drives no byte, a sample is a draw (R16). -/
theorem answerBus_drawn {lvl : Levels} {dir : Direction} {env : Env}
    (h : ¬(env.selected lvl = true ∧ lvl.reN = .low ∧ ∃ v, chipOutput env.chip = some v)) :
    env.answerBus lvl dir = env.drawByte := by
  unfold Env.answerBus
  split
  next hsel =>
    simp only [Bool.and_eq_true, decide_eq_true_eq] at hsel
    split
    next v hv => exact absurd ⟨hsel.1.1, hsel.1.2, v, hv⟩ h
    next => rfl
  next => rfl

/-- Settles O14: the sample is `answerBus`, whose cases are the oracle's byte and the draw. -/
theorem busReadAnswersSample : Obligations.BusReadAnswersSample := by
  intro s hs hr hd
  refine ⟨(s.env.answerBus s.lvl s.dir).1, (s.env.answerBus s.lvl s.dir).2, answerBus_chip _ _ _,
    fun ho hre w hw => ?_, fun hnone w rest hdraws => ?_, ?_⟩
  · rw [hd, answerBus_driven ((oracle_iff_selected s).mp ho) hre ((oracleDrives_iff _ _).mp hw)]
    exact ⟨rfl, rfl⟩
  · simp only [oracle_iff_selected, oracleDrives_iff] at hnone
    rw [answerBus_drawn hnone, Env.drawByte, hdraws]
    exact ⟨rfl, rfl⟩
  · rw [exec_ready rfl rfl hs hr, bodyOf, busReadBody, if_pos hd, sampleBus, if_neg (by rw [hr]; nofun), bind_ok,
      record_noReset _ (by exact hr), react_sampBus, finish, deliver_none (by exact hr)]
    rfl

/-- Settles O16: the sample is `answerReady`, whose cases are the held line, the oracle's count and the draw. -/
theorem rbReadAnswersSample : Obligations.RbReadAnswersSample := by
  intro s hs hr
  refine ⟨(s.env.answerReady s.lvl).1, (s.env.answerReady s.lvl).2, sameArray_of_arr (answerReady_arr _ _),
    fun hh => ?_, fun hh => ⟨fun n hn => ?_, fun hn => ?_, fun hn r rest hdraws => ?_⟩, ?_⟩
  · rw [Env.answerReady, if_pos hh]; exact ⟨rfl, rfl⟩
  · rw [oracleCount_eq] at hn
    simp [Env.answerReady, hh, hn]
  · rw [oracleCount_eq] at hn
    simp [Env.answerReady, hh, hn]
  · rw [oracleCount_eq] at hn
    rw [answerReady_drawn hn hh, Env.drawReady, hdraws]
    exact ⟨rfl, rfl⟩
  · rw [exec_ready rfl rfl hs hr, bodyOf, rbReadBody, sampleReady, if_neg (by rw [hr]; nofun), bind_ok,
      record_noReset _ (by exact hr), react_sampRB, finish, deliver_none (by exact hr)]
    rfl

/-- A control line's new level has a hazard only where R370 names a conflict. -/
theorem hazard_ctl_none {l : Line} {b : Bool} {s : State} (h : ctlConflicts l b s = false) :
    hazard (.ctl l b) s = none := by
  unfold hazard
  split
  next he => cases he
  next he =>
    cases he
    obtain ⟨hd, hw⟩ := not_or.mp (of_decide_eq_false h)
    rw [if_neg hd, if_neg hw]
  next he => cases he; exact if_neg (of_decide_eq_false h)
  next he => cases he; exact if_neg (of_decide_eq_false h)
  next he => cases he; exact if_neg (of_decide_eq_false h)
  next => rfl

/-- The chip's reaction to a control event that is no rising edge of a strobe that it sees (R81, R83). -/
theorem react_ctl_unseen {l : Line} {b : Bool} {s : State}
    (h : b = false ∨ (l ≠ .weN ∧ l ≠ .reN) ∨ s.lvl.get l ≠ .low ∨ s.env.chip.attached = false) :
    s.env.react s.lvl s.dir s.dout (.ctl l b) = s.env := by
  by_cases hw : Event.ctl l b = .ctl .weN true
  · cases hw
    rcases h with h | h | h | h
    · cases h
    · exact absurd rfl h.1
    · exact react_weN_same h _ _ _
    · simp [Env.react, selected_external h]
  · by_cases hre : Event.ctl l b = .ctl .reN true
    · cases hre
      rcases h with h | h | h | h
      · cases h
      · exact absurd rfl h.2
      · exact react_reN_same h _ _ _
      · simp [Env.react, selected_external h]
    · exact react_quiet _ _ _ _ _ hw hre

/-- A byte latched where it is no command leaves the array alone (R81). -/
theorem chipLatch_arr {lvl : Levels} (hl : ¬(lvl.cle = .high ∧ lvl.ale = .low)) (v : Byte) (ch : Chip) :
    (chipLatch lvl v ch).arr = ch.arr := by
  unfold chipLatch
  split
  · exact absurd ⟨‹_›, ‹_›⟩ hl
  · exact chipAddress_arr _ _
  · exact chipData_arr _ _
  · rfl

/-- A rising WE_N edge changes the array only where a command that it latches stores to (R81, R82). -/
theorem react_weN_read {s : State} {a : Nat} (h : s.lvl.cle = .high → ∀ c, ¬storedBy c s a) :
    (s.env.react s.lvl s.dir s.dout (.ctl .weN true)).chip.arr.read a = s.env.chip.arr.read a := by
  by_cases hseen : s.env.selected s.lvl = true ∧ s.lvl.weN = .low
  · simp only [Env.react, if_pos hseen.1, if_pos hseen.2, lanes_chip]
    generalize (s.env.lanes s.dir s.dout).1 = v
    by_cases hcmd : s.lvl.cle = .high ∧ s.lvl.ale = .low
    · have hlatch : chipLatch s.lvl v s.env.chip = chipCommand v s.env.chip := by rw [chipLatch, hcmd.1, hcmd.2]
      rw [hlatch]
      exact chipCommand_read hseen.1 (h hcmd.1 v)
    · rw [chipLatch_arr hcmd]
  · unfold Env.react
    split
    · exact congrArg (fun e : Env => e.chip.arr.read a) (if_neg fun hlow => hseen ⟨‹_›, hlow⟩)
    · rfl

theorem react_reN_arr {s : State} :
    (s.env.react s.lvl s.dir s.dout (.ctl .reN true)).chip.arr = s.env.chip.arr := by
  by_cases hlow : s.lvl.reN = .low
  · rw [react_reN_rise hlow, latched_arr (chipReadAdvance_arr _)]
  · rw [react_reN_same hlow]

/-- Settles O15: one event, whose reaction is known by whether it is a strobe's rising edge. -/
theorem ctlSetDrivesLine : Obligations.CtlSetDrivesLine := by
  intro l b s hs hr hconf
  refine ⟨s.env.react s.lvl s.dir s.dout (.ctl l b), react_ctl_unseen, fun a ha => ?_, ?_⟩
  · by_cases hw : Event.ctl l b = .ctl .weN true
    · cases hw
      exact react_weN_read fun hcle c hc => ha ⟨rfl, rfl, hcle, c, hc⟩
    · by_cases hre : Event.ctl l b = .ctl .reN true
      · cases hre
        rw [react_reN_arr]
      · rw [react_quiet _ _ _ _ _ hw hre]
  · rw [exec_ready rfl rfl hs hr, bodyOf, finish_eventOperation hr (hazard_ctl_none hconf)]
    cases b <;> rfl

/-- Settles O17: each misuse is a hazard of the operation's one event, or the check of the lanes' direction. -/
theorem rawPrimitiveMisuseFaults : Obligations.RawPrimitiveMisuseFaults := by
  intro s hs hr
  have hexec : ∀ {e : Event} {f : Fault} {i : Instr}, i.port = .host → i.wellFormed = true →
      bodyOf i = eventOperation e → hazard e s = some f → exec i s = .fault f := fun hp hw hb hz => by
    rw [exec_ready hp hw hs hr, hb, finish_eventOperation_hazard hr hz]
  refine ⟨fun v hd => ?_, fun hd => ?_, fun h => hexec rfl rfl rfl (if_pos h), fun h => hexec rfl rfl rfl (if_pos h),
    fun hd h => hexec rfl rfl rfl ((if_neg hd).trans (if_pos h)), fun h => hexec rfl rfl rfl (if_pos h),
    fun h => hexec rfl rfl rfl (if_pos h), fun h => hexec rfl rfl rfl (if_pos h)⟩
  · rw [exec_ready rfl rfl hs hr, bodyOf, busWriteBody, if_neg hd, finish, raiseFault_none hr]
  · rw [exec_ready rfl rfl hs hr, bodyOf, busReadBody, if_neg hd, finish, raiseFault_none hr]

/-! ### Timing -/

/-- Settles O19: a gate has no hazard, writes nothing, and the chip reacts to none. -/
theorem delayAndPauseEmitGates : Obligations.DelayAndPauseEmitGates := by
  intro s hs hr
  refine ⟨fun x => ?_, ?_⟩ <;>
  · rw [exec_ready rfl rfl hs hr, bodyOf, finish_eventOperation hr rfl, react_gate]
    rfl

/-- Settles O20: with `CAL` as a fraction, both sides say `n · num ≤ c · den`. -/
theorem gateCyclesAreCeiling : Obligations.GateCyclesAreCeiling := by
  intro cal n c hcal
  have hden : 0 < cal.den := cal.den_pos
  have hnum : ((cal.num.toNat : ℕ) : ℚ) = (cal.num : ℚ) := by
    exact_mod_cast congrArg (Int.cast : ℤ → ℚ) (Int.toNat_of_nonneg (Rat.num_nonneg.mpr hcal))
  have hcycles : gateCycles cal n ≤ c ↔ n * cal.num.toNat ≤ c * cal.den := by
    rw [gateCycles, Nat.div_le_iff_le_mul_add_pred hden, Nat.mul_comm cal.den c]
    omega
  have hfrac : (n : ℚ) * cal ≤ c ↔ (n : ℚ) * cal.num ≤ c * cal.den := by
    rw [← mul_le_mul_iff_left₀ (Nat.cast_pos.mpr hden : (0 : ℚ) < cal.den), mul_assoc, Rat.mul_den_eq_num]
  rw [hcycles, hfrac, ← hnum]
  exact_mod_cast Iff.rfl

/-! ### Lanes and memory -/

/-- A byte is read back from its lanes' levels (R69). -/
theorem byteOfLanes_eq {level : Nat → Bool} {v : Byte} (h : ∀ i, i < 8 → level (laneMap i) = v.getLsbD i) :
    byteOfLanes level = v := by
  rw [byteOfLanes, h 0 (by decide), h 1 (by decide), h 2 (by decide), h 3 (by decide), h 4 (by decide),
    h 5 (by decide), h 6 (by decide), h 7 (by decide)]
  clear h
  revert v
  decide

/-- While the lanes are outputs, each shows its bit of the latch, whatever the wiring (R67). -/
theorem drives_laneMap {s : State} {v : Byte} (hd : s.dir = .output) (ho : s.dout = .byte v) {i : Nat} (hi : i < 8) :
    s.drives (laneMap i) = some (v.getLsbD i) := by
  have hw : Config.wiring.symm (laneMap i) = i := Config.wiring.symm_apply_apply i
  rw [State.drives, hw, if_pos hi, hd, ho]

/-- Settles O43: each lane shows its bit, and `byteOfLanes` puts the bits together again. -/
theorem lanePathsAgree : Obligations.LanePathsAgree := by
  intro s v hd ho
  exact byteOfLanes_eq fun i hi => by rw [drives_laneMap hd ho hi]; rfl

/-- Settles O44: the mask of the first k bits decides each lane. -/
theorem driveChangesOneLaneAtATime : Obligations.DriveChangesOneLaneAtATime := by
  intro old new k i _ hi
  have hmask : (BitVec.ofNat 8 (2 ^ k - 1)).getLsbD i = decide (i < k) := by
    rw [BitVec.getLsbD_ofNat, Nat.testBit_two_pow_sub_one]
    simp [hi]
  rw [driveStage, BitVec.getLsbD_or, BitVec.getLsbD_and, BitVec.getLsbD_and, BitVec.getLsbD_not, hmask]
  by_cases h : i < k <;> simp [h, hi]

/-- Settles O45: the three laws of a write. -/
theorem memoryReadAfterWrite : Obligations.MemoryReadAfterWrite := by
  intro m a v hm
  exact ⟨wf_write hm a v, read_write_same hm a v, fun b hb => read_write_other m v hb⟩

end Sys2Proof.Proofs

/-! What the reference chip oracle answers: its identity, and what a page program, a block erase and a page read of a
selected oracle leave and give. -/

namespace Sys2Proof.Proofs

open Sys2Proof.Machine Sys2Proof.Spec

/-! ### Identity -/

/-- READ_ID's command and address leave a selected oracle at its first identity byte (R82). -/
theorem identified_selected {lvl : Levels} (hi : lvl.strobesIdle = true) {env : Env} (hs : env.selected lvl = true) :
    identified lvl env = { env with chip := { env.chip with mode := .id, abuf := [0x00#8], idx := 0 } } := by
  obtain ⟨-, -, hc, -⟩ := (strobesIdle_iff _).mp hi
  rw [identified, latched_selected hs, latchAll_selected (.inr (by simp)) _ (by exact hs)]
  simp [chipLatch, hc, chipAddress, chipAddressed, chipCommand]

/-- Settles O46: the five read cycles of `exec_readId` start at the first identity byte. -/
theorem oracleAnswersIdentity : Obligations.OracleAnswersIdentity := by
  intro s t hs ho hid h
  have hsel := (oracle_iff_selected s).mp ho
  have hbytes : ((identified s.lvl s.env).readCycles s.lvl 5).1 = s.env.chip.id := by
    rw [identified_selected hs.2.1 hsel, readCycles_id 5 (by exact hsel) rfl (by exact hid) (by rfl)]
    exact List.take_of_length_le hid.le
  rw [exec_readId hs, hbytes] at h
  cases h
  rfl

/-! ### Status -/

/-- The status read after a busy wait of a selected oracle whose count is known (R82, R83). -/
theorem waitedStatus_selected {lvl : Levels} {e : Env} {n : Nat} (hs : e.selected lvl = true)
    (hb : e.chip.busy = some n) :
    waitedStatus lvl e = (e.chip.stat, { e with chip := { e.chip with mode := .status, busy := some 0 } }) := by
  have hw : e.waited lvl = { e with chip := { e.chip with busy := some 0 } } := by
    rw [Env.waited, busyCount_known hs hb]
  rw [waitedStatus, hw, statusRead, latched_selected (by exact hs)]
  exact readCycle_selected (by exact hs) rfl

/-- The result frame of a program or erase, by the failure predicate (R82, R222). -/
theorem statusFrame_eq (rows : List Nat) (row : Nat) :
    (⟨codeOf (chipStatus rows row), [chipStatus rows row]⟩ : Frame) =
      if row ∈ rows then ⟨.statusError, [0xE1#8]⟩ else ⟨.ok, [0xE0#8]⟩ := by
  unfold chipStatus
  split <;> rfl

/-! ### Program -/

/-- The answers after WRITE_PAGE of a page that a selected oracle has (R82). -/
def writtenPage (p : Arg24) (buf : List Byte) (env : Env) : Env :=
  { env with chip := { env.chip with
      mode := .status, abuf := addrPage p, busy := some 0, preg := buf, col := pageSize
      stat := chipStatus env.chip.failProg p.toNat
      arr := env.chip.arr.program (byteAddress p.toNat 0) buf } }

/-- WRITE_PAGE of a page that a selected oracle has, by its answers and its frame (R82, R222). -/
theorem exec_writePage_selected {s : State} (hs : s.settled) (hsel : s.env.selected s.lvl = true)
    (hh : s.env.heldBusy = false) {p : Arg24} (hp : p.toNat < s.env.chip.numPages) {buf : List Byte}
    (hb : buf.length = pageSize) : ∃ dout events,
      exec (.writePage p buf) s = .next (after s .input dout events (writtenPage p buf s.env)
        (if p.toNat ∈ s.env.chip.failProg then ⟨.statusError, [0xE1#8]⟩ else ⟨.ok, [0xE0#8]⟩)) := by
  obtain ⟨-, hi, -, -⟩ := id hs
  have hstatus : waitedStatus s.lvl (writeWait s.lvl p buf s.env) =
      (chipStatus s.env.chip.failProg p.toNat, writtenPage p buf s.env) := by
    rw [writeWait, programmed_write hi hsel hb hp]
    exact waitedStatus_selected (by exact hsel) rfl
  have hready : ReadyCount s.lvl (writeWait s.lvl p buf s.env) :=
    programmed_write_ready hi hb (.inl ⟨hsel, hp⟩)
  rw [exec_writePage_ready hs p hb hh hready, hstatus, statusFrame_eq]
  exact ⟨_, _, rfl⟩

/-- A byte of a programmed page (R82). -/
theorem read_program_page {m : Memory} (hm : m.wf) (row : Nat) {buf : List Byte} (hb : buf.length = 2112) {c : Nat}
    (hc : c < 2112) :
    (m.program (byteAddress row 0) buf).read (row * 2112 + c) = m.read (row * 2112 + c) &&& buf.getD c 0#8 := by
  have hcol : row * 2112 + c - row * 2112 = c := Nat.add_sub_cancel_left _ _
  rw [read_program hm, byteAddress_zero, dif_pos ⟨Nat.le_add_right _ _, by rw [hcol, hb]; exact hc⟩]
  simp only [hcol]
  rw [List.getD_eq_getElem _ _ (hb ▸ hc)]

/-- Settles O47: the array is the one before with the page programmed. -/
theorem oracleProgramsPage : Obligations.OracleProgramsPage := by
  intro p buf s t hs ho hh hm hp hb h
  obtain ⟨dout, events, hexec⟩ := exec_writePage_selected hs ((oracle_iff_selected s).mp ho) hh hp hb
  rw [hexec] at h
  cases h
  exact ⟨fun c hc => read_program_page hm p.toNat hb hc,
    fun a ha => read_program_outside _ _ _ (by rw [byteAddress_zero, hb]; exact ha), rfl⟩

/-! ### Erase -/

/-- Settles O48: the array is the one before with the block's range erased, which ends at the block's end. -/
theorem oracleErasesBlock : Obligations.OracleErasesBlock := by
  intro b s t hs ho hh hb hpages h
  obtain ⟨-, hi, -, -⟩ := id hs
  have hsel := (oracle_iff_selected s).mp ho
  have hrow : b.toNat * 64 < s.env.chip.numPages := by omega
  have hend : blockEnd s.env.chip.numPages b.toNat = b.toNat * 64 + 64 := by
    rw [blockEnd, pagesPerBlock, Nat.succ_mul, Nat.min_eq_left hpages]
  rw [exec_eraseBlock_ready hs hb hh (addressed_erase_ready hi hb (.inl ⟨hsel, hrow⟩)), eraseWait,
    addressed_erase hi hsel hb hrow, waitedStatus_selected (by exact hsel) rfl] at h
  cases h
  refine ⟨fun a => ?_, congrArg (fun f => s.frames ++ [f]) (statusFrame_eq _ _)⟩
  exact (read_eraseRange _ _ _ _).trans (by rw [byteAddress_zero, byteAddress_zero, hend]; rfl)

/-! ### Round trip -/

/-- A page programmed while erased reads back as the bytes written (R82). -/
theorem page_program_erased {m : Memory} (hm : m.wf) (row : Nat) {buf : List Byte} (hb : buf.length = 2112)
    (herased : ∀ c, c < 2112 → m.read (row * 2112 + c) = 0xFF#8) :
    (m.program (byteAddress row 0) buf).page row = buf := by
  refine List.ext_getElem (by rw [Memory.page, List.length_map, List.length_range, hb, page_bytes]) fun c h1 h2 => ?_
  have hc : c < 2112 := hb ▸ h2
  have hread := read_program_page hm row hb hc
  rw [herased c hc, List.getD_eq_getElem _ _ h2] at hread
  simp only [Memory.page, List.getElem_map, List.getElem_range]
  rw [show byteAddress row c = row * 2112 + c from rfl, hread]
  exact BitVec.allOnes_and

/-- Settles O49: the state after the write is settled, with the page in the array, and the read answers it. -/
theorem pageRoundTripOnErasedPage : Obligations.PageRoundTripOnErasedPage := by
  intro p buf s hs ho hh hm hp hok hb herased
  have hsel := (oracle_iff_selected s).mp ho
  obtain ⟨dout, events, hwrite⟩ := exec_writePage_selected hs hsel hh hp hb
  rw [if_neg hok] at hwrite
  obtain ⟨hready, hi, hpend, hr⟩ := id hs
  refine ⟨_, _, hwrite, exec_readPage_ready (by exact ⟨hready, hi, hpend, hr⟩) p page_bytes (by exact hh)
    (addressed_read_ready (by exact hi) (.inl ⟨by exact hsel, by exact hp⟩)), ?_⟩
  have hbytes : (pageRead s.lvl p 2112 (writtenPage p buf s.env)).1 = buf :=
    (pageRead_selected hi page_bytes (by exact hsel) (by exact hp)).trans (page_program_erased hm _ hb herased)
  simp only [after, hbytes, List.append_assoc, List.singleton_append]

end Sys2Proof.Proofs

/-! A command cycle that the reset input cuts, and the instructions that cannot change the chip's array. -/

namespace Sys2Proof.Proofs

open Sys2Proof.Machine Sys2Proof.Spec

/-! ### Events that the chip does not react to -/

/-- An event that is no strobe's rising edge. -/
def NoEdge (e : Event) : Prop := e ≠ .ctl .weN true ∧ e ≠ .ctl .reN true

/-- Events without a strobe's rising edge leave the answers alone (R81, R83). -/
theorem emitAll_env_of_noEdge {es : List Event} {s u : State} (hq : ∀ e ∈ es, NoEdge e)
    (h : emitAll es s = .ok () u) : u.env = s.env := by
  induction es generalizing s with
  | nil => cases h; rfl
  | cons e es ih =>
    obtain ⟨hwe, hre⟩ := hq e List.mem_cons_self
    simp only [emitAll, emit] at h
    split at h
    · cases h
    · split at h
      · cases h
      · rw [ih (fun f hf => hq f (List.mem_cons_of_mem _ hf)) h, record_env, react_quiet _ _ _ _ _ hwe hre]

/-- The command byte is latched by the eighth event of its cycle (R174, R81). -/
theorem noEdge_take_of_le {c : Byte} {n : Nat} (hn : n ≤ 7) : ∀ e ∈ (C c).take n, NoEdge e := by
  have h7 : ∀ e ∈ (C c).take 7, NoEdge e := by simp [C, WP, NoEdge]
  exact fun e he => h7 e (List.take_subset_take_left _ hn he)

theorem noEdge_drop_of_le {c : Byte} {n : Nat} (hn : 8 ≤ n) : ∀ e ∈ (C c).drop n, NoEdge e := by
  have h8 : ∀ e ∈ (C c).drop 8, NoEdge e := by simp [C, WP, NoEdge]
  exact fun e he => h8 e (List.drop_subset_drop_left _ hn he)

/-! ### The reset input in a command cycle -/

/-- After the first n events of a command cycle the array is as before but for what the command stores to. -/
theorem sameBut_take {c : Byte} {n : Nat} {s u : State} (hi : s.strobesIdle = true) (hr : s.resetAfter = none)
    (h : emitAll ((C c).take n) (s.setPhase .command) = .ok () u) : sameBut c s u.env := by
  by_cases hn : n ≤ 7
  · rw [emitAll_env_of_noEdge (noEdge_take_of_le hn) h]
    exact fun _ _ => rfl
  · have hall := cmdPhase_idle c s hr hi
    rw [cmdPhase, show cmdEvents c = (C c).take n ++ (C c).drop n from (List.take_append_drop n (C c)).symm,
      emitAll_append, h, andThen_ok] at hall
    rw [← emitAll_env_of_noEdge (noEdge_drop_of_le (by omega)) hall]
    exact sameBut_latched c s

/-- A command cycle with the reset announced after n of its 12 events: just these events take place, and the reset is
due (R360, R331). -/
theorem cmdPhase_cut {c : Byte} {s : State} {n : Nat} (hi : s.strobesIdle = true) (hr : s.resetAfter = some n)
    (hn : n ≤ 12) : ∃ u, sameBut c s u.env ∧
      u.applyReset = State.applyReset { s with trace := ((C c).take n).reverse ++ s.trace, env := u.env } ∧
      u.resetAfter = some 0 ∧ (cmdPhase c s = .stop .reset u ∨ cmdPhase c s = .ok () u) := by
  have hs : cmdPhase c s = emitAll (cmdEvents c) { s.quiet.setPhase .command with resetAfter := some n } := by
    rw [← hr]; rfl
  have hall := cmdPhase_idle c s.quiet rfl hi
  rw [hs]
  by_cases hlt : n < (cmdEvents c).length
  · obtain ⟨u, hu, hcut⟩ := emitAll_cut _ _ _ n hlt rfl hall
    have hsame : sameBut c s.quiet u.env := sameBut_take hi rfl hu
    refine ⟨{ u with resetAfter := some 0 }, hsame, ?_, rfl, .inl hcut⟩
    obtain ⟨dir, dout, lvl, oe, env, rfl⟩ := emitAll_fields _ _ u rfl hu
    rfl
  · obtain rfl : n = (cmdEvents c).length := le_antisymm hn (Nat.not_lt.mp hlt)
    exact ⟨_, sameBut_latched c s, rfl, rfl, .inr (emitAll_cut_end _ _ _ rfl hall)⟩

/-- Settles O40: a reset that is due at the acceptance comes before the body; else `cmdPhase_cut` says where it comes. -/
theorem resetCutsCommandCycle : Obligations.ResetCutsCommandCycle := by
  intro c s n hs hi hr hn
  rw [exec_host rfl rfl, operation]
  cases n with
  | zero => exact ⟨s.env, fun _ _ => rfl, if_pos hr⟩
  | succ n =>
    have hadmits : sessionAdmits (.cmdCycle c) s = true := by simp [sessionAdmits, hs]
    obtain ⟨u, hsame, hreset, hdue, hrun⟩ := cmdPhase_cut (c := c) hi hr hn
    refine ⟨u.env, hsame, ?_⟩
    rw [if_neg (by rw [hr]; nofun), if_pos hadmits, if_pos (show (Instr.cmdCycle c).operandsOk = true from rfl), bodyOf,
      sequenced, requireIdle_ok hi, andThen_ok, silent, ← hreset]
    rcases hrun with hrun | hrun <;> rw [hrun]
    · rfl
    · exact if_pos hdue

/-! ### Runs that spare the array -/

/-- The run only moves the phase, the lanes, the trace and the answers, and leaves the array as it was. -/
def Spares {α : Type} (s : State) (r : Run α) : Prop := Moved s r.state ∧ r.state.env.chip.arr = s.env.chip.arr

theorem spares_bind {α β : Type} {s : State} {r : Run α} {f : α → State → Run β} (h : Spares s r)
    (hf : ∀ a t, Moved s t → Spares t (f a t)) : Spares s (r.bind f) := by
  cases r with
  | ok a t =>
    obtain ⟨hm, ha⟩ := hf a t h.1
    exact ⟨moved_trans h.1 hm, ha.trans h.2⟩
  | stop w t => exact h

theorem spares_andThen {α β : Type} {s : State} {r : Run α} {f : State → Run β} (h : Spares s r)
    (hf : ∀ t, Moved s t → Spares t (f t)) : Spares s (r.andThen f) := spares_bind h fun _ t => hf t

theorem spares_complete (a : Reply) (s : State) : Spares s (complete a s) :=
  ⟨⟨.idle, s.dir, s.dout, [], s.env, rfl⟩, rfl⟩

theorem spares_silent {phase : State → Run Unit} (hp : Spares s (phase s)) : Spares s (silent phase s) :=
  spares_andThen hp fun t _ => ⟨moved_refl t, rfl⟩

/-- A busy wait spares the array, whether it ends or goes on (R72, R83). -/
theorem spares_busyPhase (op : BusyOp) {s : State} (hr : s.resetAfter = none) : Spares s (busyPhase op s) := by
  rw [busyPhase_eq op s hr]
  have harr := pollAnswers_arr s.lvl (s.env.knownReady s.lvl) s.env
  split
  · exact ⟨⟨_, s.dir, s.dout, _ :: (_ ++ [_]), _, by simp only [List.cons_append, List.append_assoc]; rfl⟩, harr⟩
  · exact ⟨⟨_, s.dir, s.dout, _ ++ [_], _, by simp only [List.append_assoc]; rfl⟩, harr⟩

/-- No reset is announced and the strobes are idle. -/
def IdleQuiet (s : State) : Prop := s.resetAfter = none ∧ s.strobesIdle = true

theorem idleQuiet_moved {s t : State} (h : IdleQuiet s) (hm : Moved s t) : IdleQuiet t :=
  ⟨(moved_resetAfter hm).trans h.1, (moved_strobesIdle hm).trans h.2⟩

section
variable {s : State} (h : IdleQuiet s)
include h

theorem spares_cmdPhase {c : Byte} (h1 : c ≠ 0x10#8) (h2 : c ≠ 0xD0#8) : Spares s (cmdPhase c s) := by
  rw [cmdPhase_idle c s h.1 h.2]
  exact ⟨⟨_, _, _, _, _, rfl⟩, latched_command_arr h1 h2 _ _⟩

theorem spares_addrPhase (a : List Byte) : Spares s (addrPhase a s) := by
  by_cases ha : a = []
  · rw [addrPhase, if_pos ha]; exact ⟨moved_refl s, rfl⟩
  · rw [addrPhase_idle a ha s h.1 h.2]
    exact ⟨⟨_, _, _, _, _, rfl⟩, latchAll_arr (by simp) _ _⟩

theorem spares_doutPhase (buf : List Byte) : Spares s (doutPhase buf s) := by
  by_cases hb : buf = []
  · rw [doutPhase, if_pos hb]; exact ⟨moved_refl s, rfl⟩
  · obtain ⟨-, -, hcle, -⟩ := (strobesIdle_iff _).mp h.2
    rw [doutPhase_idle buf hb s h.1 h.2]
    exact ⟨⟨_, _, _, _, _, rfl⟩, latchAll_arr (by simp [hcle]) _ _⟩

theorem spares_dinPhase (n : Nat) : Spares s (dinPhase n s) := by
  by_cases hn : n = 0
  · rw [dinPhase, if_pos hn]; exact ⟨moved_refl s, rfl⟩
  · rw [dinPhase_idle n hn s h.1 h.2]
    exact ⟨⟨_, _, _, _, _, rfl⟩, readCycles_arr _ _ _⟩

theorem spares_sequenced {phase : State → Run (List Byte)} (hp : Spares s (phase s)) :
    Spares s (sequenced phase s) := by
  rw [sequenced, requireIdle_ok h.2, andThen_ok]
  exact spares_bind hp fun _ t _ => spares_complete _ t

/-- The composite operations without a confirm spare the array from idle strobes (R72, R82). -/
theorem spares_composite {i : Instr} (hc : checksIdle i = true) (hm : mayStore i = false) : Spares s (bodyOf i s) := by
  cases i
  case cmdCycle c =>
    obtain ⟨h1, h2⟩ := not_or.mp (of_decide_eq_false hm)
    exact spares_sequenced h (spares_silent (spares_cmdPhase h h1 h2))
  case addrCycle a => exact spares_sequenced h (spares_silent (spares_addrPhase h a))
  case dataOut buf => exact spares_sequenced h (spares_silent (spares_doutPhase h buf))
  case dataIn x => exact spares_sequenced h (spares_dinPhase h _)
  case readId =>
    exact spares_sequenced h (spares_andThen (spares_cmdPhase h (by decide) (by decide)) fun t ht =>
      spares_andThen (spares_addrPhase (idleQuiet_moved h ht) _) fun u hu =>
        spares_dinPhase (idleQuiet_moved (idleQuiet_moved h ht) hu) _)
  case readStatus =>
    exact spares_sequenced h (spares_andThen (spares_cmdPhase h (by decide) (by decide)) fun t ht =>
      spares_dinPhase (idleQuiet_moved h ht) _)
  case readPage p =>
    rw [bodyOf, readPageBody, requireIdle_ok h.2, andThen_ok]
    refine spares_andThen (spares_cmdPhase h (by decide) (by decide)) fun t ht => ?_
    have h1 := idleQuiet_moved h ht
    refine spares_andThen (spares_addrPhase h1 _) fun u hu => ?_
    have h2 := idleQuiet_moved h1 hu
    refine spares_andThen (spares_cmdPhase h2 (by decide) (by decide)) fun v hv => ?_
    have h3 := idleQuiet_moved h2 hv
    refine spares_andThen (spares_busyPhase _ h3.1) fun w hw => ?_
    exact spares_bind (spares_dinPhase (idleQuiet_moved h3 hw) _) fun _ x _ => spares_complete _ x
  case writePage p buf => cases hm
  case eraseBlock b => cases hm
  all_goals cases hc

end

/-- One event spares the array where the chip's reaction to it does. -/
theorem arr_eventOperation {e : Event} {s : State}
    (h : (s.env.react s.lvl s.dir s.dout e).chip.arr = s.env.chip.arr) :
    (eventOperation e s).state.env.chip.arr = s.env.chip.arr := by
  unfold eventOperation emit
  split
  · rfl
  · split
    · rfl
    · exact h

theorem arr_react_ctl {l : Line} {b : Bool} {s : State} (h : mayStore (.ctlSet l b) = false) :
    (s.env.react s.lvl s.dir s.dout (.ctl l b)).chip.arr = s.env.chip.arr := by
  by_cases hre : Event.ctl l b = .ctl .reN true
  · rw [hre, react_reN_arr]
  · have hwe : Event.ctl l b ≠ .ctl .weN true := by rintro ⟨⟩; cases h
    rw [react_quiet _ _ _ _ _ hwe hre]

/-- The body of every host operation without a confirm leaves the array as it was, with no reset announced. -/
theorem arr_bodyOf {i : Instr} {s : State} (hr : s.resetAfter = none) (hm : mayStore i = false) :
    (bodyOf i s).state.env.chip.arr = s.env.chip.arr := by
  have hcomposite : checksIdle i = true → (bodyOf i s).state.env.chip.arr = s.env.chip.arr := fun hc => by
    cases hi : s.strobesIdle with
    | true => exact (spares_composite ⟨hr, hi⟩ hc hm).2
    | false => rw [bodyOf_notIdle hc hi]; rfl
  cases i
  case sessionInit => rw [bodyOf, sessionInitBody, emitAll_sessionInit hr]; rfl
  case busDir d => exact arr_eventOperation (by rw [react_dir])
  case busWrite v =>
    rw [bodyOf, busWriteBody]
    split
    · exact arr_eventOperation (by rw [react_drive])
    · rfl
  case busRead =>
    rw [bodyOf, busReadBody]
    split
    · rw [sampleBus, if_neg (by rw [hr]; nofun)]
      show (Env.react _ _ _ _ _).chip.arr = _
      rw [react_sampBus, answerBus_chip]
    · rfl
  case rbRead =>
    rw [bodyOf, rbReadBody, sampleReady, if_neg (by rw [hr]; nofun)]
    show (Env.react _ _ _ _ _).chip.arr = _
    rw [react_sampRB, answerReady_arr]
  case ctlSet l b => exact arr_eventOperation (arr_react_ctl hm)
  case delayNs x => exact arr_eventOperation (by rw [react_gate])
  case shortPause => exact arr_eventOperation (by rw [react_gate])
  case busyWait => exact (spares_andThen (spares_busyPhase _ hr) fun t _ => spares_complete _ t).2
  case cmdCycle | addrCycle | dataOut | dataIn | readId | readPage | writePage | eraseBlock | readStatus =>
    exact hcomposite rfl
  all_goals rfl

/-- A row of the bus port without a confirm is no program or erase confirm. -/
theorem commandOf_not_confirm {i : Instr} {c : Byte} (hm : mayStore i = false) (hc : commandOf i = some c) :
    c ≠ 0x10#8 ∧ c ≠ 0xD0#8 := by
  cases i <;> cases hc
  case nandProgramConfirm | nandEraseConfirm => cases hm
  all_goals decide

/-- Settles O50: a rejection touches nothing, a body is `arr_bodyOf`, and a command byte of the bus port is no confirm. -/
theorem arrayUnchangedWithoutConfirm : Obligations.ArrayUnchangedWithoutConfirm := by
  intro i s t hm hr h a
  suffices harr : t.env.chip.arr = s.env.chip.arr by rw [harr]
  rcases exec_next_noReset hr h with ⟨-, ⟨-, -, rfl⟩ | ⟨-, rfl⟩ | h⟩ | ⟨c, hc, rfl | ⟨hi, u, hu, rfl⟩⟩
  · rfl
  · rfl
  · have hbody := arr_bodyOf hr hm
    rcases finish_bodyOf_noReset hr h with ⟨a, u, hu, rfl⟩ | ⟨op, u, hu, rfl⟩ <;>
    · rw [hu] at hbody
      exact hbody
  · rfl
  · obtain ⟨h1, h2⟩ := commandOf_not_confirm hm hc
    have hs := spares_cmdPhase ⟨hr, hi⟩ h1 h2
    rw [hu] at hs
    exact hs.2

end Sys2Proof.Proofs

/-! The minimum durations of each operation's events (R380). Only gates last (R153), so each phase's duration is that of
its gates, and an operation's is the sum over its phases, however long its busy wait polls. -/

namespace Sys2Proof.Proofs

open Sys2Proof.Machine Sys2Proof.Spec

/-! ### Durations of a list of events -/

/-- The minimum duration with the nominal gate times (R150). -/
def nominalNs (es : List Event) : Nat := traceMinNs {} es

theorem nominalNs_append (es fs : List Event) : nominalNs (es ++ fs) = nominalNs es + nominalNs fs := by
  simp [nominalNs, traceMinNs]

/-- Cycles of one kind, one for each byte, last 30 ns each: a gate WC and a gate HOLD. -/
theorem nominalNs_flatMap {f : Byte → List Event} (h : ∀ v, nominalNs (f v) = 30) (vs : List Byte) :
    nominalNs (vs.flatMap f) = 30 * vs.length := by
  induction vs with
  | nil => rfl
  | cons v vs ih => rw [List.flatMap_cons, nominalNs_append, h, ih, List.length_cons]; omega

theorem nominalNs_cmdEvents (c : Byte) : nominalNs (cmdEvents c) = 30 := rfl

theorem nominalNs_addrEvents (a : List Byte) : nominalNs (addrEvents a) = 30 * a.length := by
  have head : nominalNs [.dir .output, .ctl .ale true, .gate .short] = 0 := rfl
  have tail : nominalNs [.ctl .ale false, .gate .short] = 0 := rfl
  rw [addrEvents]
  split
  next ha => rw [ha]; rfl
  next => rw [nominalNs_append, nominalNs_append, nominalNs_flatMap (fun _ => rfl), head, tail, zero_add, add_zero]

theorem nominalNs_doutEvents (buf : List Byte) : nominalNs (doutEvents buf) = 30 * buf.length := by
  have head : nominalNs [.dir .output] = 0 := rfl
  rw [doutEvents]
  split
  next hb => rw [hb]; rfl
  next => rw [nominalNs_append, nominalNs_flatMap (fun _ => rfl), head, zero_add]

theorem nominalNs_dinEvents (bytes : List Byte) : nominalNs (dinEvents bytes) = 30 * bytes.length := by
  have head : nominalNs dinHead = 0 := rfl
  rw [dinEvents, nominalNs_append, nominalNs_flatMap (fun _ => rfl), head, zero_add]

/-- A busy wait lasts its two settle gates, however many samples it takes (R179). -/
theorem nominalNs_busy (k : Nat) : nominalNs (busy k) = 200 := by
  simp [nominalNs, traceMinNs, busy, Event.minNs, Gate.minNs]

/-! ### Durations of a run -/

/-- From s to t, events of this minimum duration were added to the trace. -/
def Lasts (s t : State) (d : Nat) : Prop := ∃ es : List Event, t.trace = es.reverse ++ s.trace ∧ nominalNs es = d

/-- The events added are determined by the two traces. -/
theorem nominalNs_of_lasts {s t : State} {d : Nat} (h : Lasts s t d) {es : List Event}
    (he : t.trace = es.reverse ++ s.trace) : traceMinNs {} es = d := by
  obtain ⟨fs, hfs, hd⟩ := h
  have hrev : es.reverse = fs.reverse := List.append_cancel_right (he.symm.trans hfs)
  rw [List.reverse_injective hrev]
  exact hd

theorem lasts_trans {s t u : State} {d e : Nat} (h1 : Lasts s t d) (h2 : Lasts t u e) : Lasts s u (d + e) := by
  obtain ⟨es, he, rfl⟩ := h1
  obtain ⟨fs, hf, rfl⟩ := h2
  exact ⟨es ++ fs, by rw [hf, he, List.reverse_append, List.append_assoc], nominalNs_append es fs⟩

/-- A phase that ends leaves a quiet state behind it, and its events last so long. -/
def Phased {α : Type} (s : State) (d : Nat) (r : Run α) : Prop := ∃ a u, r = .ok a u ∧ Moved s u ∧ Lasts s u d

theorem phased_andThen {α β : Type} {s : State} {d e : Nat} {r : Run α} {f : State → Run β} (h : IdleQuiet s)
    (h1 : Phased s d r) (h2 : ∀ u, IdleQuiet u → Phased u e (f u)) : Phased s (d + e) (r.andThen f) := by
  obtain ⟨a, u, rfl, hm, hl⟩ := h1
  obtain ⟨b, v, hv, hm', hl'⟩ := h2 u (idleQuiet_moved h hm)
  exact ⟨b, v, hv, moved_trans hm hm', lasts_trans hl hl'⟩

section
variable {s : State} (h : IdleQuiet s)
include h

theorem phased_cmdPhase (c : Byte) : Phased s 30 (cmdPhase c s) :=
  ⟨_, _, cmdPhase_idle c s h.1 h.2, ⟨_, _, _, _, _, rfl⟩, _, rfl, nominalNs_cmdEvents c⟩

theorem phased_addrPhase (a : List Byte) : Phased s (30 * a.length) (addrPhase a s) := by
  by_cases ha : a = []
  · exact ⟨(), s, if_pos ha, moved_refl s, [], rfl, by rw [ha]; rfl⟩
  · exact ⟨_, _, addrPhase_idle a ha s h.1 h.2, ⟨_, _, _, _, _, rfl⟩, _, rfl, nominalNs_addrEvents a⟩

theorem phased_doutPhase (buf : List Byte) : Phased s (30 * buf.length) (doutPhase buf s) := by
  by_cases hb : buf = []
  · exact ⟨(), s, if_pos hb, moved_refl s, [], rfl, by rw [hb]; rfl⟩
  · exact ⟨_, _, doutPhase_idle buf hb s h.1 h.2, ⟨_, _, _, _, _, rfl⟩, _, rfl, nominalNs_doutEvents buf⟩

theorem phased_dinPhase (n : Nat) : Phased s (30 * n) (dinPhase n s) := by
  by_cases hn : n = 0
  · exact ⟨[], s, if_pos hn, moved_refl s, [], rfl, by rw [hn]; rfl⟩
  · exact ⟨_, _, dinPhase_idle n hn s h.1 h.2, ⟨_, _, _, _, _, rfl⟩, _, rfl,
      by rw [nominalNs_dinEvents, readCycles_length]⟩

theorem phased_statusTxn : Phased s 60 (statusTxn s) :=
  phased_andThen h (phased_cmdPhase h _) fun _ hu => phased_dinPhase hu 1

theorem phased_silent {d : Nat} {phase : State → Run Unit} (hp : Phased s d (phase s)) : Phased s d (silent phase s) :=
  phased_andThen h hp fun u _ => ⟨[], u, rfl, moved_refl u, [], rfl, rfl⟩

/-- An operation whose phases ended lasts as long as they do (R181, R105). -/
theorem lasts_of_phased {d : Nat} {r : Run (List Byte)} {g : List Byte → Reply} {t : State} (hp : Phased s d r)
    (hf : finish (r.bind fun bs u => complete (g bs) u) = .next t) : Lasts s t d := by
  obtain ⟨bs, u, rfl, hm, hl⟩ := hp
  rw [bind_ok, finish_complete _ _ ((moved_resetAfter hm).trans h.1)] at hf
  cases hf
  exact hl

theorem lasts_sequenced {d : Nat} {phase : State → Run (List Byte)} {t : State} (hp : Phased s d (phase s))
    (hf : finish (sequenced phase s) = .next t) : Lasts s t d := by
  rw [sequenced, requireIdle_ok h.2, andThen_ok] at hf
  exact lasts_of_phased h (g := fun bs => (.ok, bs)) hp hf

end

/-- A busy wait whose operation sent its frame in this step ended, after some number of samples (R179). -/
theorem busyPhase_ended {op : BusyOp} {f : State → Run Reply} {s t : State} (hr : s.resetAfter = none)
    (h : finish ((busyPhase op s).andThen f) = .next t) (hf : t.frames ≠ s.frames) :
    ∃ u, Moved s u ∧ Lasts s u 200 ∧ finish (f u) = .next t := by
  obtain ⟨m, r, hm, -, -⟩ := pollAnswers_shape s.lvl (s.env.knownReady s.lvl) s.env
  rw [busyPhase_eq op s hr, hm] at h
  cases r with
  | false =>
    rw [if_neg (by simp), andThen_stop, finish] at h
    cases h
    exact absurd rfl hf
  | true =>
    rw [if_pos (by simp), andThen_ok] at h
    have htrace : .gate .settle :: (((List.replicate m false ++ [true]).map Event.sampRB).reverse ++
        .gate .settle :: s.trace) = (busy (m + 1)).reverse ++ s.trace := by simp [busy]
    rw [htrace] at h
    exact ⟨_, ⟨_, _, _, _, _, rfl⟩, ⟨_, rfl, nominalNs_busy (m + 1)⟩, h⟩

/-- A transaction with a busy wait: what comes before the wait, its two settle gates, and what comes after (R200). -/
theorem lasts_aroundWait {op : BusyOp} {pre : Run Unit} {d e n : Nat} {s t : State} (h : IdleQuiet s)
    (hf : t.frames ≠ s.frames) (hp : Phased s d pre)
    (hrun : finish ((pre.andThen (busyPhase op)).andThen (afterBusy op)) = .next t)
    (rest : ∀ v, IdleQuiet v → finish (afterBusy op v) = .next t → Lasts v t e) (hn : d + 200 + e = n) :
    Lasts s t n := by
  obtain ⟨a, u, rfl, hm, hl⟩ := hp
  rw [andThen_ok] at hrun
  have hu := idleQuiet_moved h hm
  obtain ⟨v, hv, hwait, hrun⟩ := busyPhase_ended hu.1 hrun (by rw [moved_frames hm]; exact hf)
  exact hn ▸ lasts_trans (lasts_trans hl hwait) (rest v (idleQuiet_moved hu hv) hrun)

/-! ### The operations -/

/-- A composite operation that goes on runs its body from idle strobes, with no reset announced. -/
theorem idleQuiet_of_exec {i : Instr} {s t : State} (hp : i.port = .host) (hc : checksIdle i = true)
    (hw : i.wellFormed = true) (hr : s.resetAfter = none) (hs : s.sst = .ready) (h : exec i s = .next t) :
    IdleQuiet s ∧ finish (bodyOf i s) = .next t := by
  obtain ⟨hi, hf⟩ := exec_runs_body hp hc hw hr hs h
  exact ⟨⟨hr, hi⟩, hf⟩

section
variable {s t : State} (hr : s.resetAfter = none) (hs : s.sst = .ready)
include hr hs

/-- The operations of one phase (R174 to R177, R205, R210). -/
theorem lasts_of_sequenced {i : Instr} {phase : State → Run (List Byte)} {d : Nat} (hp : i.port = .host)
    (hc : checksIdle i = true) (hw : i.wellFormed = true) (hb : bodyOf i = sequenced phase)
    (hphase : IdleQuiet s → Phased s d (phase s)) (h : exec i s = .next t) : Lasts s t d := by
  obtain ⟨hq, hf⟩ := idleQuiet_of_exec hp hc hw hr hs h
  rw [hb] at hf
  exact lasts_sequenced hq (hphase hq) hf

theorem lasts_busyWait (h : exec .busyWait s = .next t) (hf : t.frames ≠ s.frames) : Lasts s t 200 := by
  rw [exec_ready rfl rfl hs hr] at h
  obtain ⟨u, hm, hl, hu⟩ := busyPhase_ended hr h hf
  rw [finish_complete _ _ ((moved_resetAfter hm).trans hr)] at hu
  cases hu
  exact hl

theorem lasts_readPage {p : Arg24} (h : exec (.readPage p) s = .next t) (hf : t.frames ≠ s.frames) :
    Lasts s t 63770 := by
  obtain ⟨hq, hrun⟩ := idleQuiet_of_exec rfl rfl rfl hr hs h
  rw [bodyOf, readPageBody, requireIdle_ok hq.2, andThen_ok] at hrun
  have hpre := phased_andThen hq (phased_cmdPhase hq 0x00#8) fun u hu =>
    phased_andThen hu (phased_addrPhase hu (addrPage p)) fun v hv => phased_cmdPhase hv 0x30#8
  simp only [← andThen_andThen] at hrun hpre
  exact lasts_aroundWait hq hf hpre hrun
    (fun v hv hrun => lasts_of_phased hv (g := fun bs => (.ok, bs)) (phased_dinPhase hv pageSize) hrun)
    (by rw [addrPage_length, pageSize])

theorem lasts_writePage {p : Arg24} {buf : List Byte} (hw : (Instr.writePage p buf).wellFormed = true)
    (h : exec (.writePage p buf) s = .next t) (hf : t.frames ≠ s.frames) : Lasts s t 63830 := by
  obtain ⟨hq, hrun⟩ := idleQuiet_of_exec rfl rfl hw hr hs h
  have hlen : buf.length = 2112 := of_decide_eq_true (Bool.and_eq_true_iff.mp hw).1
  rw [bodyOf, writePageBody, requireIdle_ok hq.2, andThen_ok] at hrun
  have hpre := phased_andThen hq (phased_cmdPhase hq 0x80#8) fun u hu =>
    phased_andThen hu (phased_addrPhase hu (addrPage p)) fun v hv =>
      phased_andThen hv (phased_doutPhase hv buf) fun w hw => phased_cmdPhase hw 0x10#8
  simp only [← andThen_andThen] at hrun hpre
  exact lasts_aroundWait hq hf hpre hrun (fun v hv hrun => lasts_of_phased hv (phased_statusTxn hv) hrun)
    (by rw [addrPage_length, hlen])

theorem lasts_eraseBlock {b : Arg24} (hw : (Instr.eraseBlock b).wellFormed = true)
    (h : exec (.eraseBlock b) s = .next t) (hf : t.frames ≠ s.frames) : Lasts s t 410 := by
  obtain ⟨hq, hrun⟩ := idleQuiet_of_exec rfl rfl hw hr hs h
  rw [bodyOf, eraseBlockBody, requireIdle_ok hq.2, andThen_ok] at hrun
  have hpre := phased_andThen hq (phased_cmdPhase hq 0x60#8) fun u hu =>
    phased_andThen hu (phased_addrPhase hu (addrRow b)) fun v hv => phased_cmdPhase hv 0xD0#8
  simp only [← andThen_andThen] at hrun hpre
  exact lasts_aroundWait hq hf hpre hrun (fun v hv hrun => lasts_of_phased hv (phased_statusTxn hv) hrun)
    (by rw [addrRow_length])

end

theorem lasts_sessionInit {s t : State} (hr : s.resetAfter = none) (h : exec .sessionInit s = .next t) :
    Lasts s t 200 := by
  rw [sessionInitOpensSession s hr] at h
  cases h
  exact ⟨initEvents, rfl, rfl⟩

/-- Settles O21: each row is the sum of its phases' durations. -/
theorem minimumDurations : Obligations.MinimumDurations := by
  intro i s t es hr hs hw h he hf
  refine ⟨?_, ?_, ?_, ?_, ?_, ?_, ?_, ?_, ?_, ?_, ?_⟩
  · rintro rfl
    exact nominalNs_of_lasts (lasts_sessionInit hr h) he
  all_goals
    intros
    subst i
    replace hs := hs.resolve_right nofun
    refine nominalNs_of_lasts ?_ he
  · exact lasts_of_sequenced hr hs rfl rfl hw rfl (fun hq => phased_silent hq (phased_cmdPhase hq _)) h
  · exact lasts_of_sequenced hr hs rfl rfl hw rfl (fun hq => phased_silent hq (phased_addrPhase hq _)) h
  · exact lasts_of_sequenced hr hs rfl rfl hw rfl (fun hq => phased_silent hq (phased_doutPhase hq _)) h
  · exact lasts_of_sequenced hr hs rfl rfl hw rfl (fun hq => phased_dinPhase hq _) h
  · exact lasts_busyWait hr hs h hf
  · exact lasts_of_sequenced hr hs rfl rfl hw rfl (fun hq => phased_andThen hq (phased_cmdPhase hq _) fun _ hu =>
      phased_andThen hu (phased_addrPhase hu addrId) fun _ hv => phased_dinPhase hv idLen) h
  · exact lasts_of_sequenced hr hs rfl rfl hw rfl phased_statusTxn h
  · exact lasts_readPage hr hs h hf
  · exact lasts_writePage hr hs hw h hf
  · exact lasts_eraseBlock hr hs hw h hf

end Sys2Proof.Proofs

/-! The host procedures. The statements write the host's rules out from the spec; the first part ties each of their terms
to the model's own, the file's regions among them, and the moves of the host then follow from its reply. -/

namespace Sys2Proof.Proofs

open Sys2Proof.Machine Sys2Proof.Spec

/-! ### The statements' terms are the model's -/

theorem rangeOf_eq (c : BatchCmd) : rangeOf c = c.range := by cases c <;> rfl

theorem total_eq (c : BatchCmd) : (rangeOf c).2 - (rangeOf c).1 = c.total := by rw [rangeOf_eq]; rfl

theorem fileUnit_eq (c : BatchCmd) : fileUnit c = c.unitBytes := by cases c <;> rfl

theorem badUnitLine_eq (c : BatchCmd) (u : Nat) : badUnitLine c u = c.logLine u := by cases c <;> rfl

theorem regionStart_eq (d : Driver) (p : Nat) : regionStart d p = d.fileOffset p := by
  unfold regionStart Driver.fileOffset Driver.filePage
  cases d.fileBase
  case absolute => exact congrArg (p * ·) (fileUnit_eq d.cmd)
  case relative => exact congrArg₂ (fun c n => (p - c) * n) (congrArg Prod.fst (rangeOf_eq d.cmd)) (fileUnit_eq d.cmd)

theorem committedBytes_eq (d : Driver) (second : List Byte) :
    committedBytes d second = badPageBytes d.badPageData d.buf second := by
  unfold committedBytes badPageBytes
  cases d.badPageData
  case zeroFill => rw [page_bytes]
  all_goals rfl

theorem moved_eq (s : State) (m : DriverMove) : moved s m = s.driven m := by
  unfold moved State.driven
  split <;> rfl

/-! ### Regions of the file -/

theorem mapM_id_eq_some_iff {l : List (Option Byte)} {r : List Byte} : l.mapM id = some r ↔ l = r.map some := by
  induction l generalizing r with
  | nil => cases r <;> simp
  | cons a l ih =>
    cases a with
    | none => cases r <;> simp
    | some b =>
      cases r with
      | nil => cases hm : l.mapM id <;> simp [hm]
      | cons v vs => cases hm : l.mapM id <;> simp [hm, ← ih]

/-- A region can be read exactly where the file holds its bytes (R274). -/
theorem readRegion_eq_some_iff {file : List (Option Byte)} {off n : Nat} {data : List Byte} :
    readRegion file off n = some data ↔ data.length = n ∧ holds file off data := by
  have hregion : readRegion file off n = some data ↔ data.length = n ∧ (file.drop off).take n = data.map some := by
    rw [readRegion, ← mapM_id_eq_some_iff]
    constructor
    · intro h
      split at h
      next hlen => exact ⟨(mapM_id_length h).trans hlen, h⟩
      next => cases h
    · rintro ⟨hn, h⟩
      rw [if_pos ((mapM_id_length h).symm.trans hn), h]
  rw [hregion]
  refine and_congr_right fun hn => ⟨fun h k hk => ?_, fun h => List.ext_getElem? fun k => ?_⟩
  · have hget := congrArg (fun l : List (Option Byte) => l[k]?) h
    simpa [hn ▸ hk, hk] using hget
  · by_cases hk : k < n
    · simpa [hk, hn ▸ hk] using h k (hn ▸ hk)
    · simp [hk, hn]

/-- What is before a region that is written: the file up to it, and holes where the file ends before it. -/
theorem beforeRegion_length (file : List (Option Byte)) (off : Nat) :
    (file.take off ++ List.replicate (off - file.length) none).length = off := by
  simp only [List.length_append, List.length_take, List.length_replicate]
  omega

/-- Writing a region puts its bytes there and nothing else (R275). -/
theorem putAt_writeRegion (file : List (Option Byte)) (off : Nat) (data : List Byte) :
    putAt file off data (writeRegion file off data) := by
  have hbefore := beforeRegion_length file off
  have hthrough : ((file.take off ++ List.replicate (off - file.length) none) ++ data.map some).length =
      off + data.length := by rw [List.length_append, hbefore, List.length_map]
  refine ⟨?_, fun k hk => ?_, fun k hk hout => ?_, fun k hlo hhi => ?_⟩
  · rw [writeRegion, List.length_append, hthrough, List.length_drop]
    omega
  · rw [writeRegion, List.getElem?_append_left (by omega), List.getElem?_append_right (by omega), hbefore,
      Nat.add_sub_cancel_left, List.getElem?_map, List.getElem?_eq_getElem hk, Option.map_some]
  · rcases hout with hlt | hge
    · rw [writeRegion, List.getElem?_append_left (by omega), List.getElem?_append_left (by omega),
        List.getElem?_append_left (by rw [List.length_take]; omega), List.getElem?_take_of_lt hlt]
    · rw [writeRegion, List.getElem?_append_right (by omega), hthrough, List.getElem?_drop]
      congr 1
      omega
  · rw [writeRegion, List.getElem?_append_left (by omega), List.getElem?_append_left (by omega),
      List.getElem?_append_right (by rw [List.length_take]; omega), List.getElem?_replicate_of_lt]
    rw [List.length_take]
    omega

/-! ### Units -/

/-- A write unit once its file was accessed: it begins with the bytes that the file holds, or the run aborts (R274). -/
def beginWrite (u : Nat) (d : Driver) : DriverMove :=
  match readRegion d.file (d.fileOffset u) pageSize with
  | some buf => Driver.beginAttempt { d with unit := u, fails := 0, buf := buf }
  | none => d.fatal .fileRead

theorem beginUnit_write {d : Driver} {u : Nat} (hin : u < d.cmd.range.2) (hu : u < 2 ^ 24)
    (hw : ∃ a b, d.cmd = .writeFull a b) : d.beginUnit u = d.access .fileRead (beginWrite u) := by
  obtain ⟨a, b, hw⟩ := hw
  rw [Driver.beginUnit, if_neg (Nat.not_le.mpr hin), if_neg (Nat.not_le.mpr hu)]
  split
  · rfl
  next hno => exact absurd hw (hno a b)

/-- What the host does when it comes to a unit is what the statements say (R268, R272, R274). -/
theorem begins_beginUnit (d : Driver) (u : Nat) : begins d u (d.beginUnit u) := by
  rw [begins, rangeOf_eq]
  refine ⟨fun h => if_pos h, fun hin hu => ?_, fun hin hu => ⟨fun hno => ?_, fun hw => ⟨fun hf => ?_, fun hf => ?_⟩⟩⟩
  · rw [Driver.beginUnit, if_neg (Nat.not_le.mpr hin), if_pos hu]
  · rw [Driver.beginUnit, if_neg (Nat.not_le.mpr hin), if_neg (Nat.not_le.mpr hu)]
    split
    next hw => exact absurd hw (hno _ _)
    next => rfl
  · rw [beginUnit_write hin hu hw, Driver.access, if_pos hf]
    rfl
  · rw [beginUnit_write hin hu hw, Driver.access, if_neg hf, regionStart_eq]
    refine ⟨fun buf hlen hholds => ?_, fun hnone => ?_⟩
    · have hread : readRegion (accessed d).file ((accessed d).fileOffset u) pageSize = some buf :=
        readRegion_eq_some_iff.mpr ⟨hlen, hholds⟩
      show beginWrite u (accessed d) = _
      rw [beginWrite, hread]
      rfl
    · have hread : readRegion (accessed d).file ((accessed d).fileOffset u) pageSize = none :=
        Option.eq_none_iff_forall_ne_some.mpr fun buf h =>
          hnone buf (readRegion_eq_some_iff.mp h).1 (readRegion_eq_some_iff.mp h).2
      show beginWrite u (accessed d) = _
      rw [beginWrite, hread]
      rfl

/-- The end of a unit: the progress report, then the next unit (R271, R272). -/
theorem begins_nextUnit (d : Driver) :
    begins { d with reports := d.reports ++ [.progress d.unit ((rangeOf d.cmd).2 - (rangeOf d.cmd).1)] } (d.unit + 1)
      d.nextUnit := by
  rw [total_eq]
  exact begins_beginUnit _ _

/-- A commit whose write fails (R276). -/
theorem commit_fails {d : Driver} (h : d.fileFails = some 0) (data : List Byte) :
    d.commit data = aborts d .fileWrite := if_pos h

/-- A commit whose write succeeds: the region, then the next unit (R275, R277). -/
theorem commit_writes {d : Driver} (h : d.fileFails ≠ some 0) (data : List Byte) :
    ∃ file', putAt d.file (regionStart d d.unit) (data.take (fileUnit d.cmd)) file' ∧
      begins { accessed d with
        file := file', reports := d.reports ++ [.progress d.unit ((rangeOf d.cmd).2 - (rangeOf d.cmd).1)] }
        (d.unit + 1) (d.commit data) := by
  rw [regionStart_eq, fileUnit_eq]
  refine ⟨_, putAt_writeRegion _ _ _, ?_⟩
  rw [Driver.commit, Driver.access, if_neg h]
  exact begins_nextUnit { accessed d with
    file := writeRegion d.file (d.fileOffset d.unit) (data.take d.cmd.unitBytes) }

/-! ### Replies -/

theorem reply_awaitSecond {d : Driver} (h : d.ctl = .awaitSecond) (f : Frame) : d.reply f =
    if d.buf = f.payload then d.commit d.buf
    else d.countFailure fun d => d.commit (badPageBytes d.badPageData d.buf f.payload) := by rw [Driver.reply, h]

theorem reply_awaitUnit {d : Driver} (h : d.ctl = .awaitWrite ∨ d.ctl = .awaitErase) (f : Frame) : d.reply f =
    if f.rc = .ok then d.nextUnit else d.countFailure Driver.nextUnit := by
  rcases h with h | h <;> rw [Driver.reply, h]

/-- Settles O59: the replies of the two kinds of unit, and `commit_writes` for the file. -/
theorem doubleReadCommitsEqualReads : Obligations.DoubleReadCommitsEqualReads := by
  intro d f
  refine ⟨fun hc hok => ?_, fun hc => ?_, fun hc heq hf => ?_, fun hc heq hf _ => ?_⟩
  · rw [reply_awaitUnit hc, if_pos hok]
    exact begins_nextUnit d
  · rw [Driver.reply, hc]
  · rw [reply_awaitSecond hc, if_pos heq, commit_fails hf]
  · rw [reply_awaitSecond hc, if_pos heq, ← heq]
    exact commit_writes hf d.buf

/-- The reply to a counted failure of a unit (R268). -/
theorem reply_failure {d : Driver} {f : Frame} (h : (d.ctl = .awaitSecond ∧ d.buf ≠ f.payload) ∨
      ((d.ctl = .awaitWrite ∨ d.ctl = .awaitErase) ∧ f.rc = .statusError)) :
    d.reply f = d.countFailure fun d' =>
      if d.ctl = .awaitSecond then d'.commit (badPageBytes d'.badPageData d'.buf f.payload) else d'.nextUnit := by
  rcases h with ⟨hc, hne⟩ | ⟨hc, hrc⟩
  · simp only [reply_awaitSecond hc, if_neg hne, if_pos hc]
  · have hno : d.ctl ≠ .awaitSecond := by rcases hc with hc | hc <;> rw [hc] <;> nofun
    rw [reply_awaitUnit hc, if_neg (by rw [hrc]; nofun)]
    simp only [if_neg hno]

/-- Settles O58: `reply_failure` with the counter below its bound, or at it, where the unit ends as O59's do. -/
theorem sixthFailureIsLogged : Obligations.SixthFailureIsLogged := by
  intro d f hle total logged ended h
  have hlogged : d.fails = 5 → ∀ g : Driver → DriverMove, d.countFailure g = g logged := fun hfive g => by
    have hlast : d.fails + 1 = maxRetries + 1 := by rw [hfive]; rfl
    rw [Driver.countFailure, if_pos hlast, hlast, ← badUnitLine_eq]
    rfl
  rw [reply_failure h]
  refine ⟨fun hlt => ?_, fun hfive hc => ?_, fun hfive hc hf => ?_, fun hfive hc hf _ _ => ?_⟩
  · have hmore : d.fails + 1 ≠ maxRetries + 1 := by rw [maxRetries]; omega
    rw [Driver.countFailure, if_neg hmore]
    rfl
  · have hno : d.ctl ≠ .awaitSecond := by rcases hc with hc | hc <;> rw [hc] <;> nofun
    rw [hlogged hfive, if_neg hno]
    exact begins_nextUnit logged
  · rw [hlogged hfive, if_pos hc]
    exact commit_fails (d := logged) hf _
  · rw [hlogged hfive, if_pos hc, committedBytes_eq]
    exact commit_writes (d := logged) hf _

/-- Settles O57: the reply while the identity check waits is one comparison, then the attempt of the command. -/
theorem identityCheckBeforeEachAttempt : Obligations.IdentityCheckBeforeEachAttempt := by
  intro d f hc
  have hreply : d.reply f = if f.payload = d.id0 then d.attempt else d.beginAttempt := by rw [Driver.reply, hc]
  have hsame : ({ d with ctl := .awaitCheck } : Driver) = d := by rw [← hc]
  refine ⟨fun hne => ?_, fun heq => ⟨fun x y hcmd => ?_, fun x y hcmd => ?_, fun x y hcmd => ?_⟩⟩
  · rw [hreply, if_neg hne, Driver.beginAttempt, hsame]
  · rw [hreply, if_pos heq, Driver.attempt]
    rcases hcmd with hcmd | hcmd <;> rw [hcmd]
  · rw [hreply, if_pos heq, Driver.attempt, hcmd]
  · rw [hreply, if_pos heq, Driver.attempt, hcmd]

/-! ### The session start -/

theorem identityFault_iff (a b c e f : Byte) :
    identityFault [a, b, c, e, f] = true ↔ a = b ∧ b = c ∧ c = e ∧ e = f := by
  simp [identityFault, and_assoc]

/-- The first unit of a command with a file comes after the file was opened (R272, R276). -/
theorem beginBatch_eq (d : Driver) : d.beginBatch =
    if usesFile d.cmd then d.access .fileOpen fun d => d.beginUnit d.cmd.range.1 else d.beginUnit d.cmd.range.1 := by
  unfold Driver.beginBatch
  cases d.cmd <;> rfl

theorem start_of_ne_readId {d : Driver} (h : d.cmd ≠ .readId) (id : List Byte) :
    d.start id = Driver.beginBatch { d with id0 := id } := by
  unfold Driver.start
  split
  next hcmd => exact absurd hcmd h
  next => rfl

/-- The host that waits for a frame moves on the oldest one, and without one it does nothing (R262 to R268, R343). -/
theorem driverStep_of_waits {s : State} (h : waitsForFrame s.driver) :
    (∀ f rest, s.frames = f :: rest →
      driverStep s = State.driven { s with frames := rest } (s.driver.tick.reply f)) ∧
    (s.frames = [] → driverStep s = .next s.tick) := by
  obtain ⟨hoff, hinv, hfin⟩ := h
  unfold driverStep
  split
  next hc => exact absurd hc hoff
  next b hc => exact absurd hc (hfin b)
  next hc => exact absurd hc hinv
  next => exact ⟨fun f rest hf => by rw [hf], fun hf => by rw [hf]⟩

/-- Settles O56: the first replies are read off, and the step is the host's own where both ports are empty. -/
theorem hostStartCapturesIdentity : Obligations.HostStartCapturesIdentity := by
  refine ⟨fun d f => ⟨fun h => if_pos h, fun h => if_neg (by rw [h]; nofun), fun h => by rw [Driver.reply, h]⟩,
    fun d a b c e f rc hc => ?_, fun s hf hb hq => ?_⟩
  · intro id known
    have hreply : d.reply ⟨rc, id⟩ = if identityFault id then d.fatal .identity else d.start id := by
      rw [Driver.reply, hc]
    have hfault : identityFault id = true ↔ a = b ∧ b = c ∧ c = e ∧ e = f := identityFault_iff a b c e f
    rw [hreply]
    refine ⟨fun heq => if_pos (hfault.mpr heq), fun hne hcmd => ?_, fun hne hcmd => ?_⟩
    · rw [if_neg (mt hfault.mp hne), Driver.start, hcmd]
      simp only [Driver.finishRun, List.append_assoc, List.singleton_append, known]
    · have hstart : d.start id = known.beginBatch := start_of_ne_readId hcmd id
      rw [if_neg (mt hfault.mp hne), hstart, beginBatch_eq, show known.cmd = d.cmd from rfl, rangeOf_eq]
      refine ⟨fun hno => ?_, fun huses hfails => ?_, fun huses hfails => ?_⟩
      · rw [if_neg (by rw [hno]; nofun)]
        exact begins_beginUnit known _
      · rw [if_pos huses]
        exact if_pos hfails
      · rw [if_pos huses, Driver.access, if_neg (by exact hfails)]
        exact begins_beginUnit (accessed known) _
  · have hstep : step s = driverStep s := step_eq_driverStep hf hb hq
    rw [hstep]
    refine ⟨fun hc => ?_, fun f rest hwait hframes => ?_, ?_⟩
    · rw [driverStep, hc, moved_eq]
    · rw [(driverStep_of_waits hwait).1 f rest hframes, moved_eq]
      rfl
    · rintro ((hc | ⟨b, hc⟩) | ⟨hwait, hframes⟩)
      · rw [driverStep, hc]; rfl
      · rw [driverStep, hc]; rfl
      · exact (driverStep_of_waits hwait).2 hframes

/-! ### The file -/

/-- The move, if it is one, leaves the host's file as it was. -/
def KeepsFile (d : Driver) (m : DriverMove) : Prop := ∀ d' i, m = .act d' i → d'.file = d.file

theorem keepsFile_act (d d' : Driver) (i : Option Instr) (h : d'.file = d.file) : KeepsFile d (.act d' i) := by
  rintro _ _ ⟨⟩
  exact h

theorem keepsFile_beginUnit (d : Driver) (u : Nat) : KeepsFile d (d.beginUnit u) := fun d' i h =>
  (beginUnit_act d d' u i h).2.1

theorem keepsFile_nextUnit (d : Driver) : KeepsFile d d.nextUnit := keepsFile_beginUnit _ _

theorem keepsFile_access (d : Driver) (w : FatalCause) {g : Driver → DriverMove}
    (hg : KeepsFile d (g { d with fileFails := d.fileFails.map (· - 1) })) : KeepsFile d (d.access w g) := by
  unfold Driver.access
  split
  · exact keepsFile_act _ _ _ rfl
  · exact hg

theorem keepsFile_start (d : Driver) (id : List Byte) : KeepsFile d (d.start id) := by
  by_cases hcmd : d.cmd = .readId
  · rw [Driver.start, hcmd]
    exact keepsFile_act _ _ _ rfl
  · rw [start_of_ne_readId hcmd, beginBatch_eq]
    split
    · exact keepsFile_access { d with id0 := id } _ (keepsFile_beginUnit _ _)
    · exact keepsFile_beginUnit { d with id0 := id } _

theorem keepsFile_attempt (d : Driver) : KeepsFile d d.attempt := by
  unfold Driver.attempt
  split <;> exact keepsFile_act _ _ _ rfl

/-- A counted failure that is not the last one is retried; what ends the unit decides else (R268). -/
theorem keepsFile_countFailure (d : Driver) {g : Driver → DriverMove}
    (hg : d.fails = 5 → ∀ d', d'.file = d.file → KeepsFile d (g d')) : KeepsFile d (d.countFailure g) := by
  unfold Driver.countFailure
  split
  next hlast => exact hg (Nat.succ.inj hlast) _ rfl
  next => exact keepsFile_act _ _ _ rfl

/-- Only the reply to the second read of a unit that is over changes the file (R277). -/
theorem keepsFile_reply (d : Driver) (f : Frame) :
    KeepsFile d (d.reply f) ∨ d.ctl = .awaitSecond ∧ (d.buf = f.payload ∨ d.fails = 5) := by
  cases hc : d.ctl
  case awaitSecond =>
    rw [reply_awaitSecond hc]
    by_cases heq : d.buf = f.payload
    · exact .inr ⟨rfl, .inl heq⟩
    · by_cases hfive : d.fails = 5
      · exact .inr ⟨rfl, .inr hfive⟩
      · rw [if_neg heq]
        exact .inl (keepsFile_countFailure d fun h => absurd h hfive)
  case awaitWrite =>
    rw [reply_awaitUnit (.inl hc)]
    refine .inl ?_
    split
    · exact keepsFile_nextUnit d
    · exact keepsFile_countFailure d fun _ d' h => fun e i he => (keepsFile_nextUnit d' e i he).trans h
  case awaitErase =>
    rw [reply_awaitUnit (.inr hc)]
    refine .inl ?_
    split
    · exact keepsFile_nextUnit d
    · exact keepsFile_countFailure d fun _ d' h => fun e i he => (keepsFile_nextUnit d' e i he).trans h
  case awaitId =>
    rw [Driver.reply, hc]
    refine .inl ?_
    show KeepsFile d (if identityFault f.payload then d.fatal .identity else d.start f.payload)
    split
    · exact keepsFile_act _ _ _ rfl
    · exact keepsFile_start d _
  case awaitCheck =>
    rw [Driver.reply, hc]
    refine .inl ?_
    show KeepsFile d (if f.payload = d.id0 then d.attempt else d.beginAttempt)
    split
    · exact keepsFile_attempt d
    · exact keepsFile_act _ _ _ rfl
  all_goals
    rw [Driver.reply, hc]
    exact .inl (keepsFile_act _ _ _ rfl)

/-- Nothing that an instruction does touches the host's file. -/
theorem kept_file : Kept fun s t => t.driver.file = s.driver.file where
  refl := fun _ => rfl
  trans := fun _ _ _ h1 h2 => h2.trans h1
  event := fun e s _ _ => congrArg Driver.file (record_driver e s)
  bus := fun _ _ => congrArg Driver.file (record_driver _ _)
  ready := fun _ _ => congrArg Driver.file (record_driver _ _)
  phase := fun _ _ => rfl

theorem afterReset_file (d : Driver) : d.afterReset.file = d.file := by
  unfold Driver.afterReset
  split <;> rfl

theorem around_file : Around fun s t => t.driver.file = s.driver.file where
  answer := fun _ _ _ => rfl
  fault := fun _ _ => rfl
  pending := fun _ _ => rfl
  reset := fun s => afterReset_file s.driver

/-- What a move puts into the state. -/
theorem driven_next {s t : State} {m : DriverMove} (h : s.driven m = .next t) :
    ∃ d io, m = .act d io ∧ t.driver = d ∧ t.frames = s.frames := by
  unfold State.driven at h
  split at h
  · cases h; exact ⟨_, _, rfl, rfl, rfl⟩
  · cases h; exact ⟨_, _, rfl, rfl, rfl⟩
  · cases h

/-- The host's move changes the file only by its reply to the oldest frame (R277). -/
theorem driverStep_file {s t : State} (h : driverStep s = .next t) (hne : t.driver.file ≠ s.driver.file) :
    ∃ f rest, s.frames = f :: rest ∧ t.frames = rest ∧ s.driver.ctl = .awaitSecond ∧
      (s.driver.buf = f.payload ∨ s.driver.fails = 5) := by
  unfold driverStep at h
  split at h
  · cases h; exact absurd rfl hne
  · cases h; exact absurd rfl hne
  · obtain ⟨d, io, hm, hd, -⟩ := driven_next h
    rw [hd] at hne
    unfold Driver.invoke at hm
    split at hm <;> cases hm <;> exact absurd rfl hne
  · split at h
    · cases h; exact absurd rfl hne
    next f rest hframes =>
      obtain ⟨d, io, hm, rfl, hfr⟩ := driven_next h
      rcases keepsFile_reply s.driver.tick f with hkeep | hover
      · exact absurd (hkeep _ _ hm) hne
      · exact ⟨f, rest, hframes, hfr, hover⟩

/-- Settles O60: every other step keeps the file (`kept_file`). -/
theorem fileChangesOnlyAtUnitEnd : Obligations.FileChangesOnlyAtUnitEnd := by
  refine ⟨fun s t h hne => ?_, fun d d' f i h hne => (keepsFile_reply d f).resolve_left fun hk => hne (hk d' i h)⟩
  have hsst : ∀ (s : State) x, ({ s with sst := x } : State).driver.file = s.driver.file := fun _ _ => rfl
  rcases step_cases h with ⟨-, rfl⟩ | ⟨-, -, ⟨op, -, h⟩ | ⟨i, rest, -, -, h⟩ | ⟨i, rest, -, -, -, h⟩ |
    ⟨c, rest, -, -, h⟩ | ⟨rc, rest, -, -, h⟩ | ⟨-, -, -, h⟩ | ⟨-, rfl⟩⟩
  · exact absurd (afterReset_file s.driver) hne
  · exact absurd (kept_finish kept_file around_file (kept_resume kept_file op _) h) hne
  · exact absurd (kept_exec kept_file hsst around_file h) hne
  · exact absurd (kept_exec kept_file hsst around_file h) hne
  · exact absurd (kept_busCommand kept_file around_file h) hne
  · rcases deliver_next h with ⟨-, rfl⟩ | ⟨-, rfl⟩
    · exact absurd (afterReset_file s.driver) hne
    · exact absurd rfl hne
  · exact driverStep_file h hne
  · exact absurd rfl hne

end Sys2Proof.Proofs
